-- ==== Sys2Proof/Word.lean ====
section
/-! DEFINITION. The word types of the block: bytes of a track, 16-bit registers, 32-bit command and response words (R11, R21, R100). -/

namespace Sys2Proof

/-- A byte of a buffer, or an 8-bit register (R11: "A byte is 8 bits"). -/
abbrev Byte := BitVec 8

/-- A 16-bit register value (R21). -/
abbrev Half := BitVec 16

/-- A command word or a response word (R100, R108). -/
abbrev Word := BitVec 32

end Sys2Proof
end

