-- ==== Sys2Proof/Syntax.lean ====
section
/-! DEFINITION. The 18 commands of the block, one constructor per row of spec/opcode_table.json (R106), with the operands R111 assembles. -/

namespace Sys2Proof

/-- A host command. Operands are what R111 gives: `b` an unsigned byte, `r` a register number, `v` the 16-bit write value, `addr` a
14-bit buffer address, `idx` the signed integer `sext_24(w[23:0])`. -/
inductive Instr where
  /-- NOP (R235) -/
  | nop
  /-- REG.RD r (R236) -/
  | regRd (r : BitVec 8)
  /-- REG.WR r, v (R237) -/
  | regWr (r : BitVec 8) (v : Half)
  /-- CRC.SEED (R132) -/
  | crcSeed
  /-- CRC.UPD b (R133) -/
  | crcUpd (b : Byte)
  /-- TB.RD addr (R140) -/
  | tbRd (addr : BitVec 14)
  /-- TB.WR addr, b (R141) -/
  | tbWr (addr : BitVec 14) (b : Byte)
  /-- TRK.RD idx (R142) -/
  | trkRd (idx : Int)
  /-- PB.RD addr (R143) -/
  | pbRd (addr : BitVec 14)
  /-- PB.WR addr, b (R144) -/
  | pbWr (addr : BitVec 14) (b : Byte)
  /-- ENC.TRACK (R158) -/
  | encTrack
  /-- SCAN.START (R171) -/
  | scanStart
  /-- SCAN.NEXT (R172) -/
  | scanNext
  /-- GAP.CLR (R197) -/
  | gapClr
  /-- GAP.ADD (R198) -/
  | gapAdd
  /-- GAP.FIND (R199) -/
  | gapFind
  /-- ADJ.STEP (R211) -/
  | adjStep
  /-- ADJ.RUN (R212) -/
  | adjRun
  deriving DecidableEq, Repr

end Sys2Proof
end

