-- ==== Sys2Proof/WellFormed.lean ====
section
/-! DEFINITION. Which terms of Instr stand for a command word: the operand ranges of R105 and R109 that the types do not already impose. -/

namespace Sys2Proof

/-- TRK.RD's index is in the range of a signed 24-bit number: "an `Int` in `[-8388608, 8388607]`" (R105, R109). -/
abbrev idx24InRange (idx : Int) : Prop := -8388608 ≤ idx ∧ idx ≤ 8388607

/-- A term that some command word encodes. Only TRK.RD has an operand whose type is wider than its field; register numbers, addresses,
bytes and values have their field's width. An unassigned register number is well formed: the word is legal and faults when it
executes (R236, R237). -/
def Instr.wellFormed : Instr → Bool
  | .nop => true
  | .regRd _ => true
  | .regWr _ _ => true
  | .crcSeed => true
  | .crcUpd _ => true
  | .tbRd _ => true
  | .tbWr _ _ => true
  | .trkRd idx => decide (idx24InRange idx)
  | .pbRd _ => true
  | .pbWr _ _ => true
  | .encTrack => true
  | .scanStart => true
  | .scanNext => true
  | .gapClr => true
  | .gapAdd => true
  | .gapFind => true
  | .adjStep => true
  | .adjRun => true

end Sys2Proof
end

