-- ==== Sys2Proof/Decode.lean ====
section
/-! DEFINITION. Decoding a 32-bit command word (R100 to R107, R111), rejecting by name, and the encoder (R109). Decoding depends on the word
alone, never on state (R100). -/

namespace Sys2Proof

/-- Why a word is no command (R107). Either way the block raises E_ILLEGAL when it is not halted. -/
inductive DecodeReject where
  /-- the opcode byte is not in the map of R106 -/
  | unassignedOpcode
  /-- a non-zero bit in a field the format requires to be 0 -/
  | operandNotZero
  deriving DecidableEq, Repr

/-- What decoding answers. -/
abbrev Decoded := Except DecodeReject Instr

/-- `op = w[31:24]` (R100). -/
def opcodeOf (w : Word) : BitVec 8 := w.extractLsb' 24 8

/-- `w[31:16]`, what E_ILLEGAL records (R107, R251). -/
def wordHigh (w : Word) : Half := w.extractLsb' 16 16

/-- The must-be-zero check of a format (R101 to R104). -/
def ifZeroField {n : Nat} (field : BitVec n) (i : Instr) : Decoded :=
  if field = 0 then .ok i else .error .operandNotZero

/-- Format Z (R101): `a` must be 0. -/
def decodeZ (w : Word) (i : Instr) : Decoded := ifZeroField (w.extractLsb' 0 24) i

/-- Format B (R102): `b = w[7:0]`, `w[23:8]` must be 0. -/
def decodeB (w : Word) (f : Byte → Instr) : Decoded := ifZeroField (w.extractLsb' 8 16) (f (w.extractLsb' 0 8))

/-- Format R (R103) with a write value: `r = w[23:16]`, `v = w[15:0]`. -/
def decodeR (w : Word) (f : BitVec 8 → Half → Instr) : Decoded := .ok (f (w.extractLsb' 16 8) (w.extractLsb' 0 16))

/-- Format R (R103) with `v` required to be 0. -/
def decodeR0 (w : Word) (f : BitVec 8 → Instr) : Decoded := ifZeroField (w.extractLsb' 0 16) (f (w.extractLsb' 16 8))

/-- Format A (R104): `w[23:22]` must be 0, `addr = w[21:8]`, `b = w[7:0]`. -/
def decodeA (w : Word) (f : BitVec 14 → Byte → Instr) : Decoded :=
  ifZeroField (w.extractLsb' 22 2) (f (w.extractLsb' 8 14) (w.extractLsb' 0 8))

/-- Format A (R104) with `b` required to be 0. -/
def decodeA0 (w : Word) (f : BitVec 14 → Instr) : Decoded :=
  if w.extractLsb' 22 2 = 0 then ifZeroField (w.extractLsb' 0 8) (f (w.extractLsb' 8 14)) else .error .operandNotZero

/-- Format I (R105): `idx = sext_24(w[23:0])`. -/
def decodeI (w : Word) (f : Int → Instr) : Decoded := .ok (f (w.extractLsb' 0 24).toInt)

/-- The opcode map (R106); every other opcode is illegal (R107). -/
def decode (w : Word) : Decoded :=
  if opcodeOf w = 0x00 then decodeZ w .nop
  else if opcodeOf w = 0x01 then decodeR0 w .regRd
  else if opcodeOf w = 0x02 then decodeR w .regWr
  else if opcodeOf w = 0x10 then decodeZ w .crcSeed
  else if opcodeOf w = 0x11 then decodeB w .crcUpd
  else if opcodeOf w = 0x20 then decodeA0 w .tbRd
  else if opcodeOf w = 0x21 then decodeA w .tbWr
  else if opcodeOf w = 0x22 then decodeI w .trkRd
  else if opcodeOf w = 0x23 then decodeA0 w .pbRd
  else if opcodeOf w = 0x24 then decodeA w .pbWr
  else if opcodeOf w = 0x30 then decodeZ w .encTrack
  else if opcodeOf w = 0x40 then decodeZ w .scanStart
  else if opcodeOf w = 0x41 then decodeZ w .scanNext
  else if opcodeOf w = 0x50 then decodeZ w .gapClr
  else if opcodeOf w = 0x51 then decodeZ w .gapAdd
  else if opcodeOf w = 0x52 then decodeZ w .gapFind
  else if opcodeOf w = 0x60 then decodeZ w .adjStep
  else if opcodeOf w = 0x61 then decodeZ w .adjRun
  else .error .unassignedOpcode

/-- The word of a command (R109; the fields are those of R101 to R105). -/
def encode : Instr → Word
  | .nop => 0x00#8 ++ 0#24
  | .regRd r => 0x01#8 ++ r ++ 0#16
  | .regWr r v => 0x02#8 ++ r ++ v
  | .crcSeed => 0x10#8 ++ 0#24
  | .crcUpd b => 0x11#8 ++ 0#16 ++ b
  | .tbRd addr => 0x20#8 ++ 0#2 ++ addr ++ 0#8
  | .tbWr addr b => 0x21#8 ++ 0#2 ++ addr ++ b
  | .trkRd idx => 0x22#8 ++ BitVec.ofInt 24 idx
  | .pbRd addr => 0x23#8 ++ 0#2 ++ addr ++ 0#8
  | .pbWr addr b => 0x24#8 ++ 0#2 ++ addr ++ b
  | .encTrack => 0x30#8 ++ 0#24
  | .scanStart => 0x40#8 ++ 0#24
  | .scanNext => 0x41#8 ++ 0#24
  | .gapClr => 0x50#8 ++ 0#24
  | .gapAdd => 0x51#8 ++ 0#24
  | .gapFind => 0x52#8 ++ 0#24
  | .adjStep => 0x60#8 ++ 0#24
  | .adjRun => 0x61#8 ++ 0#24

/-- The `mask` column of R106: which bits of the word the row fixes. -/
def rowMask : Instr → Word
  | .regRd _ => 0xFF00FFFF
  | .regWr _ _ => 0xFF000000
  | .crcUpd _ => 0xFFFFFF00
  | .tbRd _ => 0xFFC000FF
  | .tbWr _ _ => 0xFFC00000
  | .trkRd _ => 0xFF000000
  | .pbRd _ => 0xFFC000FF
  | .pbWr _ _ => 0xFFC00000
  | .nop | .crcSeed | .encTrack | .scanStart | .scanNext | .gapClr | .gapAdd | .gapFind | .adjStep | .adjRun => 0xFFFFFFFF

/-- The `match` column of R106: what those bits are. -/
def rowMatch : Instr → Word
  | .nop => 0x00000000
  | .regRd _ => 0x01000000
  | .regWr _ _ => 0x02000000
  | .crcSeed => 0x10000000
  | .crcUpd _ => 0x11000000
  | .tbRd _ => 0x20000000
  | .tbWr _ _ => 0x21000000
  | .trkRd _ => 0x22000000
  | .pbRd _ => 0x23000000
  | .pbWr _ _ => 0x24000000
  | .encTrack => 0x30000000
  | .scanStart => 0x40000000
  | .scanNext => 0x41000000
  | .gapClr => 0x50000000
  | .gapAdd => 0x51000000
  | .gapFind => 0x52000000
  | .adjStep => 0x60000000
  | .adjRun => 0x61000000

/-- The opcode table's own numbering of an instruction's bits: the command is one 32-bit word, so its bits are the word's
(the block has no fetch and no fetch byte order, R66). -/
def decodeTableWord (nbits w : Nat) : Option Instr :=
  if w < 2 ^ nbits ∧ w < 2 ^ 32 then (decode (BitVec.ofNat 32 w)).toOption else none

end Sys2Proof
end

