-- ==== Sys2Proof/Config.lean ====
section
/-! DEFINITION. The parameters of the block: the constants the document fixes (R9), the capacities the spec chose (R10), and the
values left open as uninterpreted constants: GAP_TIE (R196), INIT_TB and INIT_PB (R42). -/

namespace Sys2Proof.Config

/-- PTAB_BYTES: "size of the pointer table at the start of every track" (R9). -/
abbrev ptabBytes : Nat := 128
/-- PTAB_SLOTS: "number of 16-bit pointer entries" (R9). -/
abbrev ptabSlots : Nat := 64
/-- TRKLEN_MIN_EXCL: `trackLength` must be greater than this (R9). -/
abbrev trklenMinExcl : Nat := 128
/-- TRKLEN_MAX_EXCL: `trackLength` must be less than this (R9). -/
abbrev trklenMaxExcl : Nat := 0x4000
/-- CRC_POLY (R9). -/
abbrev crcPoly : Half := 0x1021
/-- CRC_SEED: "CRC seed for both mark kinds" (R9). -/
abbrev crcSeed : Half := 0xFFFF
/-- DM_SEARCH: "number of start positions searched for a data mark" (R9). -/
abbrev dmSearch : Nat := 43
/-- ID_FRAME_BYTES: A1 A1 A1 FE C H R N crcHi crcLo (R9). -/
abbrev idFrameBytes : Nat := 10
/-- SYNC_BYTES: "run of 0x00 before every mark" (R9). -/
abbrev syncBytes : Nat := 12
/-- GAP_FILL: value of every gap byte (R9). -/
abbrev gapFill : Byte := 0x4E
/-- SYNC_FILL: value of every sync byte (R9). -/
abbrev syncFill : Byte := 0x00
/-- MARK_A1: the three bytes before an ID or data mark type byte (R9). -/
abbrev markA1 : Byte := 0xA1
/-- MARK_C2: the three bytes before the index mark type byte (R9). -/
abbrev markC2 : Byte := 0xC2
/-- TYPE_INDEX (R9). -/
abbrev typeIndex : Byte := 0xFC
/-- TYPE_ID (R9). -/
abbrev typeId : Byte := 0xFE
/-- TYPE_DATA (R9). -/
abbrev typeData : Byte := 0xFB
/-- TYPE_DELETED (R9). -/
abbrev typeDeleted : Byte := 0xF8
/-- SIZE_MASK: sector size is `128 << (n & SIZE_MASK)` (R9; 7 everywhere, 90_conflicts.md C5). -/
abbrev sizeMask : Byte := 7

/-- TB_CAP: capacity of the track buffer (R10, D6). -/
abbrev tbCap : Nat := 16384
/-- PB_CAP: capacity of the payload buffer (R10, D7). -/
abbrev pbCap : Nat := 16384
/-- IV_CAP: capacity of the in-use interval list (R10, D20). -/
abbrev ivCap : Nat := 64

/-- INIT_TB (R42, D29, 93 U3): `initTB d a` is what byte `a` of TB holds after reset number `d`, "one draw per reset under no law".
FREE VALUE: no body, nothing constrains it (log 3). -/
opaque initTB : Nat → Nat → Byte

/-- INIT_PB (R42, D29, 93 U3): the same for the payload buffer. FREE VALUE (log 3). -/
opaque initPB : Nat → Nat → Byte

/-- GAP_TIE (R196, D18): which member of the list of equally long largest gaps, given as (start, length) in rising order of start,
is chosen: its index, taken modulo the length of the list. FREE VALUE: every choice function is one of these (log 5). -/
opaque gapTie : List (Nat × Nat) → Nat

end Sys2Proof.Config
end

