-- ==== Sys2Proof/Machine/State.lean ====
section
/-! DEFINITION. The state of the block (R20 to R43): the register file, the two buffers, the interval list, and the model's own three fields
for the host interface (log 1, 2) and the reset draws (log 3). Every reset value is R42's. -/

namespace Sys2Proof.Machine

/-- A stop of the machine. The block itself never stops: every fault of spec/60_exceptions.md is a NEXT state whose FAULT register is
set (R256), and every command completes (R294, R295). -/
inductive Fault where
  /-- An access to a byte outside the 16384 of a buffer (R60). No meaning raises it: every address the rules form is below 16384
  (R140, R143, R152, R215), and the statement EveryCommandCompletes says that no command ends in a fault. Safe: it is a stop, and it is
  never reached (log 8). -/
  | outsideBuffer (address : Nat)
  deriving DecidableEq, Repr

/-- No meaning for an instruction. -/
inductive Refusal where
  /-- Raised by an arm of `exec` whose instruction has no meaning yet; no arm does. Safe: the model stops where the hardware goes on. -/
  | notModelled (mnemonic : String)
  deriving DecidableEq, Repr

/-- A buffer, as the bytes written to it since reset, by address; an address not listed holds its reset draw (R42, log 3, log 4). -/
abbrev Memory := List Host.Cell

/-- An in-use interval: a pair `(start, stop)` of signed integers (R40). -/
structure Interval where
  start : Int
  stop  : Int
  deriving DecidableEq, Repr

/-- What the host does to the block: it issues a command word (R8, R100) or applies reset (R280). -/
inductive HostEvent where
  | command (w : Word)
  | reset
  deriving DecidableEq, Repr

/-- The encoder parameter registers (R30 to R32). -/
structure EncoderRegs where
  /-- GAP1 (0x08) -/
  gap1 : Half
  /-- GAP2 (0x09) -/
  gap2 : Half
  /-- GAP3 (0x0A) -/
  gap3 : Half
  /-- GAP4A (0x0B) -/
  gap4a : Half
  /-- GAP4B (0x0C) -/
  gap4b : Half
  /-- SPT (0x0D) -/
  spt : Half
  /-- SIZECODE (0x0E) -/
  sizecode : Byte
  /-- IDC (0x0F) -/
  idc : Byte
  /-- IDH (0x10) -/
  idh : Byte
  /-- CORR0 (0x11): bits 15:0 of the mask CORR (R31) -/
  corr0 : Half
  /-- CORR1 (0x12): bits 31:16 -/
  corr1 : Half
  /-- CORR2 (0x13): bits 47:32 -/
  corr2 : Half
  /-- CORR3 (0x14): bits 63:48 -/
  corr3 : Half
  /-- RTAB[0 .. 63] (0x40 to 0x7F) (R32) -/
  rtab : Vector Byte 64
  deriving DecidableEq, Repr

/-- The twelve scan result registers (R33, R34). -/
structure ScanRegs where
  /-- RKIND (0x19) -/
  rkind : BitVec 3
  /-- RSLOT (0x1A) -/
  rslot : BitVec 7
  /-- RPTR (0x1B) -/
  rptr : Half
  /-- REC_C (0x1C) -/
  recC : Byte
  /-- REC_H (0x1D) -/
  recH : Byte
  /-- REC_R (0x1E) -/
  recR : Byte
  /-- REC_N (0x1F) -/
  recN : Byte
  /-- REC_TYPE (0x20) -/
  recType : Byte
  /-- REC_FLAGS (0x21): TYPECLS (3:2), DATACRCOK (1), ADDRCRCOK (0) (R34) -/
  recFlags : BitVec 4
  /-- RSIZE (0x22) -/
  rsize : Half
  /-- ADDROFF (0x23) -/
  addroff : BitVec 14
  /-- DATAOFF (0x24) -/
  dataoff : BitVec 14
  deriving DecidableEq, Repr

/-- What GAP.FIND and the adjuster report: the flag GAPVALID (R28) and the registers GAPMID, GAPSIZE (R36). -/
structure GapRegs where
  /-- GAPVALID, STATUS bit 2 (R28) -/
  valid : Bool
  /-- GAPMID (0x2B) -/
  mid : BitVec 14
  /-- GAPSIZE (0x2C) -/
  size : BitVec 14
  deriving DecidableEq, Repr

/-- The state of the block (R20). STATUS is computed (R28). The last three fields are the model's own. -/
structure State where
  /-- FAULT.V, bit 15 of FAULT (0x01): the block is halted (R29, R257) -/
  faultV : Bool
  /-- FAULT.CODE, bits 7:0 of FAULT (R29) -/
  faultCode : BitVec 8
  /-- FINFO (0x02) (R29) -/
  finfo : Half
  /-- MODE (0x03): STRICT bit 0, G4BAUTO bit 1 (R26) -/
  mode : BitVec 2
  /-- TRKLEN (0x04) (R25) -/
  trklen : Half
  /-- CRC (0x05) (R23) -/
  crc : Half
  /-- DATA (0x06) (R24) -/
  data : Byte
  /-- TARGET (0x07) (R37) -/
  target : Half
  /-- the encoder parameter registers (R30 to R32) -/
  enc : EncoderRegs
  /-- SLOT (0x18): the scan cursor (R27) -/
  slot : BitVec 7
  /-- SCANDONE, STATUS bit 1 (R28) -/
  scandone : Bool
  /-- the scan result registers (R33) -/
  scan : ScanRegs
  /-- IVS (0x28) (R35) -/
  ivs : Half
  /-- IVE (0x29) (R35) -/
  ive : Half
  /-- IVCNT (0x2A) (R35) -/
  ivcnt : BitVec 7
  /-- IV, the in-use interval list (R40) -/
  iv : List Interval
  /-- GAPVALID, GAPMID, GAPSIZE (R28, R36) -/
  gap : GapRegs
  /-- TB, the track buffer (R38) -/
  tb : Memory
  /-- PB, the payload buffer (R39) -/
  pb : Memory
  /-- MODEL: the number of resets applied, which selects the draw of INIT_TB and INIT_PB (log 3) -/
  draw : Nat
  /-- MODEL: what the host has issued and the block has not yet taken, first first (R8, log 1) -/
  input : List HostEvent
  /-- MODEL: RESP, the answer to the last command (R108); none before the first one after reset (log 2) -/
  resp : Option Word
  deriving DecidableEq, Repr

/-- The encoder parameter registers after reset (R42). -/
def EncoderRegs.reset : EncoderRegs :=
  { gap1 := 0, gap2 := 0, gap3 := 0, gap4a := 0, gap4b := 0, spt := 0, sizecode := 0, idc := 0, idh := 0,
    corr0 := 0, corr1 := 0, corr2 := 0, corr3 := 0, rtab := Vector.replicate 64 0 }

/-- The scan result registers after reset (R42: RKIND = NONE), and after SCAN.START (R171). -/
def ScanRegs.zero : ScanRegs :=
  { rkind := 0, rslot := 0, rptr := 0, recC := 0, recH := 0, recR := 0, recN := 0, recType := 0, recFlags := 0,
    rsize := 0, addroff := 0, dataoff := 0 }

/-- The machine right after reset (R42, R281). -/
def State.reset : State :=
  { faultV := false, faultCode := 0, finfo := 0, mode := 0, trklen := 0, crc := 0xFFFF, data := 0, target := 0,
    enc := EncoderRegs.reset, slot := 0, scandone := false, scan := ScanRegs.zero,
    ivs := 0, ive := 0, ivcnt := 0, iv := [], gap := { valid := false, mid := 0, size := 0 },
    tb := [], pb := [], draw := 0, input := [], resp := none }

end Sys2Proof.Machine
end

