-- ==== Sys2Proof/Machine/Flags.lean ====
section
/-! DEFINITION. The computed flags: STATUS (R28), FAULT as a register (R29), MODE's fields (R26), REC_FLAGS and the class of a data mark (R34, R181). -/

namespace Sys2Proof.Machine

/-- `MODE.STRICT`, bit 0 (R26). -/
def State.strict (s : State) : Bool := s.mode.getLsbD 0

/-- `MODE.G4BAUTO`, bit 1 (R26). -/
def State.g4bAuto (s : State) : Bool := s.mode.getLsbD 1

/-- STATUS: bit 0 HALT = FAULT.V, bit 1 SCANDONE, bit 2 GAPVALID (R28). -/
def State.status (s : State) : BitVec 3 :=
  BitVec.ofBool s.gap.valid ++ BitVec.ofBool s.scandone ++ BitVec.ofBool s.faultV

/-- FAULT read as a register: V in bit 15, CODE in bits 7:0, the unimplemented bits 0 (R21, R29). -/
def State.faultReg (s : State) : Half := BitVec.ofBool s.faultV ++ 0#7 ++ s.faultCode

/-- TYPECLS, the class of a data mark type byte: 0 normal 0xFB, 1 deleted 0xF8, 2 any other (R34). -/
def typeClass (t : Byte) : BitVec 2 :=
  if t = Config.typeData then 0 else if t = Config.typeDeleted then 1 else 2

/-- REC_FLAGS: bit 0 ADDRCRCOK, bit 1 DATACRCOK, bits 3:2 TYPECLS (R34). -/
def recFlags (addrCrcOk dataCrcOk : Bool) (cls : BitVec 2) : BitVec 4 :=
  cls ++ BitVec.ofBool dataCrcOk ++ BitVec.ofBool addrCrcOk

end Sys2Proof.Machine
end

