-- ==== Sys2Proof/Machine/Ops.lean ====
section
/-! DEFINITION. The shared operations: one read and one write of a buffer, the answer to the host (R108), taking a fault (R256), the halted
refusal (R257), the reset event (R280), and the input from the host (R8). -/

namespace Sys2Proof.Machine

/-- What a command answers. -/
abbrev Result := Host.Outcome State Fault Refusal

/-! ## Buffers -/

/-- The byte written to address `a` since reset, if any. -/
def Memory.find (m : Memory) (a : Nat) : Option Byte :=
  match m with
  | [] => none
  | c :: rest => if c.1 = a then some c.2 else Memory.find rest a

/-- `bytes` as cells at addresses `a`, `a + 1`, … -/
def cellsAt (a : Nat) (bytes : List Byte) : Memory :=
  match bytes with
  | [] => []
  | b :: rest => (a, b) :: cellsAt (a + 1) rest

/-- `MemWrite(M, a, n, bytes)` (R11): the bytes at `a`, `a + 1`, … become `bytes`, every other byte keeps its value. -/
def Memory.write (m : Memory) (a : Nat) (bytes : List Byte) : Memory :=
  m.filter (fun c => decide (c.1 < a)) ++ cellsAt a bytes ++ m.filter (fun c => decide (a + bytes.length ≤ c.1))

/-- The canonical form: addresses strictly rising and inside the buffer (R60: 0 to 16383). An address is listed exactly when it has been
written since reset; an unlisted one holds its draw, which is a free value, so no listed byte can be known to equal it (log 4). -/
abbrev Memory.wf (m : Memory) : Prop :=
  m.Pairwise (fun c d => c.1 < d.1) ∧ ∀ c ∈ m, c.1 < Config.tbCap

/-- `TB[a]`: the last byte written there, "or the reset draw if none" (R71). -/
def State.tbByte (s : State) (a : Nat) : Byte := (s.tb.find a).getD (Config.initTB s.draw a)

/-- `PB[a]` (R39, R71). -/
def State.pbByte (s : State) (a : Nat) : Byte := (s.pb.find a).getD (Config.initPB s.draw a)

/-- `MemRead(TB, a, n)` (R11). -/
def State.tbRead (s : State) (a n : Nat) : List Byte := (List.range n).map fun i => s.tbByte (a + i)

/-- `MemRead(PB, a, n)` (R11). -/
def State.pbRead (s : State) (a n : Nat) : List Byte := (List.range n).map fun i => s.pbByte (a + i)

/-! ## The answer to the host -/

/-- The state with `RESP <- r` (R108). -/
def State.answered (s : State) (r : Word) : State := { s with resp := some r }

/-- The command ends successfully with `RESP <- r`. -/
def State.answer (s : State) (r : Word) : Result := .next (s.answered r)

/-! ## Faults (R251, R256) -/

/-- The fault codes of R251. -/
inductive FaultCode where
  | illegal | badLen | range | tableFull | gap4b | layout | malformed | noGap
  /-- E_NOCONV: "no command: reserved, unreachable" (R251, R213) -/
  | noConv
  | ivFull
  deriving DecidableEq, Repr

/-- The number of a fault code (R251). -/
def FaultCode.num : FaultCode → BitVec 8
  | .illegal => 1
  | .badLen => 2
  | .range => 3
  | .tableFull => 4
  | .gap4b => 5
  | .layout => 6
  | .malformed => 7
  | .noGap => 8
  | .noConv => 9
  | .ivFull => 10

/-- `0x80000000 OR code`: the response of a command that faulted or was refused (R108). -/
def faultResponse (code : BitVec 8) : Word := 0x80000000#32 ||| code.setWidth 32

/-- Fault entry (R256): FAULT, FINFO and RESP are written, "every other piece of state keeps the value it had". -/
def State.takeFault (s : State) (code : FaultCode) (info : Nat) : State :=
  { s with faultV := true, faultCode := code.num, finfo := BitVec.ofNat 16 info, resp := some (faultResponse code.num) }

/-- `raise Fault(code, info)` (R256). There is no return from it but reset (R258). -/
def State.raise (s : State) (code : FaultCode) (info : Nat) : Result := .next (s.takeFault code info)

/-- A fault a rule raises before anything is written: its code and its information. -/
structure Raised where
  code : FaultCode
  info : Nat
  deriving DecidableEq, Repr

/-- What a halted block does with a command it refuses: "no state changes, `RESP <- 0x80000000 OR FAULT.CODE`" (R257). -/
def State.refused (s : State) : State := s.answered (faultResponse s.faultCode)

/-- The halt test every command but NOP and REG.RD makes first (R257, R259). -/
def State.whenRunning (s : State) (k : Unit → Result) : Result := if s.faultV then .next s.refused else k ()

/-- A word that is no command (R107): refused by a halted block, otherwise `Fault(E_ILLEGAL, w[31:16])`. -/
def State.illegalWord (s : State) (high : Half) : Result := s.whenRunning fun _ => s.raise .illegal high.toNat

/-! ## Reset and the host (R8, R280) -/

/-- The reset event (R280, R281): every field at its reset value, the buffers at a new draw; what the host has still to issue stays. -/
def State.resetEvent (s : State) : State := { State.reset with draw := s.draw + 1, input := s.input }

/-- The next thing the host does, and the state with it taken. -/
def State.takeInput (s : State) : Option (HostEvent × State) :=
  match s.input with
  | [] => none
  | e :: rest => some (e, { s with input := rest })

end Sys2Proof.Machine
end

