-- ==== Sys2Proof/Machine/Operands.lean ====
section
/-! DEFINITION. What the operands of the commands name: the track length and its check (R25, R145), the circular map `rd` (R64), pointer-table
entries (R62, R63), the register file (R21, R22), signed 16-bit values (R35). -/

namespace Sys2Proof.Machine

/-! ## The track -/

/-- `ValidLen`: `128 < TRKLEN and TRKLEN < 0x4000` (R25). -/
def State.validLen (s : State) : Bool :=
  decide (Config.trklenMinExcl < s.trklen.toNat ∧ s.trklen.toNat < Config.trklenMaxExcl)

/-- The check shared by every command that touches the track (R145): `Fault(E_BADLEN, TRKLEN)` "before anything else". -/
def State.whenValidLen (s : State) (k : Unit → Result) : Result :=
  if s.validLen then k () else s.raise .badLen s.trklen.toNat

/-- `L = TRKLEN - 128`, the length of the data region (R11, R61). -/
def State.dataLen (s : State) : Nat := s.trklen.toNat - Config.ptabBytes

/-- The data-region index `idx mod L`, Euclidean (R64). -/
def State.wrap (s : State) (idx : Int) : Nat := (idx % (s.dataLen : Int)).toNat

/-- `rd(idx) = D[idx mod L] = TB[128 + (idx mod L)]` (R64): "the only way track bytes are read during decode" (R65). -/
def State.rd (s : State) (idx : Int) : Byte := s.tbByte (Config.ptabBytes + s.wrap idx)

/-- The `n` bytes `rd(idx), rd(idx + 1), …`. -/
def State.rdSeq (s : State) (idx : Int) (n : Nat) : List Byte := (List.range n).map fun (i : Nat) => s.rd (idx + i)

/-- A big-endian 16-bit field at data-region index `p`: `256*rd(p) + rd(p+1)` (R66). -/
def State.rdBe16 (s : State) (p : Int) : Half := s.rd p ++ s.rd (p + 1)

/-- `PT(k) = TB[2k] + 256 * TB[2k + 1]`, pointer-table entry `k`, little-endian, read directly (R62). -/
def State.pt (s : State) (k : Nat) : Half := s.tbByte (2 * k + 1) ++ s.tbByte (2 * k)

/-- `dmkIdx = e AND 0x3FFF` (R63, R97). -/
def dmkIdxOf (e : Half) : Nat := (e &&& 0x3FFF).toNat

/-- Bits 15:14 of a pointer entry, the density field (R63). -/
def densityOf (e : Half) : BitVec 2 := e.extractLsb' 14 2

/-- The sector size of a size code: `128 << (n AND 7)` (R97). -/
def sectorSize (n : Byte) : Nat := 128 <<< (n &&& Config.sizeMask).toNat

/-- `hi(v) = v[15:8]` (R11). -/
def hi (v : Half) : Byte := v.extractLsb' 8 8

/-- `lo(v) = v[7:0]` (R11). -/
def lo (v : Half) : Byte := v.extractLsb' 0 8

/-- A little-endian 16-bit field as bytes, first byte first (R66). -/
def le16Bytes (v : Half) : List Byte := [lo v, hi v]

/-- A big-endian 16-bit field as bytes, first byte first (R66). -/
def be16Bytes (v : Half) : List Byte := [hi v, lo v]

/-- `sext_16`: a 16-bit pattern read as signed (R35). -/
def sext16 (v : Half) : Int := v.toInt

/-! ## The register file (R21, R22) -/

/-- The registers of R21, by name. -/
inductive Reg where
  | status | fault | finfo | mode | trklen | crc | data | target
  | gap1 | gap2 | gap3 | gap4a | gap4b | spt | sizecode | idc | idh
  | corr0 | corr1 | corr2 | corr3
  | slot | rkind | rslot | rptr | recC | recH | recR | recN | recType | recFlags | rsize | addroff | dataoff
  | ivs | ive | ivcnt | gapmid | gapsize
  | rtab (i : Fin 64)
  deriving DecidableEq, Repr

/-- The register number, column `num` of R21. -/
def Reg.num : Reg → BitVec 8
  | .status => 0x00 | .fault => 0x01 | .finfo => 0x02 | .mode => 0x03
  | .trklen => 0x04 | .crc => 0x05 | .data => 0x06 | .target => 0x07
  | .gap1 => 0x08 | .gap2 => 0x09 | .gap3 => 0x0A | .gap4a => 0x0B | .gap4b => 0x0C
  | .spt => 0x0D | .sizecode => 0x0E | .idc => 0x0F | .idh => 0x10
  | .corr0 => 0x11 | .corr1 => 0x12 | .corr2 => 0x13 | .corr3 => 0x14
  | .slot => 0x18 | .rkind => 0x19 | .rslot => 0x1A | .rptr => 0x1B
  | .recC => 0x1C | .recH => 0x1D | .recR => 0x1E | .recN => 0x1F
  | .recType => 0x20 | .recFlags => 0x21 | .rsize => 0x22 | .addroff => 0x23 | .dataoff => 0x24
  | .ivs => 0x28 | .ive => 0x29 | .ivcnt => 0x2A | .gapmid => 0x2B | .gapsize => 0x2C
  | .rtab i => 0x40#8 + BitVec.ofNat 8 i.val

/-- The implemented low bits, column `bits` of R21 (FAULT implements bits 15 and 7:0). -/
def Reg.bits : Reg → Nat
  | .status => 3 | .fault => 16 | .finfo => 16 | .mode => 2
  | .trklen => 16 | .crc => 16 | .data => 8 | .target => 16
  | .gap1 => 16 | .gap2 => 16 | .gap3 => 16 | .gap4a => 16 | .gap4b => 16
  | .spt => 16 | .sizecode => 8 | .idc => 8 | .idh => 8
  | .corr0 => 16 | .corr1 => 16 | .corr2 => 16 | .corr3 => 16
  | .slot => 7 | .rkind => 3 | .rslot => 7 | .rptr => 16
  | .recC => 8 | .recH => 8 | .recR => 8 | .recN => 8
  | .recType => 8 | .recFlags => 4 | .rsize => 16 | .addroff => 14 | .dataoff => 14
  | .ivs => 16 | .ive => 16 | .ivcnt => 7 | .gapmid => 14 | .gapsize => 14
  | .rtab _ => 8

/-- Column `access` of R21: true for RW, false for RO; the list of RW registers is R237's. -/
def Reg.writable : Reg → Bool
  | .mode | .trklen | .crc | .target | .gap1 | .gap2 | .gap3 | .gap4a | .gap4b | .spt | .sizecode | .idc | .idh
  | .corr0 | .corr1 | .corr2 | .corr3 | .ivs | .ive | .rtab _ => true
  | .status | .fault | .finfo | .data | .slot | .rkind | .rslot | .rptr | .recC | .recH | .recR | .recN | .recType
  | .recFlags | .rsize | .addroff | .dataoff | .ivcnt | .gapmid | .gapsize => false

/-- The registers 0x00 to 0x14 of R21. -/
def Reg.lowRegs : List Reg :=
  [.status, .fault, .finfo, .mode, .trklen, .crc, .data, .target, .gap1, .gap2, .gap3, .gap4a, .gap4b, .spt, .sizecode, .idc, .idh,
   .corr0, .corr1, .corr2, .corr3]

/-- The registers 0x18 to 0x2C of R21. -/
def Reg.resultRegs : List Reg :=
  [.slot, .rkind, .rslot, .rptr, .recC, .recH, .recR, .recN, .recType, .recFlags, .rsize, .addroff, .dataoff,
   .ivs, .ive, .ivcnt, .gapmid, .gapsize]

/-- Every register of R21, RTAB[0 .. 63] last. -/
def Reg.all : List Reg := Reg.lowRegs ++ Reg.resultRegs ++ (List.finRange 64).map Reg.rtab

/-- The register a number names; none for an unassigned number (R21, R43). -/
def Reg.ofNum (r : BitVec 8) : Option Reg := Reg.all.find? fun g => decide (g.num = r)

/-- The value of a register, zero-extended to 16 bits (R21: unimplemented bits read as 0). -/
def State.readReg (s : State) : Reg → Half
  | .status => s.status.setWidth 16
  | .fault => s.faultReg
  | .finfo => s.finfo
  | .mode => s.mode.setWidth 16
  | .trklen => s.trklen
  | .crc => s.crc
  | .data => s.data.setWidth 16
  | .target => s.target
  | .gap1 => s.enc.gap1
  | .gap2 => s.enc.gap2
  | .gap3 => s.enc.gap3
  | .gap4a => s.enc.gap4a
  | .gap4b => s.enc.gap4b
  | .spt => s.enc.spt
  | .sizecode => s.enc.sizecode.setWidth 16
  | .idc => s.enc.idc.setWidth 16
  | .idh => s.enc.idh.setWidth 16
  | .corr0 => s.enc.corr0
  | .corr1 => s.enc.corr1
  | .corr2 => s.enc.corr2
  | .corr3 => s.enc.corr3
  | .slot => s.slot.setWidth 16
  | .rkind => s.scan.rkind.setWidth 16
  | .rslot => s.scan.rslot.setWidth 16
  | .rptr => s.scan.rptr
  | .recC => s.scan.recC.setWidth 16
  | .recH => s.scan.recH.setWidth 16
  | .recR => s.scan.recR.setWidth 16
  | .recN => s.scan.recN.setWidth 16
  | .recType => s.scan.recType.setWidth 16
  | .recFlags => s.scan.recFlags.setWidth 16
  | .rsize => s.scan.rsize
  | .addroff => s.scan.addroff.setWidth 16
  | .dataoff => s.scan.dataoff.setWidth 16
  | .ivs => s.ivs
  | .ive => s.ive
  | .ivcnt => s.ivcnt.setWidth 16
  | .gapmid => s.gap.mid.setWidth 16
  | .gapsize => s.gap.size.setWidth 16
  | .rtab i => s.enc.rtab[i].setWidth 16

/-- A write to an RW register stores the low implemented bits of `v` and discards the rest (R22). An RO register is never written here:
REG.WR faults on it (R237). -/
def State.writeReg (s : State) (g : Reg) (v : Half) : State :=
  match g with
  | .mode => { s with mode := v.setWidth 2 }
  | .trklen => { s with trklen := v }
  | .crc => { s with crc := v }
  | .target => { s with target := v }
  | .gap1 => { s with enc.gap1 := v }
  | .gap2 => { s with enc.gap2 := v }
  | .gap3 => { s with enc.gap3 := v }
  | .gap4a => { s with enc.gap4a := v }
  | .gap4b => { s with enc.gap4b := v }
  | .spt => { s with enc.spt := v }
  | .sizecode => { s with enc.sizecode := v.setWidth 8 }
  | .idc => { s with enc.idc := v.setWidth 8 }
  | .idh => { s with enc.idh := v.setWidth 8 }
  | .corr0 => { s with enc.corr0 := v }
  | .corr1 => { s with enc.corr1 := v }
  | .corr2 => { s with enc.corr2 := v }
  | .corr3 => { s with enc.corr3 := v }
  | .ivs => { s with ivs := v }
  | .ive => { s with ive := v }
  | .rtab i => { s with enc.rtab := s.enc.rtab.set i.val (v.setWidth 8) i.isLt }
  | .status | .fault | .finfo | .data | .slot | .rkind | .rslot | .rptr | .recC | .recH | .recR | .recN | .recType
  | .recFlags | .rsize | .addroff | .dataoff | .ivcnt | .gapmid | .gapsize => s

end Sys2Proof.Machine
end

