-- ==== Sys2Proof/Machine/Access.lean ====
section
/-! DEFINITION. The buffer access family: TB.RD, TB.WR, TRK.RD, PB.RD, PB.WR (spec/41_track_access.md). -/

namespace Sys2Proof.Machine

/-- `DATA <- b; RESP <- b` (R140, R142, R143). -/
def State.deliver (s : State) (b : Byte) : Result := State.answer { s with data := b } (b.setWidth 32)

/-- The checks of TB.RD and TB.WR, in their order: `ValidLen`, then `addr < TRKLEN` (R140, R141). -/
def State.whenTrackAddr (s : State) (addr : BitVec 14) (k : Unit → Result) : Result :=
  s.whenRunning fun _ => s.whenValidLen fun _ => if s.trklen.toNat ≤ addr.toNat then s.raise .range addr.toNat else k ()

/-- TB.RD addr (R140). -/
def execTbRd (addr : BitVec 14) (s : State) : Result :=
  s.whenTrackAddr addr fun _ => s.deliver (s.tbByte addr.toNat)

/-- TB.WR addr, b (R141). -/
def execTbWr (addr : BitVec 14) (b : Byte) (s : State) : Result :=
  s.whenTrackAddr addr fun _ => State.answer { s with tb := s.tb.write addr.toNat [b] } 0

/-- TRK.RD idx (R142): any index, reduced by `rd`. -/
def execTrkRd (idx : Int) (s : State) : Result :=
  s.whenRunning fun _ => s.whenValidLen fun _ => s.deliver (s.rd idx)

/-- PB.RD addr (R143). -/
def execPbRd (addr : BitVec 14) (s : State) : Result :=
  s.whenRunning fun _ => s.deliver (s.pbByte addr.toNat)

/-- PB.WR addr, b (R144). -/
def execPbWr (addr : BitVec 14) (b : Byte) (s : State) : Result :=
  s.whenRunning fun _ => State.answer { s with pb := s.pb.write addr.toNat [b] } 0

end Sys2Proof.Machine
end

