-- ==== Sys2Proof/Machine/Gap.lean ====
section
/-! DEFINITION. The gap-interval locator family: GAP.CLR, GAP.ADD, GAP.FIND, and the function FindLargestGap the adjuster shares
(spec/44_gapfinder.md). -/

namespace Sys2Proof.Machine

/-- The sub-intervals `[a, b)` of `[0, len)` one in-use interval becomes (R191): ends reduced mod `len`, a wrapping interval split in
two, an interval with equal reduced ends dropped. -/
def Interval.parts (len : Nat) (i : Interval) : List (Nat × Nat) :=
  let s := (i.start % (len : Int)).toNat
  let e := (i.stop % (len : Int)).toNat
  if s < e then [(s, e)]
  else if e < s then (s, len) :: (if 0 < e then [(0, e)] else [])
  else []

/-- The sub-intervals of a list of in-use intervals (R191). -/
def subIntervals (len : Nat) (ivs : List Interval) : List (Nat × Nat) := ivs.flatMap (Interval.parts len)

/-- `cov(x) = 0`: no sub-interval contains `x` (R192). -/
def freeIn (subs : List (Nat × Nat)) (x : Nat) : Bool := subs.all fun p => !(decide (p.1 ≤ x) && decide (x < p.2))

/-- The number of consecutive free indices from `p` on around the circle of `len`, at most `n` (R193). -/
def freeRun (free : Nat → Bool) (len p : Nat) : Nat → Nat
  | 0 => 0
  | n + 1 => if free (p % len) then 1 + freeRun free len (p + 1) n else 0

/-- The gaps `(start, length)` in rising order of start (R193): the whole circle when every index is free, otherwise the run from each
free index whose predecessor on the circle is not free. -/
def gapsOf (free : Nat → Bool) (len : Nat) : List (Nat × Nat) :=
  if (List.range len).all free then [(0, len)]
  else ((List.range len).filter fun p => free p && !free ((p + len - 1) % len)).map fun p => (p, freeRun free len p len)

/-- `M`, the largest length among the gaps (R194). -/
def maxLength (gs : List (Nat × Nat)) : Nat := gs.foldl (fun m g => max m g.2) 0

/-- The chosen gap among those of the largest length: the only one, or the one GAP_TIE picks (R194, R196; a free value, log 5). -/
def chooseGap (largest : List (Nat × Nat)) : Option (Nat × Nat) :=
  match largest with
  | [] => none
  | [g] => some g
  | g :: h :: rest => (g :: h :: rest)[Config.gapTie (g :: h :: rest) % (g :: h :: rest).length]?

/-- The gaps of the largest length (R194). -/
def largestGaps (gs : List (Nat × Nat)) : List (Nat × Nat) := gs.filter fun g => decide (g.2 = maxLength gs)

/-- `FindLargestGap(len, ivs)` (R190): `Some(mid, size)` with `mid = (p + (M div 2)) mod len` (R194), or `None` when no index is free. -/
def findLargestGap (len : Nat) (ivs : List Interval) : Option (Nat × Nat) :=
  (chooseGap (largestGaps (gapsOf (freeIn (subIntervals len ivs)) len))).map fun g => ((g.1 + g.2 / 2) % len, g.2)

/-- What is reported of a search: GAPVALID, GAPMID and GAPSIZE, the registers 0 when there is no gap (R28, R36, R199). -/
def gapRegsOf (found : Option (Nat × Nat)) : GapRegs :=
  match found with
  | none => { valid := false, mid := 0, size := 0 }
  | some (mid, size) => { valid := true, mid := BitVec.ofNat 14 mid, size := BitVec.ofNat 14 size }

/-- `RESP` of GAP.FIND: `0x10000 + GAPMID` if a gap was found, else 0 (R108, R199). -/
def gapResponse (found : Option (Nat × Nat)) : Word :=
  match found with
  | none => 0
  | some (mid, _) => BitVec.ofNat 32 (0x10000 + mid)

/-- GAP.CLR (R197). -/
def execGapClr (s : State) : Result :=
  s.whenRunning fun _ => State.answer { s with iv := [], ivcnt := 0 } 0

/-- GAP.ADD (R198). -/
def execGapAdd (s : State) : Result :=
  s.whenRunning fun _ =>
    if s.ivcnt = BitVec.ofNat 7 Config.ivCap then s.raise .ivFull Config.ivCap
    else State.answer { s with iv := s.iv ++ [⟨sext16 s.ivs, sext16 s.ive⟩], ivcnt := s.ivcnt + 1 } ((s.ivcnt + 1).setWidth 32)

/-- GAP.FIND (R199). -/
def execGapFind (s : State) : Result :=
  s.whenRunning fun _ => s.whenValidLen fun _ =>
    State.answer { s with gap := gapRegsOf (findLargestGap s.dataLen s.iv) } (gapResponse (findLargestGap s.dataLen s.iv))

end Sys2Proof.Machine
end

