-- ==== Sys2Proof/Machine/Crc.lean ====
section
/-! DEFINITION. The CRC-16 family: the functions every frame uses (R130, R131) and the commands CRC.SEED and CRC.UPD (spec/40_crc.md). -/

namespace Sys2Proof.Machine

/-- One iteration of R130: `t <- crc XOR ((b << i) mod 2^16); crc <- (crc << 1) mod 2^16; if t[15] = 1 then crc <- crc XOR 0x1021`. -/
def crcIter (b : Byte) (crc : Half) (i : Nat) : Half :=
  let t := crc ^^^ (b.setWidth 16 <<< i)
  if t.msb then (crc <<< 1) ^^^ Config.crcPoly else crc <<< 1

/-- `crc16_update(crc, b)` (R130): the eight iterations `i = 8, 9, …, 15`. -/
def crc16Update (crc : Half) (b : Byte) : Half := [8, 9, 10, 11, 12, 13, 14, 15].foldl (crcIter b) crc

/-- `crc16_from(c, s)` (R131): the bytes fed first byte first, starting from `c`. -/
def crc16From (c : Half) (bytes : List Byte) : Half := bytes.foldl crc16Update c

/-- `crc16(s)` (R131): the fold from the seed 0xFFFF. -/
def crc16 (bytes : List Byte) : Half := crc16From Config.crcSeed bytes

/-- CRC.SEED (R132): `CRC <- 0xFFFF; RESP <- 0xFFFF`. -/
def execCrcSeed (s : State) : Result :=
  s.whenRunning fun _ => State.answer { s with crc := Config.crcSeed } (Config.crcSeed.setWidth 32)

/-- CRC.UPD b (R133): `CRC <- crc16_update(CRC, b); RESP <- CRC`, the new value. -/
def execCrcUpd (b : Byte) (s : State) : Result :=
  s.whenRunning fun _ => State.answer { s with crc := crc16Update s.crc b } ((crc16Update s.crc b).setWidth 32)

end Sys2Proof.Machine
end

