-- ==== Sys2Proof/Machine/Encoder.lean ====
section
/-! DEFINITION. The frame synthesizer family: ENC.TRACK (spec/42_encoder.md; the layout of R91 to R98). -/

namespace Sys2Proof.Machine

/-! ## Derived quantities (R151) -/

/-- `size = 128 << (SIZECODE AND 7)` (R151). -/
def State.encSize (s : State) : Nat := sectorSize s.enc.sizecode

/-- `S`, the bytes of one sector block: `12 + 10 + GAP2 + 12 + 4 + size + 2 + GAP3` (R91, R151). -/
def State.encBlockLen (s : State) : Nat :=
  12 + 10 + s.enc.gap2.toNat + 12 + 4 + s.encSize + 2 + s.enc.gap3.toNat

/-- `P0 = GAP4A + 16 + GAP1`, where the first sector block starts (R91). -/
def State.encHeadLen (s : State) : Nat := s.enc.gap4a.toNat + 12 + 4 + s.enc.gap1.toNat

/-- `fixed`, the length of everything but gap4b; no sum wraps (R151). -/
def State.encFixed (s : State) : Nat := s.encHeadLen + s.enc.spt.toNat * s.encBlockLen

/-- `gap4b = L - fixed` if `MODE.G4BAUTO = 1`, else the register GAP4B (R152, R160). -/
def State.encGap4b (s : State) : Int :=
  if s.g4bAuto then (s.dataLen : Int) - (s.encFixed : Int) else (s.enc.gap4b.toNat : Int)

/-- Checks 2 to 4 of R152, in their order (check 1 is `whenValidLen`). -/
def State.encChecks (s : State) : Option Raised :=
  if Config.ptabSlots < s.enc.spt.toNat then some ⟨.tableFull, s.enc.spt.toNat⟩
  else if s.encGap4b ≤ 0 then some ⟨.gap4b, 0⟩
  else if (s.encFixed : Int) + s.encGap4b ≠ (s.dataLen : Int) then
    some ⟨.layout, ((s.encFixed : Int) + s.encGap4b).toNat⟩
  else none

/-! ## Emission (R153 to R157) -/

/-- A run of gap bytes (R95). -/
def gapRun (n : Nat) : List Byte := List.replicate n Config.gapFill

/-- The sync before a mark: 12 bytes of 0x00 (R95). -/
def syncRun : List Byte := List.replicate Config.syncBytes Config.syncFill

/-- The index mark C2 C2 C2 FC (R92). -/
def indexMark : List Byte := [Config.markC2, Config.markC2, Config.markC2, Config.typeIndex]

/-- The first four bytes of an ID frame (R93). -/
def idMark : List Byte := [Config.markA1, Config.markA1, Config.markA1, Config.typeId]

/-- The first four bytes of a data frame of the given type (R94). -/
def dataMark (t : Byte) : List Byte := [Config.markA1, Config.markA1, Config.markA1, t]

/-- The ID frame, 10 bytes, its CRC over the first 8, high byte first (R93, R154). -/
def idFrame (c h r n : Byte) : List Byte :=
  idMark ++ [c, h, r, n] ++ be16Bytes (crc16 (idMark ++ [c, h, r, n]))

/-- The data CRC of a payload, XORed with 0xFFFF by the corruption hook (R155). -/
def dataCrc (payload : List Byte) (corrupt : Bool) : Half :=
  let d0 := crc16 (dataMark Config.typeData ++ payload)
  if corrupt then d0 ^^^ 0xFFFF else d0

/-- The data frame the encoder writes: always type 0xFB (R94, R155). -/
def dataFrame (payload : List Byte) (corrupt : Bool) : List Byte :=
  dataMark Config.typeData ++ payload ++ be16Bytes (dataCrc payload corrupt)

/-- `CORR[i]`: bit `i` of the 64-bit mask CORR3 … CORR0 (R31). -/
def State.corrupts (s : State) (i : Nat) : Bool :=
  (s.enc.corr3 ++ s.enc.corr2 ++ s.enc.corr1 ++ s.enc.corr0).getLsbD i

/-- `RTAB[i]` (R32). -/
def State.rtabAt (s : State) (i : Nat) : Byte := s.enc.rtab.getD i 0

/-- `payload(i) = MemRead(PB, i*size, size)` (R155). -/
def State.payload (s : State) (i : Nat) : List Byte := s.pbRead (i * s.encSize) s.encSize

/-- The block of sector index `i`: ID sync and frame (R154), gap2, data sync and frame (R155), gap3 (R156). -/
def State.sectorBlock (s : State) (i : Nat) : List Byte :=
  syncRun ++ idFrame s.enc.idc s.enc.idh (s.rtabAt i) s.enc.sizecode ++
  gapRun s.enc.gap2.toNat ++ syncRun ++ dataFrame (s.payload i) (s.corrupts i) ++ gapRun s.enc.gap3.toNat

/-- What precedes the first sector block: gap4a, index sync, index mark, gap1 (R153). -/
def State.trackHead (s : State) : List Byte :=
  gapRun s.enc.gap4a.toNat ++ syncRun ++ indexMark ++ gapRun s.enc.gap1.toNat

/-- The data region (R153): the head, the sector blocks in order, gap4b. -/
def State.trackData (s : State) : List Byte :=
  s.trackHead ++ (List.range s.enc.spt.toNat).flatMap s.sectorBlock ++ gapRun s.encGap4b.toNat

/-- `B(i) = P0 + i*S`, the data-region index of sector block `i` (R91). -/
def State.blockAt (s : State) (i : Nat) : Nat := s.encHeadLen + i * s.encBlockLen

/-- Pointer entry `k`: `(128 + p) OR 0x8000` with `p = B(k) + 15` the index of the 0xFE byte, 0 from `SPT` on (R154, R157). -/
def State.encPointer (s : State) (k : Nat) : Half :=
  if k < s.enc.spt.toNat then BitVec.ofNat 16 (Config.ptabBytes + (s.blockAt k + 15)) ||| 0x8000 else 0

/-- The pointer table, 64 little-endian entries (R157). -/
def State.pointerTable (s : State) : List Byte :=
  (List.range Config.ptabSlots).flatMap fun k => le16Bytes (s.encPointer k)

/-- The whole track ENC.TRACK writes: `TB[0 .. TRKLEN-1]` (R158). -/
def State.encodedTrack (s : State) : List Byte := s.pointerTable ++ s.trackData

/-- ENC.TRACK (R158): the checks of R152, then every byte of the track; `RESP <- gap4b`. -/
def execEncTrack (s : State) : Result :=
  s.whenRunning fun _ => s.whenValidLen fun _ =>
    match s.encChecks with
    | some f => s.raise f.code f.info
    | none => State.answer { s with tb := s.tb.write 0 s.encodedTrack } (BitVec.ofNat 32 s.encGap4b.toNat)

end Sys2Proof.Machine
end

