-- ==== Sys2Proof/Machine/Scanner.lean ====
section
/-! DEFINITION. The frame parser family: SCAN.START, SCAN.NEXT, and the function ScanEntry the adjuster shares (spec/43_scanner.md). -/

namespace Sys2Proof.Machine

/-- The four field bytes of an ID frame (R93). -/
structure IdFields where
  c : Byte
  h : Byte
  r : Byte
  n : Byte
  deriving DecidableEq, Repr

/-- What ScanEntry returns: exactly one of seven results (R170, R180), with what each carries. `e` is the raw pointer entry, `addrIdx`
the unreduced index of the first 0xA1 of the ID frame, `j` that of the data frame. -/
inductive ScanResult where
  /-- END (R173) -/
  | endOfTable
  /-- SINGLE_DENSITY (R174) -/
  | singleDensity (e : Half)
  /-- BAD_POINTER (R175) -/
  | badPointer (e : Half)
  /-- NOT_ADDR_MARK (R176) -/
  | notAddrMark (e : Half) (addrIdx : Int)
  /-- ADDR_CRC_BAD (R177) -/
  | addrCrcBad (e : Half) (id : IdFields) (addrIdx : Int)
  /-- NO_DATA_MARK (R178) -/
  | noDataMark (e : Half) (id : IdFields) (addrIdx : Int)
  /-- RECORD (R179) -/
  | record (e : Half) (id : IdFields) (addrIdx j : Int) (type : Byte) (dataCrcOk : Bool)
  deriving DecidableEq, Repr

/-- The code of a result in RKIND (R33, R180); 0 is NONE. -/
def ScanResult.kind : ScanResult → BitVec 3
  | .endOfTable => 1
  | .singleDensity _ => 2
  | .badPointer _ => 3
  | .notAddrMark _ _ => 4
  | .addrCrcBad _ _ _ => 5
  | .noDataMark _ _ _ => 6
  | .record _ _ _ _ _ _ => 7

/-- Column "fatal in strict mode" of R180. -/
def ScanResult.fatal : ScanResult → Bool
  | .badPointer _ | .notAddrMark _ _ | .addrCrcBad _ _ _ | .noDataMark _ _ _ => true
  | .endOfTable | .singleDensity _ | .record _ _ _ _ _ _ => false

/-- `TypeOK(t)`: in strict mode only 0xFB and 0xF8, in diagnostic mode every byte (R178, R182). -/
def typeOk (strict : Bool) (t : Byte) : Bool :=
  !strict || t == Config.typeData || t == Config.typeDeleted

/-- A data mark starts at index `q`: three 0xA1 and an acceptable type byte (R178). -/
def State.dataMarkAt (s : State) (strict : Bool) (q : Int) : Bool :=
  s.rd q == Config.markA1 && s.rd (q + 1) == Config.markA1 && s.rd (q + 2) == Config.markA1 && typeOk strict (s.rd (q + 3))

/-- The first of the positions `q, q + 1, …, q + n - 1` at which a data mark starts (R178). -/
def State.findDataMark (s : State) (strict : Bool) (q : Int) : Nat → Option Int
  | 0 => none
  | n + 1 => if s.dataMarkAt strict q then some q else s.findDataMark strict (q + 1) n

/-- Step 6 (R179): the data CRC over the `4 + size` bytes of mark and payload against the two bytes after them. -/
def State.scanRecord (s : State) (e : Half) (id : IdFields) (addrIdx j : Int) : ScanResult :=
  let size := sectorSize id.n
  .record e id addrIdx j (s.rd (j + 3)) (crc16 (s.rdSeq j (4 + size)) == s.rdBe16 (j + 4 + size))

/-- Step 5 (R178): the search over 43 positions from the byte after the ID frame. -/
def State.scanDataMark (s : State) (strict : Bool) (e : Half) (id : IdFields) (addrIdx : Int) : ScanResult :=
  match s.findDataMark strict (addrIdx + Config.idFrameBytes) Config.dmSearch with
  | none => .noDataMark e id addrIdx
  | some j => s.scanRecord e id addrIdx j

/-- The fields of the ID frame at `addrIdx` (R177). -/
def State.idFieldsAt (s : State) (addrIdx : Int) : IdFields :=
  { c := s.rd (addrIdx + 4), h := s.rd (addrIdx + 5), r := s.rd (addrIdx + 6), n := s.rd (addrIdx + 7) }

/-- Steps 3 and 4 (R176, R177): the mark A1 A1 A1 FE, then the address CRC over the first 8 bytes of the frame. -/
def State.scanAddress (s : State) (strict : Bool) (e : Half) (addrIdx : Int) : ScanResult :=
  if s.rdSeq addrIdx 4 ≠ idMark then .notAddrMark e addrIdx
  else if crc16 (s.rdSeq addrIdx 8) ≠ s.rdBe16 (addrIdx + 8) then .addrCrcBad e (s.idFieldsAt addrIdx) addrIdx
  else s.scanDataMark strict e (s.idFieldsAt addrIdx) addrIdx

/-- `addrIdx = dmkIdx - 128 - 3` (R97, R176). -/
def addrIdxOf (e : Half) : Int := (dmkIdxOf e : Int) - 128 - 3

/-- `ScanEntry(k, strict)` (R170): the steps of R173 to R179 in order, the first that returns decides. -/
def State.scanEntry (s : State) (k : Nat) (strict : Bool) : ScanResult :=
  let e := s.pt k
  if e = 0 then .endOfTable
  else if densityOf e ≠ 0b10#2 then .singleDensity e
  else if dmkIdxOf e < Config.ptabBytes ∨ s.trklen.toNat ≤ dmkIdxOf e then .badPointer e
  else s.scanAddress strict e (addrIdxOf e)

/-- The extent of a RECORD: `[addrIdx, j + 4 + size + 2)`, both ends unreduced (R183). Only a RECORD has one. -/
def ScanResult.extent? : ScanResult → Option Interval
  | .record _ id addrIdx j _ _ => some ⟨addrIdx, j + 4 + sectorSize id.n + 2⟩
  | .endOfTable | .singleDensity _ | .badPointer _ | .notAddrMark _ _ | .addrCrcBad _ _ _ | .noDataMark _ _ _ => none

/-! ## Result registers (R181) -/

/-- What is written to the twelve result registers for a result found at slot `slot` (R181); what has no meaning for the kind is 0. -/
def State.resultRegs (s : State) (slot : BitVec 7) (res : ScanResult) : ScanRegs :=
  let off (i : Int) : BitVec 14 := BitVec.ofNat 14 (s.wrap i)
  let size (id : IdFields) : Half := BitVec.ofNat 16 (sectorSize id.n)
  let base : ScanRegs := { ScanRegs.zero with rkind := res.kind, rslot := slot }
  match res with
  | .endOfTable => base
  | .singleDensity e => { base with rptr := e }
  | .badPointer e => { base with rptr := e }
  | .notAddrMark e a => { base with rptr := e, addroff := off a }
  | .addrCrcBad e id a =>
    { base with rptr := e, recC := id.c, recH := id.h, recR := id.r, recN := id.n, rsize := size id, addroff := off a,
                recFlags := recFlags false false 0 }
  | .noDataMark e id a =>
    { base with rptr := e, recC := id.c, recH := id.h, recR := id.r, recN := id.n, rsize := size id, addroff := off a,
                recFlags := recFlags true false 0 }
  | .record e id a j t ok =>
    { base with rptr := e, recC := id.c, recH := id.h, recR := id.r, recN := id.n, rsize := size id, addroff := off a,
                recType := t, dataoff := off j, recFlags := recFlags true ok (typeClass t) }

/-- `(slot << 8) OR code`: what E_MALFORMED records (R182, R251). -/
def malformedInfo (slot : Nat) (res : ScanResult) : Nat := slot * 256 + res.kind.toNat

/-! ## Commands -/

/-- SCAN.START (R171). -/
def execScanStart (s : State) : Result :=
  s.whenRunning fun _ => State.answer { s with slot := 0, scandone := false, scan := ScanRegs.zero } 0

/-- What SCAN.NEXT finds: END once the scan is over or SLOT is 64, otherwise entry SLOT (R172). -/
def State.scanHere (s : State) : ScanResult :=
  if s.scandone ∨ s.slot = 64 then .endOfTable else s.scanEntry s.slot.toNat s.strict

/-- SCAN.NEXT writes its result: the twelve registers with `RSLOT <- SLOT`; END sets SCANDONE and leaves SLOT, anything else advances SLOT;
`RESP <- RKIND` (R172, R181). -/
def State.scanned (s : State) (res : ScanResult) : State :=
  let s' := { s with scan := s.resultRegs s.slot res }
  if res.kind = ScanResult.endOfTable.kind then { s' with scandone := true } else { s' with slot := s.slot + 1 }

/-- SCAN.NEXT (R172). -/
def execScanNext (s : State) : Result :=
  s.whenRunning fun _ => s.whenValidLen fun _ =>
    if s.strict ∧ s.scanHere.fatal then s.raise .malformed (malformedInfo s.slot.toNat s.scanHere)
    else (s.scanned s.scanHere).answer (s.scanHere.kind.setWidth 32)

end Sys2Proof.Machine
end

