-- ==== Sys2Proof/Machine/Adjuster.lean ====
section
/-! DEFINITION. The track-length adjuster family: ADJ.STEP, ADJ.RUN over one pass `Step` (spec/45_adjuster.md). -/

namespace Sys2Proof.Machine

/-! ## Building the in-use list (R206) -/

/-- `ScanTrack(strict)` from slot `k` on, `n` slots to go (R184): the results before END, with their slots; a fatal diagnostic in strict
mode raises `Fault(E_MALFORMED, (k << 8) OR code)`. -/
def State.scanTrackFrom (s : State) (strict : Bool) (k : Nat) : Nat → Except Raised (List (Nat × ScanResult))
  | 0 => .ok []
  | n + 1 =>
    let res := s.scanEntry k strict
    if res.kind = ScanResult.endOfTable.kind then .ok []
    else if strict && res.fatal then .error ⟨.malformed, malformedInfo k res⟩
    else
      match s.scanTrackFrom strict (k + 1) n with
      | .error f => .error f
      | .ok rest => .ok ((k, res) :: rest)

/-- `ScanTrack(strict)` (R184): all 64 slots. -/
def State.scanTrack (s : State) (strict : Bool) : Except Raised (List (Nat × ScanResult)) :=
  s.scanTrackFrom strict 0 Config.ptabSlots

/-- The extents of the RECORDs, in pointer-table order; the first one whose length is `L` or more raises `Fault(E_NOGAP, k)` (R206). -/
def extentsOf (len : Nat) (recs : List (Nat × ScanResult)) : Except Raised (List Interval) :=
  match recs with
  | [] => .ok []
  | (k, res) :: rest =>
    match res.extent? with
    | none => extentsOf len rest
    | some x =>
      if (len : Int) ≤ x.stop - x.start then .error ⟨.noGap, k⟩
      else
        match extentsOf len rest with
        | .error f => .error f
        | .ok xs => .ok (x :: xs)

/-- What a pass works with: the in-use list, and the midpoint and length of the largest gap. -/
structure AdjPlan where
  ivs     : List Interval
  gapMid  : Nat
  gapSize : Nat
  deriving DecidableEq, Repr

/-- The first half of `Step`, which writes nothing (R206, R207): the strict scan whatever MODE.STRICT holds, the extents, the largest gap;
no gap raises `Fault(E_NOGAP, 0x00FF)`. -/
def State.adjPlan (s : State) : Except Raised AdjPlan :=
  match s.scanTrack true with
  | .error f => .error f
  | .ok recs =>
    match extentsOf s.dataLen recs with
    | .error f => .error f
    | .ok ivs =>
      match findLargestGap s.dataLen ivs with
      | none => .error ⟨.noGap, 0x00FF⟩
      | some (mid, size) => .ok ⟨ivs, mid, size⟩

/-! ## Moving the bytes and the pointers (R208 to R210) -/

/-- The buffer after one byte is inserted or removed at `mid`, `old` the buffer before (R208, R209). Growing: the bytes from `mid` to
`TRKLEN - 1` go one place up, `TB[mid]` stays. Shrinking: those from `mid + 1` go one place down, `TB[TRKLEN - 1]` stays. -/
def State.movedBytes (s : State) (grow : Bool) (mid : Nat) : Memory :=
  if grow then s.tb.write (mid + 1) (s.tbRead mid (s.trklen.toNat - mid))
  else s.tb.write mid (s.tbRead (mid + 1) (s.trklen.toNat - 1 - mid))

/-- A pointer entry after the move (R210): one whose 14-bit offset is above `mid` moves with its byte, its top two bits kept. -/
def movedPointer (grow : Bool) (mid : Nat) (t : Half) : Half :=
  if t ≠ 0 ∧ mid < dmkIdxOf t then
    (t &&& 0xC000) ||| (((t &&& 0x3FFF) + (if grow then 1 else -1)) &&& 0x3FFF)
  else t

/-- Rewrite pointer entry `k` (R210): only an entry that moves is written. -/
def State.rewritePointer (s : State) (grow : Bool) (mid k : Nat) : State :=
  if movedPointer grow mid (s.pt k) = s.pt k then s
  else { s with tb := s.tb.write (2 * k) (le16Bytes (movedPointer grow mid (s.pt k))) }

/-- Rewrite all 64 slots, also those after the first zero entry and those that are not double density (R210). -/
def State.rewritePointers (s : State) (grow : Bool) (mid : Nat) : State :=
  (List.range Config.ptabSlots).foldl (fun t k => t.rewritePointer grow mid k) s

/-- The second half of `Step`: IV, IVCNT and the gap registers as found, the bytes moved, the pointers rewritten,
`TRKLEN <- TRKLEN + delta` (R207 to R211). -/
def State.adjApply (s : State) (p : AdjPlan) : State :=
  let grow := decide (s.dataLen < s.target.toNat)
  let mid := p.gapMid + Config.ptabBytes
  let found : State :=
    { s with iv := p.ivs, ivcnt := BitVec.ofNat 7 p.ivs.length, gap := gapRegsOf (some (p.gapMid, p.gapSize)) }
  let moved : State := { found with tb := found.movedBytes grow mid }
  let rewritten := moved.rewritePointers grow mid
  { rewritten with trklen := if grow then s.trklen + 1 else s.trklen - 1 }

/-- One pass of the loop, `Step` (R205): every check before the first write; run only when `L != TARGET`. -/
def State.adjPass (s : State) : Except Raised State :=
  match s.adjPlan with
  | .error f => .error f
  | .ok p => .ok (s.adjApply p)

/-- `n` successive passes (R212): the state the completed passes made, and the fault of the pass that failed, if one did. -/
def State.adjPasses (s : State) : Nat → State × Option Raised
  | 0 => (s, none)
  | n + 1 =>
    match s.adjPass with
    | .error f => (s, some f)
    | .ok s' => s'.adjPasses n

/-- `|TARGET - L|`: the number of passes that bring `L` to `TARGET` (R212, R213). -/
def State.adjDistance (s : State) : Nat := ((s.target.toNat : Int) - (s.dataLen : Int)).natAbs

/-! ## Commands -/

/-- The checks ADJ.STEP and ADJ.RUN make first: `ValidLen`, then `1 <= TARGET <= 16255` (R211, R212, R215). -/
def State.whenTarget (s : State) (k : Unit → Result) : Result :=
  s.whenRunning fun _ => s.whenValidLen fun _ =>
    if s.target.toNat < 1 ∨ 16255 < s.target.toNat then s.raise .range s.target.toNat else k ()

/-- ADJ.STEP (R211): one pass, or nothing when `L = TARGET`. -/
def execAdjStep (s : State) : Result :=
  s.whenTarget fun _ =>
    if s.dataLen = s.target.toNat then s.answer 0
    else
      match s.adjPass with
      | .error f => s.raise f.code f.info
      | .ok s' => s'.answer 1

/-- ADJ.RUN (R212): passes until `L = TARGET`; a fault keeps the completed passes. -/
def execAdjRun (s : State) : Result :=
  s.whenTarget fun _ =>
    match s.adjPasses s.adjDistance with
    | (s', none) => s'.answer (BitVec.ofNat 32 s.adjDistance)
    | (s', some f) => s'.raise f.code f.info

end Sys2Proof.Machine
end

