-- ==== Sys2Proof/Machine/System.lean ====
section
/-! DEFINITION. The system family: NOP, REG.RD, REG.WR (spec/47_system.md). -/

namespace Sys2Proof.Machine

/-- NOP (R235): `RESP <- 0`; it executes while the block is halted, and then answers `0x80000000 OR FAULT.CODE`. -/
def execNop (s : State) : Result :=
  if s.faultV then s.answer (faultResponse s.faultCode) else s.answer 0

/-- REG.RD r (R236): the register's value, zero-extended, also while halted. An unassigned number raises `Fault(E_ILLEGAL, w[31:16])`,
or is refused while halted; `w[31:16]` is the opcode 0x01 and `r`. -/
def execRegRd (r : BitVec 8) (s : State) : Result :=
  match Reg.ofNum r with
  | some g => s.answer ((s.readReg g).setWidth 32)
  | none => s.illegalWord (wordHigh (encode (.regRd r)))

/-- REG.WR r, v (R237): an unassigned number or an RO register raises `Fault(E_ILLEGAL, w[31:16])`; otherwise the low implemented bits
of `v` are stored. -/
def execRegWr (r : BitVec 8) (v : Half) (s : State) : Result :=
  s.whenRunning fun _ =>
    match Reg.ofNum r with
    | some g => if g.writable then (s.writeReg g v).answer 0 else s.illegalWord (wordHigh (encode (.regWr r v)))
    | none => s.illegalWord (wordHigh (encode (.regWr r v)))

end Sys2Proof.Machine
end

