-- ==== Sys2Proof/Machine/Dispatch.lean ====
section
/-! DEFINITION. The meaning of each command, one arm per constructor of Instr. -/

namespace Sys2Proof.Machine

def exec (i : Instr) (s : State) : Host.Outcome State Fault Refusal :=
  match i with
  | .nop => Sys2Proof.Machine.execNop s
  | .regRd r => Sys2Proof.Machine.execRegRd r s
  | .regWr r v => Sys2Proof.Machine.execRegWr r v s
  | .crcSeed => Sys2Proof.Machine.execCrcSeed s
  | .crcUpd b => Sys2Proof.Machine.execCrcUpd b s
  | .tbRd addr => Sys2Proof.Machine.execTbRd addr s
  | .tbWr addr b => Sys2Proof.Machine.execTbWr addr b s
  | .trkRd idx => Sys2Proof.Machine.execTrkRd idx s
  | .pbRd addr => Sys2Proof.Machine.execPbRd addr s
  | .pbWr addr b => Sys2Proof.Machine.execPbWr addr b s
  | .encTrack => Sys2Proof.Machine.execEncTrack s
  | .scanStart => Sys2Proof.Machine.execScanStart s
  | .scanNext => Sys2Proof.Machine.execScanNext s
  | .gapClr => Sys2Proof.Machine.execGapClr s
  | .gapAdd => Sys2Proof.Machine.execGapAdd s
  | .gapFind => Sys2Proof.Machine.execGapFind s
  | .adjStep => Sys2Proof.Machine.execAdjStep s
  | .adjRun => Sys2Proof.Machine.execAdjRun s

end Sys2Proof.Machine
end

