-- ==== Sys2Proof/Machine/Step.lean ====
section
/-! DEFINITION. One step of the machine: the block takes the next thing the host does, and does it (R8, R100, R280). -/

namespace Sys2Proof.Machine

/-- One command, from its word (R100): decoded and executed, or illegal (R107). -/
def runWord (w : Word) (s : State) : Result :=
  match decode w with
  | .ok i => exec i s
  | .error _ => s.illegalWord (wordHigh w)

/-- One step. With nothing from the host the block does nothing: it "never initiates a transfer" (R8, log 1). -/
def step (s : State) : Host.Outcome State Fault Refusal :=
  match s.takeInput with
  | none => .next s
  | some (.reset, s') => .next s'.resetEvent
  | some (.command w, s') => runWord w s'

/-- The host issues the command word whose bits are `w` (numbered as spec/opcode_table.json numbers them) next: it stands first in the
input. The block fetches nothing from memory, so nothing else changes (R27, log 6). -/
def State.withFetchWord (s : State) (nbits w : Nat) : State :=
  { s with input := .command (BitVec.ofNat 32 (w % 2 ^ nbits)) :: s.input }

end Sys2Proof.Machine
end

