-- ==== Sys2Proof/Safety.lean ====
section
/-! DEFINITION. What claims call a safe state and a safe run: the invariant of the block's state, the running block, and a step that goes on. -/

namespace Sys2Proof.Machine

/-- The block is not halted: FAULT.V = 0 (R257). -/
abbrev State.running (s : State) : Prop := s.faultV = false

/-- The machine goes on: the outcome is a next state, not a stop. -/
abbrev goesOn (o : Result) : Prop := ∃ t, o = .next t

/-- FAULT.CODE is one a rule can write: never 0, never E_NOCONV, never 11 to 255 (R251, 93 U9). -/
abbrev raisableCode (c : BitVec 8) : Prop := 1 ≤ c.toNat ∧ c.toNat ≤ 10 ∧ c.toNat ≠ 9

/-- What holds of the block's state at reset and after every step. -/
structure State.Inv (s : State) : Prop where
  /-- TB is in canonical form, every address below 16384 (R38, R60) -/
  tbWf : s.tb.wf
  /-- PB is in canonical form, every address below 16384 (R39, R60) -/
  pbWf : s.pb.wf
  /-- "SLOT never exceeds 64" (R27) -/
  slotBound : s.slot.toNat ≤ 64
  /-- RSLOT is the value SLOT had when the command began (R181) -/
  rslotBound : s.scan.rslot.toNat ≤ 64
  /-- "IVCNT is the number of intervals in IV" (R35) -/
  ivcntCounts : s.ivcnt.toNat = s.iv.length
  /-- IV holds at most 64 pairs (R40) -/
  ivBound : s.iv.length ≤ 64
  /-- of signed integers in [-32768, 32767] (R40) -/
  ivRange : ∀ i ∈ s.iv, -32768 ≤ i.start ∧ i.start ≤ 32767 ∧ -32768 ≤ i.stop ∧ i.stop ≤ 32767
  /-- FAULT and FINFO are 0 until the first fault (R29) -/
  noFault : s.faultV = false → s.faultCode = 0 ∧ s.finfo = 0
  /-- a recorded code is one some rule raises (R251, 93 U9) -/
  faultCode : s.faultV = true → raisableCode s.faultCode
  /-- GAPMID and GAPSIZE are 0 when GAPVALID = 0 (R36) -/
  gapNone : s.gap.valid = false → s.gap.mid = 0 ∧ s.gap.size = 0
  /-- a reported gap is not empty (R36: 1 <= GAPSIZE) -/
  gapSome : s.gap.valid = true → 1 ≤ s.gap.size.toNat
  /-- SCANDONE is set exactly while the last result is END (R28, R171, R172) -/
  scanEnd : s.scandone = true ↔ s.scan.rkind = 1
  /-- in a RECORD, ADDRCRCOK is always 1 (R181) -/
  recordAddrOk : s.scan.rkind = 7 → s.scan.recFlags.getLsbD 0 = true
  /-- TYPECLS is 0, 1 or 2 (R34) -/
  typeClassBound : (s.scan.recFlags.extractLsb' 2 2).toNat ≤ 2

/-- Every step of a run of `n` steps from `s` goes on. -/
def SafeRun : Nat → State → Prop
  | 0, _ => True
  | n + 1, s => ∃ t, step s = .next t ∧ SafeRun n t

end Sys2Proof.Machine
end

