-- ==== Sys2Proof/Certificates/Slice0/Obligations.lean ====
section
/-! DEFINITION. The statements about the model, each a formalisation of a rule of spec/ or a property that follows from several. Their tiers,
quotes and cites stand in OBLIGATIONS.json. -/

open Sys2Proof Sys2Proof.Machine

/-! ## Encoding -/

/-- Words written out from the encodings of R106 and R109 (with the examples of spec/95_test_vectors.md) decode to the commands they stand for. -/
def Obligations.SpecWordsDecode : Prop :=
  decode 0x00000000 = .ok .nop ∧ decode 0x01050000 = .ok (.regRd 0x05) ∧ decode 0x020418EA = .ok (.regWr 0x04 6378) ∧
  decode 0x10000000 = .ok .crcSeed ∧ decode 0x11000041 = .ok (.crcUpd 0x41) ∧ decode 0x20014700 = .ok (.tbRd 327) ∧
  decode 0x21000180 = .ok (.tbWr 1 0x80) ∧ decode 0x22FFFFFD = .ok (.trkRd (-3)) ∧ decode 0x22800000 = .ok (.trkRd (-8388608)) ∧
  decode 0x23000500 = .ok (.pbRd 5) ∧ decode 0x243FFFAA = .ok (.pbWr 16383 0xAA) ∧ decode 0x41000000 = .ok .scanNext ∧
  decode 0x61000000 = .ok .adjRun ∧ decode 0x99000000 = .error .unassignedOpcode ∧ decode 0x11000141 = .error .operandNotZero

/-- Every well-formed command, with every operand at every value its encoding admits, is what its word decodes to (R101 to R106, R109). -/
def Obligations.DecodeOfEncodeIsTheCommand : Prop :=
  ∀ i : Instr, i.wellFormed = true → decode (encode i) = .ok i

/-- The other direction: a word that decodes is the encoding of what it decodes to, which is well formed; so no two words decode to one
command and no bit of a legal word is ignored (R100 to R107). -/
def Obligations.EncodeOfDecodeIsTheWord : Prop :=
  ∀ (w : Word) (i : Instr), decode w = .ok i → encode i = w ∧ i.wellFormed = true

/-- The opcode map (R106): a word that matches the row of some command decodes to a command of that same row, and a word that matches no
row decodes to none. -/
def Obligations.DecodeFollowsOpcodeMap : Prop :=
  ∀ w : Word,
    (∀ i : Instr, w &&& rowMask i = rowMatch i → ∃ j, decode w = .ok j ∧ rowMask j = rowMask i ∧ rowMatch j = rowMatch i) ∧
    ((∀ i : Instr, w &&& rowMask i ≠ rowMatch i) → ∃ r, decode w = .error r)

/-! ## The step, the host, reset -/

/-- When the host's next word decodes to a command, the step takes the word from the input and is `exec` of that command (R8, R100). -/
def Obligations.StepRunsDecodedCommand : Prop :=
  ∀ (s : State) (w : Word) (rest : List HostEvent) (i : Instr),
    s.input = .command w :: rest → decode w = .ok i → step s = exec i { s with input := rest }

/-- A word that matches no row, given to a block that is not halted, raises E_ILLEGAL with `w[31:16]`; nothing but FAULT, FINFO and RESP
changes (R107). -/
def Obligations.IllegalWordRaisesIllegal : Prop :=
  ∀ (s : State) (w : Word) (rest : List HostEvent),
    s.running → s.input = .command w :: rest → (∀ i : Instr, w &&& rowMask i ≠ rowMatch i) →
    step s = .next { s with input := rest, faultV := true, faultCode := 1, finfo := w.extractLsb' 16 16, resp := some 0x80000001 }

/-- Reset (R280, R281, R42) works from every state, halted or not, and leaves every register of R21 at the value R42 gives: CRC 0xFFFF,
every other register (STATUS with its flags among them) and RTAB entry 0, and IV empty. -/
def Obligations.ResetLeavesResetValues : Prop :=
  ∀ (s : State) (rest : List HostEvent), s.input = .reset :: rest →
    ∃ t, step s = .next t ∧ t.input = rest ∧ t.iv = [] ∧ t.readReg .crc = 0xFFFF ∧
      ∀ g : Reg, g ≠ .crc → t.readReg g = 0

/-- The model's own choice for the host interface (log 1): with nothing issued the block does nothing, as it "never initiates a
transfer" (R8). -/
def Obligations.BlockWithoutInputIdles : Prop :=
  ∀ s : State, s.input = [] → step s = .next s

/-- Every command, on every state, ends in a next state (R294 "Every command completes"), and so does every step. -/
def Obligations.EveryCommandCompletes : Prop :=
  (∀ (i : Instr) (s : State), goesOn (exec i s)) ∧ ∀ s : State, goesOn (step s)

/-! ## Faults and halt -/

/-- Faults are precise (R256): a command other than ADJ.RUN that ends with FAULT set has changed nothing but FAULT (V and CODE), FINFO and
RESP, and RESP is `0x80000000 OR code`. -/
def Obligations.FaultsArePrecise : Prop :=
  ∀ (i : Instr) (s t : State), s.running → i ≠ .adjRun → exec i s = .next t → t.faultV = true →
    t = { s with faultV := true, faultCode := t.faultCode, finfo := t.finfo, resp := some (0x80000000 ||| t.faultCode.setWidth 32) }

/-- Which fault codes a command can raise (R254; the numbers are R251's). -/
def Obligations.CommandsRaiseOnlyTheirFaults : Prop :=
  ∀ (i : Instr) (s t : State), s.running → exec i s = .next t → t.faultV = true →
    match i with
    | .regRd _ | .regWr _ _ => t.faultCode = 1
    | .tbRd _ | .tbWr _ _ => t.faultCode = 2 ∨ t.faultCode = 3
    | .trkRd _ | .gapFind => t.faultCode = 2
    | .encTrack => t.faultCode = 2 ∨ t.faultCode = 4 ∨ t.faultCode = 5 ∨ t.faultCode = 6
    | .scanNext => t.faultCode = 2 ∨ (t.faultCode = 7 ∧ s.mode.getLsbD 0 = true)
    | .gapAdd => t.faultCode = 10
    | .adjStep | .adjRun => t.faultCode = 2 ∨ t.faultCode = 3 ∨ t.faultCode = 7 ∨ t.faultCode = 8
    | .nop | .crcSeed | .crcUpd _ | .pbRd _ | .pbWr _ _ | .scanStart | .gapClr => False

/-- Halt (R257): while FAULT.V = 1, `STATUS[0]` is 1 and a command word changes nothing but RESP. The word of REG.RD of an assigned register
answers the register's value; every other word, legal or illegal, NOP among them, answers `0x80000000 OR FAULT.CODE`. -/
def Obligations.HaltedBlockRefuses : Prop :=
  ∀ (s : State) (w : Word) (rest : List HostEvent), s.faultV = true → s.input = .command w :: rest →
    (s.readReg .status).getLsbD 0 = true ∧
    (∀ g : Reg, w = BitVec.ofNat 32 (0x01000000 + g.num.toNat * 0x10000) →
      step s = .next { s with input := rest, resp := some ((s.readReg g).setWidth 32) }) ∧
    ((∀ g : Reg, w ≠ BitVec.ofNat 32 (0x01000000 + g.num.toNat * 0x10000)) →
      step s = .next { s with input := rest, resp := some (0x80000000 ||| s.faultCode.setWidth 32) })

/-- Only reset leaves the halt (R258): whatever else the host does, a step of a halted block keeps FAULT and FINFO, and every register,
buffer and list with them; reset clears FAULT and FINFO and discards the track (nothing in TB is listed as written). -/
def Obligations.OnlyResetLeavesHalt : Prop :=
  (∀ s t : State, s.faultV = true → s.input.head? ≠ some .reset → step s = .next t →
    t = { s with input := s.input.tail, resp := t.resp }) ∧
  ∀ (s : State) (rest : List HostEvent), s.faultV = true → s.input = .reset :: rest →
    ∃ t, step s = .next t ∧ t.faultV = false ∧ t.faultCode = 0 ∧ t.finfo = 0 ∧ t.tb = []

/-- Every command that touches the track checks ValidLen first (R145): with TRKLEN outside 129 to 16383 it raises
`Fault(E_BADLEN, TRKLEN)`, whatever else would be wrong. -/
def Obligations.TrackCommandsCheckTrackLength : Prop :=
  ∀ (i : Instr) (s : State), s.running → (s.trklen.toNat ≤ 128 ∨ 0x4000 ≤ s.trklen.toNat) →
    (match i with
      | .tbRd _ | .tbWr _ _ | .trkRd _ | .encTrack | .scanNext | .gapFind | .adjStep | .adjRun => True
      | _ => False) →
    exec i s = .next { s with faultV := true, faultCode := 2, finfo := s.trklen, resp := some 0x80000002 }

/-! ## Who writes what -/

/-- The column "written by" of R21, for the registers and flags a command other than REG.WR may write, and the writers of the memories:
TB only TB.WR, ENC.TRACK, ADJ.STEP, ADJ.RUN (R252); PB only PB.WR (R39). FAULT and FINFO are written by a fault alone and then kept (R29): a command that does not set
FAULT.V leaves CODE and FINFO as they were, and none clears it. -/
def Obligations.OnlyNamedCommandsWrite : Prop :=
  ∀ (i : Instr) (s t : State), exec i s = .next t →
    ((match i with | .crcSeed | .crcUpd _ | .regWr _ _ => False | _ => True) → t.crc = s.crc) ∧
    ((match i with | .tbRd _ | .trkRd _ | .pbRd _ => False | _ => True) → t.data = s.data) ∧
    ((match i with | .regWr _ _ | .adjStep | .adjRun => False | _ => True) → t.trklen = s.trklen) ∧
    ((match i with | .regWr _ _ => False | _ => True) →
      t.mode = s.mode ∧ t.target = s.target ∧ t.enc = s.enc ∧ t.ivs = s.ivs ∧ t.ive = s.ive) ∧
    ((match i with | .scanStart | .scanNext => False | _ => True) →
      t.slot = s.slot ∧ t.scandone = s.scandone ∧ t.scan = s.scan) ∧
    ((match i with | .gapClr | .gapAdd | .adjStep | .adjRun => False | _ => True) → t.iv = s.iv ∧ t.ivcnt = s.ivcnt) ∧
    ((match i with | .gapFind | .adjStep | .adjRun => False | _ => True) → t.gap = s.gap) ∧
    ((match i with | .tbWr _ _ | .encTrack | .adjStep | .adjRun => False | _ => True) → t.tb = s.tb) ∧
    ((match i with | .pbWr _ _ => False | _ => True) → t.pb = s.pb) ∧
    (t.faultV = s.faultV → t.faultCode = s.faultCode ∧ t.finfo = s.finfo) ∧
    (s.faultV = true → t.faultV = true)

/-! ## System -/

/-- NOP (R235), word 0x00000000: no state changes; it answers 0, and `0x80000000 OR FAULT.CODE` while halted. -/
def Obligations.NopAnswersHaltState : Prop :=
  decode 0x00000000 = .ok .nop ∧
  ∀ s : State,
    (s.running → exec .nop s = .next { s with resp := some 0 }) ∧
    (s.faultV = true → exec .nop s = .next { s with resp := some (0x80000000 ||| s.faultCode.setWidth 32) })

/-- The numbers R21 leaves unassigned: 0x15 to 0x17, 0x25 to 0x27, 0x2D to 0x3F, 0x80 to 0xFF. -/
abbrev Sys2Proof.unassignedNumber (r : BitVec 8) : Prop :=
  (0x15 ≤ r.toNat ∧ r.toNat ≤ 0x17) ∨ (0x25 ≤ r.toNat ∧ r.toNat ≤ 0x27) ∨ (0x2D ≤ r.toNat ∧ r.toNat ≤ 0x3F) ∨ 0x80 ≤ r.toNat

/-- REG.RD (R236), word `0x01000000 + (r << 16)`: an assigned register's value, zero-extended, and nothing else changes, halted or not
(R68); an unassigned number raises `Fault(E_ILLEGAL, w[31:16])`, that is 0x0100 + r, and while halted is refused. -/
def Obligations.RegRdAnswersRegister : Prop :=
  ∀ s : State,
    (∀ r : BitVec 8, decode (BitVec.ofNat 32 (0x01000000 + r.toNat * 0x10000)) = .ok (.regRd r)) ∧
    (∀ g : Reg, exec (.regRd g.num) s = .next { s with resp := some ((s.readReg g).setWidth 32) }) ∧
    (∀ r : BitVec 8, unassignedNumber r → s.running →
      exec (.regRd r) s =
        .next { s with faultV := true, faultCode := 1, finfo := BitVec.ofNat 16 (0x0100 + r.toNat), resp := some 0x80000001 }) ∧
    (∀ r : BitVec 8, unassignedNumber r → s.faultV = true →
      exec (.regRd r) s = .next { s with resp := some (0x80000000 ||| s.faultCode.setWidth 32) })

/-- The register numbers of R21 name the registers: REG.RD of each number answers that piece of state; STATUS is computed from FAULT.V,
SCANDONE and GAPVALID (R28), and the unimplemented bits of FAULT read 0. -/
def Obligations.RegisterNumbersNameState : Prop :=
  ∀ s : State,
    let rd (r : BitVec 8) (v : Nat) : Prop := exec (.regRd r) s = .next { s with resp := some (BitVec.ofNat 32 v) }
    rd 0x00 ((if s.faultV then 1 else 0) + (if s.scandone then 2 else 0) + (if s.gap.valid then 4 else 0)) ∧
    rd 0x01 ((if s.faultV then 0x8000 else 0) + s.faultCode.toNat) ∧ rd 0x02 s.finfo.toNat ∧ rd 0x03 s.mode.toNat ∧
    rd 0x04 s.trklen.toNat ∧ rd 0x05 s.crc.toNat ∧ rd 0x06 s.data.toNat ∧ rd 0x07 s.target.toNat ∧
    rd 0x08 s.enc.gap1.toNat ∧ rd 0x09 s.enc.gap2.toNat ∧ rd 0x0A s.enc.gap3.toNat ∧ rd 0x0B s.enc.gap4a.toNat ∧
    rd 0x0C s.enc.gap4b.toNat ∧ rd 0x0D s.enc.spt.toNat ∧ rd 0x0E s.enc.sizecode.toNat ∧ rd 0x0F s.enc.idc.toNat ∧
    rd 0x10 s.enc.idh.toNat ∧ rd 0x11 s.enc.corr0.toNat ∧ rd 0x12 s.enc.corr1.toNat ∧ rd 0x13 s.enc.corr2.toNat ∧
    rd 0x14 s.enc.corr3.toNat ∧ rd 0x18 s.slot.toNat ∧ rd 0x19 s.scan.rkind.toNat ∧ rd 0x1A s.scan.rslot.toNat ∧
    rd 0x1B s.scan.rptr.toNat ∧ rd 0x1C s.scan.recC.toNat ∧ rd 0x1D s.scan.recH.toNat ∧ rd 0x1E s.scan.recR.toNat ∧
    rd 0x1F s.scan.recN.toNat ∧ rd 0x20 s.scan.recType.toNat ∧ rd 0x21 s.scan.recFlags.toNat ∧ rd 0x22 s.scan.rsize.toNat ∧
    rd 0x23 s.scan.addroff.toNat ∧ rd 0x24 s.scan.dataoff.toNat ∧ rd 0x28 s.ivs.toNat ∧ rd 0x29 s.ive.toNat ∧
    rd 0x2A s.ivcnt.toNat ∧ rd 0x2B s.gap.mid.toNat ∧ rd 0x2C s.gap.size.toNat ∧
    ∀ k : Fin 64, rd (BitVec.ofNat 8 (0x40 + k.val)) s.enc.rtab[k].toNat

/-- The numbers of the RW registers (R21, listed in R237): MODE, TRKLEN, CRC, TARGET, GAP1 to IDH, CORR0 to CORR3, IVS, IVE, RTAB. -/
abbrev Sys2Proof.writableNumber (r : BitVec 8) : Prop :=
  r = 0x03 ∨ r = 0x04 ∨ r = 0x05 ∨ r = 0x07 ∨ (0x08 ≤ r.toNat ∧ r.toNat ≤ 0x14) ∨ r = 0x28 ∨ r = 0x29 ∨ (0x40 ≤ r.toNat ∧ r.toNat ≤ 0x7F)

/-- REG.WR (R237), word `0x02000000 + (r << 16) + v`: to an RW register it stores the low implemented bits of the value and answers
0; every other register reads as before (STATUS with its flags among them), and the buffers, IV and the host's input are unchanged. Every
other number (unassigned, or of an RO register) raises `Fault(E_ILLEGAL, w[31:16])`, that is 0x0200 + r. -/
def Obligations.RegWrStoresLowBits : Prop :=
  ∀ (v : Half) (s : State), s.running →
    (∀ r : BitVec 8, decode (BitVec.ofNat 32 (0x02000000 + r.toNat * 0x10000 + v.toNat)) = .ok (.regWr r v)) ∧
    (∀ g : Reg, writableNumber g.num →
      ∃ t, exec (.regWr g.num v) s = .next t ∧ t.resp = some 0 ∧
        t.readReg g = v &&& BitVec.ofNat 16 (2 ^ g.bits - 1) ∧
        (∀ g' : Reg, g' ≠ g → t.readReg g' = s.readReg g') ∧
        t.tb = s.tb ∧ t.pb = s.pb ∧ t.draw = s.draw ∧ t.iv = s.iv ∧ t.input = s.input) ∧
    (∀ r : BitVec 8, ¬ writableNumber r →
      exec (.regWr r v) s =
        .next { s with faultV := true, faultCode := 1, finfo := BitVec.ofNat 16 (0x0200 + r.toNat), resp := some 0x80000001 })

/-! ## CRC -/

/-- CRC.SEED (R132), word 0x10000000: CRC and RESP become 0xFFFF whatever CRC held, and nothing else changes. -/
def Obligations.CrcSeedSetsSeed : Prop :=
  decode 0x10000000 = .ok .crcSeed ∧
  ∀ s : State, s.running → exec .crcSeed s = .next { s with crc := 0xFFFF, resp := some 0x0000FFFF }

/-- CRC.UPD (R133), word `0x11000000 + b`: CRC becomes `crc16_update(CRC, b)` and RESP the new value; nothing else changes, and TRKLEN need
not be valid. -/
def Obligations.CrcUpdUpdatesAccumulator : Prop :=
  ∀ b : Byte, decode (BitVec.ofNat 32 (0x11000000 + b.toNat)) = .ok (.crcUpd b) ∧
    ∀ s : State, s.running →
      exec (.crcUpd b) s = .next { s with crc := crc16Update s.crc b, resp := some ((crc16Update s.crc b).setWidth 32) }

/-- The equivalent statement of R130: for `k` = 7 down to 0, the test bit is `crc[15] XOR b[k]`, the register shifts left, and the
polynomial 0x1021 is XORed in when the bit was 1. -/
def Obligations.CrcUpdateConsumesBitsMostSignificantFirst : Prop :=
  ∀ (crc : Half) (b : Byte),
    crc16Update crc b =
      [7, 6, 5, 4, 3, 2, 1, 0].foldl
        (fun (c : Half) (k : Nat) => if (c.getLsbD 15 ^^ b.getLsbD k) then (c <<< 1) ^^^ 0x1021 else c <<< 1) crc

/-- Laws (a) and (c) of R134: `crc16_update` is linear over XOR, and the byte enters at bits 15:8. -/
def Obligations.CrcUpdateIsLinear : Prop :=
  (∀ (c₁ c₂ : Half) (b₁ b₂ : Byte), crc16Update (c₁ ^^^ c₂) (b₁ ^^^ b₂) = crc16Update c₁ b₁ ^^^ crc16Update c₂ b₂) ∧
  ∀ (c : Half) (b : Byte), crc16Update c b = crc16Update (c ^^^ (b.setWidth 16 <<< 8)) 0

/-- The CRC of a frame is the fold of `crc16_update` over its bytes from the seed 0xFFFF, and `crc16_from` the fold from its argument (R131),
with the prefix values of R135; and law (b) of R134, the residue: from any start, a byte sequence followed by its own CRC, high byte
first, leaves 0, and 0 only then. -/
def Obligations.CrcResidueIsZeroExactlyOnMatch : Prop :=
  (∀ bytes : List Byte, crc16 bytes = bytes.foldl crc16Update 0xFFFF) ∧
  (∀ (c : Half) (bytes : List Byte), crc16From c bytes = bytes.foldl crc16Update c) ∧
  crc16 [0xA1, 0xA1, 0xA1] = 0xCDB4 ∧ crc16 [0xA1, 0xA1, 0xA1, 0xFE] = 0xB230 ∧
  crc16 [0xA1, 0xA1, 0xA1, 0xFB] = 0xE295 ∧ crc16 [0xA1, 0xA1, 0xA1, 0xF8] = 0xD2F6 ∧
  ∀ (c : Half) (bytes : List Byte) (b₁ b₀ : Byte),
    crc16From c (bytes ++ [b₁, b₀]) = 0 ↔ b₁ ++ b₀ = crc16From c bytes

/-! ## Buffer access -/

/-- TB.RD (R140), word `0x20000000 + (addr << 8)`: without ValidLen, `Fault(E_BADLEN, TRKLEN)`; with it, inside the track it answers the byte
and sets DATA, nothing else changing; at or beyond TRKLEN it raises `Fault(E_RANGE, addr)`. -/
def Obligations.TbRdReadsTrackByte : Prop :=
  ∀ (addr : BitVec 14) (s : State), s.running →
    decode (BitVec.ofNat 32 (0x20000000 + addr.toNat * 0x100)) = .ok (.tbRd addr) ∧
    (s.trklen.toNat ≤ 128 ∨ 0x4000 ≤ s.trklen.toNat →
      exec (.tbRd addr) s = .next { s with faultV := true, faultCode := 2, finfo := s.trklen, resp := some 0x80000002 }) ∧
    (128 < s.trklen.toNat → s.trklen.toNat < 0x4000 → addr.toNat < s.trklen.toNat →
      exec (.tbRd addr) s =
        .next { s with data := s.tbByte addr.toNat, resp := some ((s.tbByte addr.toNat).setWidth 32) }) ∧
    (128 < s.trklen.toNat → s.trklen.toNat < 0x4000 → s.trklen.toNat ≤ addr.toNat →
      exec (.tbRd addr) s =
        .next { s with faultV := true, faultCode := 3, finfo := addr.setWidth 16, resp := some 0x80000003 })

/-- TB.WR (R141), word `0x21000000 + (addr << 8) + b`: without ValidLen, `Fault(E_BADLEN, TRKLEN)`; with it, inside the track the byte at `addr`
becomes `b`, every other byte of TB reads as before, and nothing else changes (no result register, not DATA); at or beyond TRKLEN it raises
`Fault(E_RANGE, addr)`. -/
def Obligations.TbWrWritesOneByte : Prop :=
  ∀ (addr : BitVec 14) (b : Byte) (s : State), s.running →
    decode (BitVec.ofNat 32 (0x21000000 + addr.toNat * 0x100 + b.toNat)) = .ok (.tbWr addr b) ∧
    (s.trklen.toNat ≤ 128 ∨ 0x4000 ≤ s.trklen.toNat →
      exec (.tbWr addr b) s = .next { s with faultV := true, faultCode := 2, finfo := s.trklen, resp := some 0x80000002 }) ∧
    (128 < s.trklen.toNat → s.trklen.toNat < 0x4000 → addr.toNat < s.trklen.toNat →
      ∃ m : Memory, exec (.tbWr addr b) s = .next { s with tb := m, resp := some 0 } ∧
        ∀ a : Nat, State.tbByte { s with tb := m, resp := some 0 } a = if a = addr.toNat then b else s.tbByte a) ∧
    (128 < s.trklen.toNat → s.trklen.toNat < 0x4000 → s.trklen.toNat ≤ addr.toNat →
      exec (.tbWr addr b) s =
        .next { s with faultV := true, faultCode := 3, finfo := addr.setWidth 16, resp := some 0x80000003 })

/-- TRK.RD (R142), word `0x22000000 + (idx mod 2^24)`: without ValidLen, `Fault(E_BADLEN, TRKLEN)`; with it, any index is reduced mod L, Euclidean, into the data region; RESP and DATA are
`TB[128 + (idx mod L)]`, and nothing else changes. -/
def Obligations.TrkRdReadsCircularly : Prop :=
  ∀ idx : Int,
    (-8388608 ≤ idx → idx ≤ 8388607 → decode (BitVec.ofInt 32 (0x22000000 + idx % 0x1000000)) = .ok (.trkRd idx)) ∧
    (∀ s : State, s.running → s.trklen.toNat ≤ 128 ∨ 0x4000 ≤ s.trklen.toNat →
      exec (.trkRd idx) s = .next { s with faultV := true, faultCode := 2, finfo := s.trklen, resp := some 0x80000002 }) ∧
    ∀ (s : State) (m : Nat), s.running → 128 < s.trklen.toNat → s.trklen.toNat < 0x4000 →
      m < s.trklen.toNat - 128 → (∃ q : Int, idx = q * ((s.trklen.toNat : Int) - 128) + m) →
      exec (.trkRd idx) s = .next { s with data := s.tbByte (128 + m), resp := some ((s.tbByte (128 + m)).setWidth 32) }

/-- PB.RD (R143), word `0x23000000 + (addr << 8)`: every 14-bit address is inside PB, whatever TRKLEN holds. -/
def Obligations.PbRdReadsPayloadByte : Prop :=
  ∀ addr : BitVec 14, decode (BitVec.ofNat 32 (0x23000000 + addr.toNat * 0x100)) = .ok (.pbRd addr) ∧
    ∀ s : State, s.running →
      exec (.pbRd addr) s = .next { s with data := s.pbByte addr.toNat, resp := some ((s.pbByte addr.toNat).setWidth 32) }

/-- PB.WR (R144), word `0x24000000 + (addr << 8) + b`: the byte of PB at `addr` becomes `b`, every other byte of PB reads as before, nothing else
changes. -/
def Obligations.PbWrWritesOneByte : Prop :=
  ∀ (addr : BitVec 14) (b : Byte),
    decode (BitVec.ofNat 32 (0x24000000 + addr.toNat * 0x100 + b.toNat)) = .ok (.pbWr addr b) ∧
    ∀ s : State, s.running →
      ∃ m : Memory, exec (.pbWr addr b) s = .next { s with pb := m, resp := some 0 } ∧
        ∀ a : Nat, State.pbByte { s with pb := m, resp := some 0 } a = if a = addr.toNat then b else s.pbByte a

/-! ## Synthesizer -/

/-- The registers describe a track ENC.TRACK accepts: the four checks of R152 pass. -/
abbrev Sys2Proof.encodable (s : State) : Prop :=
  128 < s.trklen.toNat ∧ s.trklen.toNat < 0x4000 ∧ s.enc.spt.toNat ≤ 64 ∧ 0 < s.encGap4b ∧
    (s.encFixed : Int) + s.encGap4b = (s.trklen.toNat : Int) - 128

/-- ENC.TRACK (R158): when the checks pass, `TB[0 .. TRKLEN-1]` becomes the encoded track, every byte of it, bytes at or above TRKLEN read
as before, RESP is gap4b, and nothing else changes. -/
def Obligations.EncTrackWritesWholeTrack : Prop :=
  ∀ s : State, s.running → encodable s →
    s.encodedTrack.length = s.trklen.toNat ∧
    ∃ m : Memory, exec .encTrack s = .next { s with tb := m, resp := some (BitVec.ofInt 32 s.encGap4b) } ∧
      ∀ a : Nat, State.tbByte { s with tb := m, resp := some (BitVec.ofInt 32 s.encGap4b) } a =
        if h : a < s.encodedTrack.length then s.encodedTrack[a] else s.tbByte a

/-- The checks of ENC.TRACK, their order and what each records (R152), each without its predecessors' failing; nothing is written to TB. With
MODE.G4BAUTO = 1 the fourth cannot fail once the third has passed. -/
def Obligations.EncTrackChecksInOrder : Prop :=
  ∀ s : State, s.running →
    let raised (code : BitVec 8) (info : Int) : Prop :=
      exec .encTrack s = .next { s with faultV := true, faultCode := code, finfo := BitVec.ofInt 16 info,
                                        resp := some (0x80000000 ||| code.setWidth 32) }
    let validLen : Prop := 128 < s.trklen.toNat ∧ s.trklen.toNat < 0x4000
    let lands : Prop := (s.encFixed : Int) + s.encGap4b = (s.trklen.toNat : Int) - 128
    (¬ validLen → raised 2 s.trklen.toNat) ∧
    (validLen → 64 < s.enc.spt.toNat → raised 4 s.enc.spt.toNat) ∧
    (validLen → s.enc.spt.toNat ≤ 64 → s.encGap4b ≤ 0 → raised 5 0) ∧
    (validLen → s.enc.spt.toNat ≤ 64 → 0 < s.encGap4b → ¬ lands → raised 6 ((s.encFixed : Int) + s.encGap4b)) ∧
    (validLen → s.mode.getLsbD 1 = true → lands)

/-- Explicit and derived gap4b (R160, R151): with MODE.G4BAUTO = 1 it is `L - fixed`, otherwise the register GAP4B, where `fixed` is the
document's sum, unbounded. -/
def Obligations.Gap4bIsExplicitOrDerived : Prop :=
  ∀ s : State,
    let size : Nat := 128 * 2 ^ (s.enc.sizecode.toNat % 8)
    let fixed : Nat := s.enc.gap4a.toNat + 12 + 4 + s.enc.gap1.toNat +
      s.enc.spt.toNat * (12 + 10 + s.enc.gap2.toNat + 12 + 4 + size + 2 + s.enc.gap3.toNat)
    128 < s.trklen.toNat →
    s.encFixed = fixed ∧
    (s.mode.getLsbD 1 = true → s.encGap4b = (s.trklen.toNat : Int) - 128 - fixed) ∧
    (s.mode.getLsbD 1 = false → s.encGap4b = s.enc.gap4b.toNat)

/-- The bytes `D[p], D[p+1], …` of the data region are `bytes`. -/
def Sys2Proof.dataRegionHas (t : State) (p : Nat) (bytes : List Byte) : Prop :=
  ∀ i (h : i < bytes.length), t.tbByte (128 + p + i) = bytes[i]

/-- The order of fields on an encoded track (R91): each field at the index the table gives, for every sector index below SPT; the
payload comes from `PB[s*size .. (s+1)*size - 1]`, the ID CRC covers A1 A1 A1 FE C H R N and the data CRC A1 A1 A1 FB and the payload, both
high byte first, the data CRC XORed with 0xFFFF when CORR[s] = 1 (R93, R94, R154 to R156). -/
def Obligations.EncodedTrackFollowsLayout : Prop :=
  ∀ s t : State, s.running → encodable s → exec .encTrack s = .next t →
    let gap1 := s.enc.gap1.toNat; let gap2 := s.enc.gap2.toNat; let gap3 := s.enc.gap3.toNat; let gap4a := s.enc.gap4a.toNat
    let size : Nat := 128 * 2 ^ (s.enc.sizecode.toNat % 8)
    let blockLen := 40 + gap2 + size + gap3
    let block (k : Nat) := gap4a + 16 + gap1 + k * blockLen
    dataRegionHas t 0 (List.replicate gap4a 0x4E) ∧
    dataRegionHas t gap4a (List.replicate 12 0x00) ∧
    dataRegionHas t (gap4a + 12) [0xC2, 0xC2, 0xC2, 0xFC] ∧
    dataRegionHas t (gap4a + 16) (List.replicate gap1 0x4E) ∧
    (∀ k, k < s.enc.spt.toNat →
      let id : List Byte := [0xA1, 0xA1, 0xA1, 0xFE, s.enc.idc, s.enc.idh, s.enc.rtab.getD k 0, s.enc.sizecode]
      let payload : List Byte := (List.range size).map fun i => s.pbByte (k * size + i)
      let data : List Byte := [0xA1, 0xA1, 0xA1, 0xFB] ++ payload
      let corr : Half := if (s.enc.corr3 ++ s.enc.corr2 ++ s.enc.corr1 ++ s.enc.corr0).getLsbD k then 0xFFFF else 0
      dataRegionHas t (block k) (List.replicate 12 0x00) ∧
      dataRegionHas t (block k + 12) (id ++ [hi (crc16 id), lo (crc16 id)]) ∧
      dataRegionHas t (block k + 22) (List.replicate gap2 0x4E) ∧
      dataRegionHas t (block k + 22 + gap2) (List.replicate 12 0x00) ∧
      dataRegionHas t (block k + 34 + gap2) (data ++ [hi (crc16 data ^^^ corr), lo (crc16 data ^^^ corr)]) ∧
      dataRegionHas t (block k + 40 + gap2 + size) (List.replicate gap3 0x4E)) ∧
    dataRegionHas t (block s.enc.spt.toNat) (List.replicate s.encGap4b.toNat 0x4E) ∧
    block s.enc.spt.toNat + s.encGap4b.toNat = s.trklen.toNat - 128

/-- The pointer table of an encoded track (R157, R96): entry `k` below SPT is `(128 + B(k) + 15) OR 0x8000`, little-endian, its density
bits 10, and addresses the 0xFE byte of ID frame `k`; entries SPT to 63 are 0. -/
def Obligations.EncodedPointersAddressIdMarks : Prop :=
  ∀ s t : State, s.running → encodable s → exec .encTrack s = .next t → ∀ k, k < 64 →
    let e : Half := t.tbByte (2 * k + 1) ++ t.tbByte (2 * k)
    (k < s.enc.spt.toNat →
      e.toNat = 0x8000 + (128 + s.blockAt k + 15) ∧ densityOf e = 0b10#2 ∧ t.tbByte (dmkIdxOf e) = 0xFE ∧
      t.tbByte (dmkIdxOf e - 3) = 0xA1 ∧ t.tbByte (dmkIdxOf e - 2) = 0xA1 ∧ t.tbByte (dmkIdxOf e - 1) = 0xA1) ∧
    (s.enc.spt.toNat ≤ k → e = 0)

/-- Round trip (R159 a, d), the document's testable property: on a track made with GAP2 <= 30, the scan of entry `k` below SPT, in either
mode, yields a RECORD with C, H, R, N as encoded, type 0xFB, the address CRC good, the data CRC good exactly when CORR[k] = 0, at the
offsets of R159; entry SPT, if below 64, yields END. -/
def Obligations.EncodeThenScanRoundTrip : Prop :=
  ∀ (s t : State) (strict : Bool), s.running → encodable s → s.enc.gap2.toNat ≤ 30 → exec .encTrack s = .next t →
    (∀ k, k < s.enc.spt.toNat →
      t.scanEntry k strict =
        .record (t.pt k) ⟨s.enc.idc, s.enc.idh, s.enc.rtab.getD k 0, s.enc.sizecode⟩
          (s.blockAt k + 12 : Nat) (s.blockAt k + 34 + s.enc.gap2.toNat : Nat) 0xFB (!s.corrupts k)) ∧
    (∀ k, s.enc.spt.toNat ≤ k → k < 64 → t.scanEntry k strict = .endOfTable)

/-- The bound on GAP2 (R159 b, R290): on a track made with GAP2 > 30 the data mark lies beyond the 43 positions, and every sector below
SPT scans as NO_DATA_MARK. -/
def Obligations.WideGap2HidesDataMarks : Prop :=
  ∀ (s t : State) (strict : Bool) (k : Nat), s.running → encodable s → 30 < s.enc.gap2.toNat → exec .encTrack s = .next t →
    k < s.enc.spt.toNat →
    t.scanEntry k strict =
      .noDataMark (t.pt k) ⟨s.enc.idc, s.enc.idh, s.enc.rtab.getD k 0, s.enc.sizecode⟩ (s.blockAt k + 12 : Nat)

/-! ## Parser -/

/-- SCAN.START (R171), word 0x40000000: SLOT, SCANDONE and the twelve result registers become 0, RESP 0, nothing else changes; it needs no
valid TRKLEN. -/
def Obligations.ScanStartClearsScan : Prop :=
  decode 0x40000000 = .ok .scanStart ∧
  ∀ s : State, s.running →
    exec .scanStart s =
      .next { s with slot := 0, scandone := false, resp := some 0,
                     scan := { rkind := 0, rslot := 0, rptr := 0, recC := 0, recH := 0, recR := 0, recN := 0, recType := 0,
                               recFlags := 0, rsize := 0, addroff := 0, dataoff := 0 } }

/-- SCAN.NEXT at the end (R172): once SCANDONE is set, SLOT is 64 or the entry is 0, it reports END: RKIND 1, RSLOT = SLOT, the other
result registers 0, SCANDONE set, SLOT unchanged, whatever follows in the table. -/
def Obligations.ScanNextReportsEnd : Prop :=
  ∀ s : State, s.running → 128 < s.trklen.toNat → s.trklen.toNat < 0x4000 →
    (s.scandone = true ∨ s.slot = 64 ∨ s.tbByte (2 * s.slot.toNat) = 0 ∧ s.tbByte (2 * s.slot.toNat + 1) = 0) →
    exec .scanNext s =
      .next { s with scandone := true, resp := some 1,
                     scan := { rkind := 1, rslot := s.slot, rptr := 0, recC := 0, recH := 0, recR := 0, recN := 0, recType := 0,
                               recFlags := 0, rsize := 0, addroff := 0, dataoff := 0 } }

/-- SCAN.NEXT on an entry (R172, R181): with a scan in progress and a non-zero entry it runs ScanEntry in the mode MODE.STRICT selects;
unless that is fatal in strict mode, it answers the kind, advances SLOT and writes the registers R181 lists for the kind. -/
def Obligations.ScanNextReportsEntry : Prop :=
  ∀ (s : State) (res : ScanResult), s.running → 128 < s.trklen.toNat → s.trklen.toNat < 0x4000 → s.scandone = false →
    s.slot.toNat < 64 → res = s.scanEntry s.slot.toNat (s.mode.getLsbD 0) → res ≠ .endOfTable →
    ¬ (s.mode.getLsbD 0 = true ∧ res.fatal = true) →
    let off (i : Int) : BitVec 14 := BitVec.ofInt 14 (i % ((s.trklen.toNat : Int) - 128))
    let size (n : Byte) : Half := BitVec.ofNat 16 (128 * 2 ^ (n.toNat % 8))
    ∃ regs : ScanRegs,
      exec .scanNext s = .next { s with slot := s.slot + 1, scan := regs, resp := some (res.kind.setWidth 32) } ∧
      regs.rkind = res.kind ∧ regs.rslot = s.slot ∧
      (match res with
        | .endOfTable => False
        | .singleDensity e => regs = { ScanRegs.zero with rkind := 2, rslot := s.slot, rptr := e }
        | .badPointer e => regs = { ScanRegs.zero with rkind := 3, rslot := s.slot, rptr := e }
        | .notAddrMark e a => regs = { ScanRegs.zero with rkind := 4, rslot := s.slot, rptr := e, addroff := off a }
        | .addrCrcBad e id a =>
          regs = { ScanRegs.zero with rkind := 5, rslot := s.slot, rptr := e, recC := id.c, recH := id.h, recR := id.r, recN := id.n,
                                      rsize := size id.n, addroff := off a }
        | .noDataMark e id a =>
          regs = { ScanRegs.zero with rkind := 6, rslot := s.slot, rptr := e, recC := id.c, recH := id.h, recR := id.r, recN := id.n,
                                      rsize := size id.n, addroff := off a, recFlags := 1 }
        | .record e id a j t ok =>
          regs = { rkind := 7, rslot := s.slot, rptr := e, recC := id.c, recH := id.h, recR := id.r, recN := id.n, recType := t,
                   recFlags := BitVec.ofNat 4 (1 + (if ok then 2 else 0) + 4 * (if t = 0xFB then 0 else if t = 0xF8 then 1 else 2)),
                   rsize := size id.n, addroff := off a, dataoff := off j })

/-- Strict mode (R182): BAD_POINTER, NOT_ADDR_MARK, ADDR_CRC_BAD and NO_DATA_MARK raise `Fault(E_MALFORMED, (SLOT << 8) OR code)` before any
register is written, so SLOT still names the offending slot. -/
def Obligations.StrictScanFaultsOnDiagnostic : Prop :=
  ∀ (s : State) (res : ScanResult), s.running → 128 < s.trklen.toNat → s.trklen.toNat < 0x4000 → s.scandone = false →
    s.slot.toNat < 64 → s.mode.getLsbD 0 = true → res = s.scanEntry s.slot.toNat true →
    (res.kind = 3 ∨ res.kind = 4 ∨ res.kind = 5 ∨ res.kind = 6) →
    exec .scanNext s =
      .next { s with faultV := true, faultCode := 7, finfo := BitVec.ofNat 16 (s.slot.toNat * 256 + res.kind.toNat),
                     resp := some 0x80000007 }

/-- The steps of ScanEntry (R173 to R179) decide which kind a slot gives, tried in order: the entry 0; density bits other than 10; an offset
outside [128, TRKLEN); bytes other than A1 A1 A1 FE at `addrIdx`; an address CRC that does not match; no data mark at any of the 43
positions after the frame; otherwise a RECORD of the first such position. -/
def Obligations.ScanEntryTriesStepsInOrder : Prop :=
  ∀ (s : State) (k : Nat) (strict : Bool),
    let e : Half := s.tbByte (2 * k + 1) ++ s.tbByte (2 * k)
    let dmkIdx : Nat := e.toNat % 0x4000
    let a : Int := (dmkIdx : Int) - 131
    let byte (i : Nat) : Byte := s.rd (a + i)
    let id : IdFields := ⟨byte 4, byte 5, byte 6, byte 7⟩
    let isMark : Prop := byte 0 = 0xA1 ∧ byte 1 = 0xA1 ∧ byte 2 = 0xA1 ∧ byte 3 = 0xFE
    let crcOk : Prop := crc16 [byte 0, byte 1, byte 2, byte 3, byte 4, byte 5, byte 6, byte 7] = byte 8 ++ byte 9
    let dataMark (q : Int) : Prop := s.rd q = 0xA1 ∧ s.rd (q + 1) = 0xA1 ∧ s.rd (q + 2) = 0xA1 ∧
      (strict = true → s.rd (q + 3) = 0xFB ∨ s.rd (q + 3) = 0xF8)
    let inRange : Prop := 128 ≤ dmkIdx ∧ dmkIdx < s.trklen.toNat
    (e = 0 → s.scanEntry k strict = .endOfTable) ∧
    (e ≠ 0 → e.toNat / 0x4000 ≠ 2 → s.scanEntry k strict = .singleDensity e) ∧
    (e.toNat / 0x4000 = 2 → ¬ inRange → s.scanEntry k strict = .badPointer e) ∧
    (e.toNat / 0x4000 = 2 → inRange → ¬ isMark → s.scanEntry k strict = .notAddrMark e a) ∧
    (e.toNat / 0x4000 = 2 → inRange → isMark → ¬ crcOk → s.scanEntry k strict = .addrCrcBad e id a) ∧
    (e.toNat / 0x4000 = 2 → inRange → isMark → crcOk → (∀ d : Nat, d < 43 → ¬ dataMark (a + 10 + d)) →
      s.scanEntry k strict = .noDataMark e id a) ∧
    (e.toNat / 0x4000 = 2 → inRange → isMark → crcOk →
      ∀ d : Nat, d < 43 → dataMark (a + 10 + d) → (∀ d' : Nat, d' < d → ¬ dataMark (a + 10 + d')) →
        let j : Int := a + 10 + d
        let size : Nat := 128 * 2 ^ ((byte 7).toNat % 8)
        s.scanEntry k strict = .record e id a j (s.rd (j + 3))
          (crc16 ((List.range (4 + size)).map fun (i : Nat) => s.rd (j + i)) == s.rd (j + 4 + size) ++ s.rd (j + 5 + size)))

/-- The extent of a RECORD (R183): from `addrIdx` to `j + 4 + size + 2`, of length between `16 + size` and `58 + size`; and the bounds
of R185 that let both ends stand in IV as signed 16-bit numbers. -/
def Obligations.RecordExtentBounds : Prop :=
  ∀ (s : State) (k : Nat) (strict : Bool) (e : Half) (id : IdFields) (a j : Int) (t : Byte) (ok : Bool),
    s.trklen.toNat < 0x4000 → s.scanEntry k strict = .record e id a j t ok →
    let size : Int := 128 * 2 ^ (id.n.toNat % 8)
    ∃ x : Interval, (s.scanEntry k strict).extent? = some x ∧ x.start = a ∧ x.stop = j + 4 + size + 2 ∧
      16 + size ≤ x.stop - x.start ∧ x.stop - x.start ≤ 58 + size ∧ -3 ≤ x.start ∧ x.stop ≤ 32693

/-! ## Gap locator -/

/-- GAP.CLR (R197), word 0x50000000: IV empty, IVCNT 0, RESP 0; GAPVALID, GAPMID, GAPSIZE and everything else keep their values. -/
def Obligations.GapClrEmptiesList : Prop :=
  decode 0x50000000 = .ok .gapClr ∧
  ∀ s : State, s.running → exec .gapClr s = .next { s with iv := [], ivcnt := 0, resp := some 0 }

/-- GAP.ADD (R198), word 0x51000000: appends the pair of IVS and IVE read as signed 16-bit numbers, unreduced, and counts it; a full list raises
`Fault(E_IVFULL, 64)`. -/
def Obligations.GapAddAppendsSignedPair : Prop :=
  decode 0x51000000 = .ok .gapAdd ∧
  ∀ s : State, s.running →
    (s.ivcnt ≠ 64 →
      exec .gapAdd s = .next { s with iv := s.iv ++ [⟨s.ivs.toInt, s.ive.toInt⟩], ivcnt := s.ivcnt + 1,
                                      resp := some ((s.ivcnt + 1).setWidth 32) }) ∧
    (s.ivcnt = 64 →
      exec .gapAdd s = .next { s with faultV := true, faultCode := 10, finfo := 64, resp := some 0x8000000A })

/-- GAP.FIND (R199), word 0x52000000: without ValidLen, `Fault(E_BADLEN, TRKLEN)`; otherwise the largest gap of IV on the circle of length L:
found, GAPVALID, GAPMID, GAPSIZE and `RESP = 0x10000 + mid` report it; none, all of them are 0. IV, TB and everything else are unchanged. -/
def Obligations.GapFindReportsLargestGap : Prop :=
  decode 0x52000000 = .ok .gapFind ∧
  ∀ s : State, s.running →
    (s.trklen.toNat ≤ 128 ∨ 0x4000 ≤ s.trklen.toNat →
      exec .gapFind s = .next { s with faultV := true, faultCode := 2, finfo := s.trklen, resp := some 0x80000002 }) ∧
    (128 < s.trklen.toNat → s.trklen.toNat < 0x4000 →
      (findLargestGap (s.trklen.toNat - 128) s.iv = none →
        exec .gapFind s = .next { s with gap := ⟨false, 0, 0⟩, resp := some 0 }) ∧
      (∀ mid size, findLargestGap (s.trklen.toNat - 128) s.iv = some (mid, size) →
        exec .gapFind s = .next { s with gap := ⟨true, BitVec.ofNat 14 mid, BitVec.ofNat 14 size⟩,
                                         resp := some (BitVec.ofNat 32 (0x10000 + mid)) }))

/-- Index `x` of the circle of length `len` is in the in-use interval `i`, both ends reduced mod `len` (R191): between the ends, or outside
them when the interval wraps; in none when the reduced ends are equal. -/
def Sys2Proof.inUseAt (len : Nat) (i : Interval) (x : Nat) : Prop :=
  let s := i.start % (len : Int)
  let e := i.stop % (len : Int)
  (s < e ∧ s ≤ x ∧ (x : Int) < e) ∨ (e < s ∧ (s ≤ x ∨ (x : Int) < e))

/-- `x` is free: no in-use interval contains it (R192). -/
def Sys2Proof.freeAt (len : Nat) (ivs : List Interval) (x : Nat) : Prop := ∀ i ∈ ivs, ¬ inUseAt len i x

/-- FindLargestGap is sound and maximal, whatever GAP_TIE is (R190, R193, R194): what it returns is a run of `size` free indices on the
circle, no longer run of free indices exists, and the midpoint, `size div 2` into the run, is free and below `len`. -/
def Obligations.LargestGapIsFreeAndMaximal : Prop :=
  ∀ (len : Nat) (ivs : List Interval) (mid size : Nat), 1 ≤ len → findLargestGap len ivs = some (mid, size) →
    1 ≤ size ∧ size ≤ len ∧ mid < len ∧ freeAt len ivs mid ∧
    (∃ p, p < len ∧ mid = (p + size / 2) % len ∧ ∀ i, i < size → freeAt len ivs ((p + i) % len)) ∧
    (∀ p n, n ≤ len → (∀ i, i < n → freeAt len ivs ((p + i) % len)) → n ≤ size)

/-- The two boundary cases (R195): "`None` if no zero-coverage region exists", and only then; and when nothing is covered (no interval, or
every pair reduced to nothing) the whole track is one gap, `Some(len div 2, len)`. -/
def Obligations.GapBoundaryCases : Prop :=
  ∀ (len : Nat) (ivs : List Interval), 1 ≤ len →
    (findLargestGap len ivs = none ↔ ∀ x, x < len → ¬ freeAt len ivs x) ∧
    ((∀ x, x < len → freeAt len ivs x) → findLargestGap len ivs = some (len / 2, len)) ∧
    findLargestGap len [] = some (len / 2, len)

/-! ## Adjuster -/

/-- TARGET is checked after ValidLen and before anything else (R215, R211, R212): outside 1 to 16255 both commands raise
`Fault(E_RANGE, TARGET)`; when L already equals a legal TARGET both answer 0 and change nothing. -/
def Obligations.AdjusterChecksTargetFirst : Prop :=
  ∀ (i : Instr) (s : State), i = .adjStep ∨ i = .adjRun → s.running → 128 < s.trklen.toNat → s.trklen.toNat < 0x4000 →
    (s.target.toNat < 1 ∨ 16255 < s.target.toNat →
      exec i s = .next { s with faultV := true, faultCode := 3, finfo := s.target, resp := some 0x80000003 }) ∧
    (1 ≤ s.target.toNat → s.target.toNat ≤ 16255 → s.trklen.toNat - 128 = s.target.toNat →
      exec i s = .next { s with resp := some 0 })

/-- The state before one pass of the adjuster: running, a valid track, a legal TARGET that L does not equal yet. -/
abbrev Sys2Proof.adjustable (s : State) : Prop :=
  s.running ∧ 128 < s.trklen.toNat ∧ s.trklen.toNat < 0x4000 ∧ 1 ≤ s.target.toNat ∧ s.target.toNat ≤ 16255 ∧
    s.trklen.toNat - 128 ≠ s.target.toNat

/-- `recs` is what the strict scan of the whole table lists (R184): `(k, ScanEntry(k, true))` for `k` = 0, 1, … up to the first END or to
slot 63, none of them fatal. -/
def Sys2Proof.strictScanLists (s : State) (recs : List (Nat × ScanResult)) : Prop :=
  recs.length ≤ 64 ∧
  (∀ k (h : k < recs.length), recs[k] = (k, s.scanEntry k true) ∧ s.scanEntry k true ≠ .endOfTable ∧ (s.scanEntry k true).fatal = false) ∧
  (recs.length < 64 → s.scanEntry recs.length true = .endOfTable)

/-- ADJ.STEP faults (R211, R206, R207): a strict scan that meets a fatal diagnostic raises E_MALFORMED naming slot and kind, whatever
MODE.STRICT holds; a record whose extent is L or longer raises `Fault(E_NOGAP, k)`; no gap raises `Fault(E_NOGAP, 0x00FF)`. -/
def Obligations.AdjStepFaults : Prop :=
  ∀ s : State, adjustable s →
    let raised (code : BitVec 8) (info : Nat) : Prop :=
      exec .adjStep s = .next { s with faultV := true, faultCode := code, finfo := BitVec.ofNat 16 info,
                                       resp := some (0x80000000 ||| code.setWidth 32) }
    let before (k : Nat) : Prop := ∀ k' < k, s.scanEntry k' true ≠ .endOfTable
    (∀ k < 64, before k → (∀ k' < k, (s.scanEntry k' true).fatal = false) → (s.scanEntry k true).fatal = true →
      raised 7 (k * 256 + (s.scanEntry k true).kind.toNat)) ∧
    (∀ recs, strictScanLists s recs →
      (∀ pre k res post x, recs = pre ++ (k, res) :: post → res.extent? = some x → (s.trklen.toNat : Int) - 128 ≤ x.stop - x.start →
        (∀ p ∈ pre, ∀ y, p.2.extent? = some y → y.stop - y.start < (s.trklen.toNat : Int) - 128) → raised 8 k) ∧
      (∀ ivs, ivs = recs.filterMap (fun p => p.2.extent?) → (∀ x ∈ ivs, x.stop - x.start < (s.trklen.toNat : Int) - 128) →
        findLargestGap (s.trklen.toNat - 128) ivs = none → raised 8 0x00FF))

/-- One successful pass (R206 to R211), `mid = gapMid + 128`, `recs` what the strict scan of the table lists (R184): IV and IVCNT become the extents of the RECORDs in table order, GAPVALID,
GAPMID and GAPSIZE the gap as it was found in the old L, TRKLEN one more or one less towards TARGET, RESP 1. The bytes of TB from 128 on
move as R208 (growing) and R209 (shrinking) say, bytes outside the track are unchanged but the one growing overwrites, and every other
register, PB, SLOT, the scan results, CRC and DATA are unchanged. -/
def Obligations.AdjStepMovesOneByte : Prop :=
  ∀ (s : State) (recs : List (Nat × ScanResult)) (ivs : List Interval) (gapMid gapSize : Nat), adjustable s →
    strictScanLists s recs → ivs = recs.filterMap (fun p => p.2.extent?) →
    (∀ x ∈ ivs, x.stop - x.start < (s.trklen.toNat : Int) - 128) →
    findLargestGap (s.trklen.toNat - 128) ivs = some (gapMid, gapSize) →
    let mid := gapMid + 128
    let grow := decide (s.trklen.toNat - 128 < s.target.toNat)
    ∃ (m : Memory) (t : State),
      exec .adjStep s = .next t ∧
      t = { s with tb := m, iv := ivs, ivcnt := BitVec.ofNat 7 ivs.length,
                   gap := ⟨true, BitVec.ofNat 14 gapMid, BitVec.ofNat 14 gapSize⟩,
                   trklen := if grow then s.trklen + 1 else s.trklen - 1, resp := some 1 } ∧
      ∀ a : Nat, 128 ≤ a →
        t.tbByte a =
          if grow then (if mid < a ∧ a ≤ s.trklen.toNat then s.tbByte (a - 1) else s.tbByte a)
          else (if mid ≤ a ∧ a < s.trklen.toNat - 1 then s.tbByte (a + 1) else s.tbByte a)

/-- The pointer rewrite of a pass (R210): in all 64 slots, a non-zero entry whose 14-bit offset is above `mid` has `delta` added to that
offset modulo 2^14, its top two bits kept; every other entry is unchanged, and so the pointer table holds nothing else. -/
def Obligations.AdjStepRewritesPointers : Prop :=
  ∀ (s t : State), adjustable s → exec .adjStep s = .next t → t.faultV = false → ∀ k, k < 64 →
    let mid := t.gap.mid.toNat + 128
    let old : Half := s.tbByte (2 * k + 1) ++ s.tbByte (2 * k)
    let new : Half := t.tbByte (2 * k + 1) ++ t.tbByte (2 * k)
    let offset := old.toNat % 0x4000
    let delta : Int := if s.trklen.toNat - 128 < s.target.toNat then 1 else -1
    (old ≠ 0 ∧ mid < offset → (new.toNat : Int) = (old.toNat / 0x4000 * 0x4000 : Nat) + ((offset : Int) + delta) % 0x4000) ∧
    (old = 0 ∨ offset ≤ mid → new = old)

/-- The byte a pass duplicates or removes belongs to no RECORD's extent (R207, R194): no extent `[start, stop)` of the list the pass built
holds an integer congruent to GAPMID modulo the old L. -/
def Obligations.AdjStepByteIsInNoExtent : Prop :=
  ∀ (s t : State), adjustable s → exec .adjStep s = .next t → t.faultV = false →
    t.gap.mid.toNat < s.trklen.toNat - 128 ∧
    ∀ x ∈ t.iv, ∀ q : Int, x.start ≤ q → q < x.stop → q % ((s.trklen.toNat : Int) - 128) ≠ t.gap.mid.toNat

/-- Pointer coherence and preservation (R214): after a successful pass, every slot the strict scan of the pass decoded as a RECORD
decodes as a RECORD again, with the same C, H, R, N, type byte and data-CRC result, its two
unreduced offsets both moved by 0 or both by `delta`. -/
def Obligations.AdjStepPreservesRecords : Prop :=
  ∀ (s t : State) (k : Nat) (e : Half) (id : IdFields) (a j : Int) (ty : Byte) (ok : Bool),
    adjustable s → exec .adjStep s = .next t → t.faultV = false → k < 64 →
    (∀ k' < k, s.scanEntry k' true ≠ .endOfTable) → s.scanEntry k true = .record e id a j ty ok →
    ∃ (e' : Half) (d : Int), t.scanEntry k true = .record e' id (a + d) (j + d) ty ok ∧
      (d = 0 ∨ d = (t.trklen.toNat : Int) - s.trklen.toNat)

/-- ADJ.RUN (R212, R213): it is exactly `|TARGET - L|` successive ADJ.STEP commands; when each of them succeeds it ends in the state they
make (but for RESP), L equals TARGET, and RESP is the number of passes. -/
def Obligations.AdjRunIsRepeatedAdjStep : Prop :=
  ∀ (n : Nat) (s : State) (chain : Nat → State), s.running → 128 < s.trklen.toNat → s.trklen.toNat < 0x4000 →
    1 ≤ s.target.toNat → s.target.toNat ≤ 16255 → n = ((s.target.toNat : Int) - (s.trklen.toNat - 128)).natAbs →
    chain 0 = s →
    (∀ k < n, exec .adjStep (chain k) = .next (chain (k + 1)) ∧ (chain (k + 1)).faultV = false) →
    exec .adjRun s = .next { chain n with resp := some (BitVec.ofNat 32 n) } ∧ (chain n).trklen.toNat - 128 = s.target.toNat

/-- A fault of ADJ.RUN keeps the completed passes (R212): if ADJ.STEP succeeds `i` times and the next one faults, ADJ.RUN leaves the state
that faulting ADJ.STEP leaves. -/
def Obligations.AdjRunKeepsCompletedPasses : Prop :=
  ∀ (i : Nat) (s t : State) (chain : Nat → State), s.running → 128 < s.trklen.toNat → s.trklen.toNat < 0x4000 →
    1 ≤ s.target.toNat → s.target.toNat ≤ 16255 → i < ((s.target.toNat : Int) - (s.trklen.toNat - 128)).natAbs →
    chain 0 = s →
    (∀ k < i, exec .adjStep (chain k) = .next (chain (k + 1)) ∧ (chain (k + 1)).faultV = false) →
    exec .adjStep (chain i) = .next t → t.faultV = true →
    exec .adjRun s = .next t

/-- ADJ.RUN completes (R212, R213, R207) on a track without sectors (pointer entry 0 is the end of the table), whatever its bytes: L reaches
TARGET, RESP is `|TARGET - L|`, and if a pass ran, IV is empty and the gap registers hold the whole circle of the last pass; the other
registers and PB are unchanged. -/
def Obligations.AdjRunReachesTargetWithoutSectors : Prop :=
  ∀ s : State, s.running → 128 < s.trklen.toNat → s.trklen.toNat < 0x4000 → 1 ≤ s.target.toNat → s.target.toNat ≤ 16255 →
    s.tbByte 0 = 0 → s.tbByte 1 = 0 →
    let n : Nat := ((s.target.toNat : Int) - ((s.trklen.toNat : Int) - 128)).natAbs
    let last : Nat := if s.trklen.toNat - 128 < s.target.toNat then s.target.toNat - 1 else s.target.toNat + 1
    ∃ m : Memory, exec .adjRun s =
      .next { s with
        tb := m, trklen := BitVec.ofNat 16 (s.target.toNat + 128), resp := some (BitVec.ofNat 32 n),
        iv := if n = 0 then s.iv else [], ivcnt := if n = 0 then s.ivcnt else 0,
        gap := if n = 0 then s.gap else ⟨true, BitVec.ofNat 14 (last / 2), BitVec.ofNat 14 last⟩ }

/-- The adjuster writes inside the track (R38, R208, R209): after ADJ.STEP or ADJ.RUN every byte of TB at or above both the TRKLEN
before and the TRKLEN it leaves reads as before, whether the command succeeded or faulted part-way. -/
def Obligations.AdjusterLeavesBytesOutsideTrack : Prop :=
  ∀ (i : Instr) (s t : State), i = .adjStep ∨ i = .adjRun → exec i s = .next t →
    ∀ a : Nat, s.trklen.toNat ≤ a → t.trklen.toNat ≤ a → t.tbByte a = s.tbByte a

/-! ## The invariant -/

/-- The state after reset meets the invariant. -/
def Obligations.ResetMeetsInvariant : Prop := State.reset.Inv

/-- Every step keeps the invariant: the buffers' canonical form, SLOT and RSLOT at most 64 (R27), IVCNT the length of IV, at most 64 pairs
of signed 16-bit integers (R35, R40), FAULT.CODE 0 or a raisable code (R251), the gap registers 0 without a gap (R36), SCANDONE exactly
after END (R28), ADDRCRCOK in every RECORD (R181). -/
def Obligations.StepKeepsInvariant : Prop :=
  ∀ s t : State, s.Inv → step s = .next t → t.Inv
end

