-- ==== Sys2Proof/Laws/Decode.lean ====
section
/-! SUPPORT. The decoder's lemmas: what each opcode decodes as, and the arithmetic of fields and appended fields. -/

namespace Sys2Proof

/-! ## Fields as numbers -/

theorem append_toNat {v w : Nat} (x : BitVec v) (y : BitVec w) : (x ++ y).toNat = x.toNat * 2 ^ w + y.toNat := by
  rw [BitVec.toNat_append, Nat.shiftLeft_eq, ← Nat.shiftLeft_eq, Nat.shiftLeft_add_eq_or_of_lt y.isLt]

theorem field_toNat {n : Nat} (w : BitVec n) (start len : Nat) : (w.extractLsb' start len).toNat = w.toNat / 2 ^ start % 2 ^ len := by
  simp [BitVec.extractLsb'_toNat, Nat.shiftRight_eq_div_pow]

theorem opcodeOf_toNat (w : Word) : (opcodeOf w).toNat = w.toNat / 2 ^ 24 := by
  have := w.isLt
  rw [opcodeOf, field_toNat]
  omega

/-! ## One lemma per opcode (R106) -/

theorem decode_nop {w : Word} (h : opcodeOf w = 0x00) : decode w = decodeZ w .nop := by simp [decode, h]
theorem decode_regRd {w : Word} (h : opcodeOf w = 0x01) : decode w = decodeR0 w .regRd := by simp [decode, h]
theorem decode_regWr {w : Word} (h : opcodeOf w = 0x02) : decode w = decodeR w .regWr := by simp [decode, h]
theorem decode_crcSeed {w : Word} (h : opcodeOf w = 0x10) : decode w = decodeZ w .crcSeed := by simp [decode, h]
theorem decode_crcUpd {w : Word} (h : opcodeOf w = 0x11) : decode w = decodeB w .crcUpd := by simp [decode, h]
theorem decode_tbRd {w : Word} (h : opcodeOf w = 0x20) : decode w = decodeA0 w .tbRd := by simp [decode, h]
theorem decode_tbWr {w : Word} (h : opcodeOf w = 0x21) : decode w = decodeA w .tbWr := by simp [decode, h]
theorem decode_trkRd {w : Word} (h : opcodeOf w = 0x22) : decode w = decodeI w .trkRd := by simp [decode, h]
theorem decode_pbRd {w : Word} (h : opcodeOf w = 0x23) : decode w = decodeA0 w .pbRd := by simp [decode, h]
theorem decode_pbWr {w : Word} (h : opcodeOf w = 0x24) : decode w = decodeA w .pbWr := by simp [decode, h]
theorem decode_encTrack {w : Word} (h : opcodeOf w = 0x30) : decode w = decodeZ w .encTrack := by simp [decode, h]
theorem decode_scanStart {w : Word} (h : opcodeOf w = 0x40) : decode w = decodeZ w .scanStart := by simp [decode, h]
theorem decode_scanNext {w : Word} (h : opcodeOf w = 0x41) : decode w = decodeZ w .scanNext := by simp [decode, h]
theorem decode_gapClr {w : Word} (h : opcodeOf w = 0x50) : decode w = decodeZ w .gapClr := by simp [decode, h]
theorem decode_gapAdd {w : Word} (h : opcodeOf w = 0x51) : decode w = decodeZ w .gapAdd := by simp [decode, h]
theorem decode_gapFind {w : Word} (h : opcodeOf w = 0x52) : decode w = decodeZ w .gapFind := by simp [decode, h]
theorem decode_adjStep {w : Word} (h : opcodeOf w = 0x60) : decode w = decodeZ w .adjStep := by simp [decode, h]
theorem decode_adjRun {w : Word} (h : opcodeOf w = 0x61) : decode w = decodeZ w .adjRun := by simp [decode, h]

/-! ## What a format accepts -/

theorem ifZeroField_ok {n : Nat} {field : BitVec n} {i j : Instr} : ifZeroField field i = .ok j ↔ field = 0 ∧ i = j := by
  unfold ifZeroField
  split <;> simp_all

theorem decodeA0_ok {w : Word} {f : BitVec 14 → Instr} {j : Instr} :
    decodeA0 w f = .ok j ↔ w.extractLsb' 22 2 = 0 ∧ w.extractLsb' 0 8 = 0 ∧ f (w.extractLsb' 8 14) = j := by
  unfold decodeA0
  split <;> simp_all [ifZeroField_ok]

/-- Everything `decode` can accept: one row of R106, its must-be-zero fields 0, its operands the fields R111 names. -/
theorem decode_ok_cases {w : Word} {i : Instr} (h : decode w = .ok i) :
    (opcodeOf w = 0x00 ∧ decodeZ w .nop = .ok i) ∨ (opcodeOf w = 0x01 ∧ decodeR0 w .regRd = .ok i) ∨
    (opcodeOf w = 0x02 ∧ decodeR w .regWr = .ok i) ∨ (opcodeOf w = 0x10 ∧ decodeZ w .crcSeed = .ok i) ∨
    (opcodeOf w = 0x11 ∧ decodeB w .crcUpd = .ok i) ∨ (opcodeOf w = 0x20 ∧ decodeA0 w .tbRd = .ok i) ∨
    (opcodeOf w = 0x21 ∧ decodeA w .tbWr = .ok i) ∨ (opcodeOf w = 0x22 ∧ decodeI w .trkRd = .ok i) ∨
    (opcodeOf w = 0x23 ∧ decodeA0 w .pbRd = .ok i) ∨ (opcodeOf w = 0x24 ∧ decodeA w .pbWr = .ok i) ∨
    (opcodeOf w = 0x30 ∧ decodeZ w .encTrack = .ok i) ∨ (opcodeOf w = 0x40 ∧ decodeZ w .scanStart = .ok i) ∨
    (opcodeOf w = 0x41 ∧ decodeZ w .scanNext = .ok i) ∨ (opcodeOf w = 0x50 ∧ decodeZ w .gapClr = .ok i) ∨
    (opcodeOf w = 0x51 ∧ decodeZ w .gapAdd = .ok i) ∨ (opcodeOf w = 0x52 ∧ decodeZ w .gapFind = .ok i) ∨
    (opcodeOf w = 0x60 ∧ decodeZ w .adjStep = .ok i) ∨ (opcodeOf w = 0x61 ∧ decodeZ w .adjRun = .ok i) := by
  by_cases h0 : opcodeOf w = 0x00
  · exact .inl ⟨h0, decode_nop h0 ▸ h⟩
  refine .inr ?_
  by_cases h1 : opcodeOf w = 0x01
  · exact .inl ⟨h1, decode_regRd h1 ▸ h⟩
  refine .inr ?_
  by_cases h2 : opcodeOf w = 0x02
  · exact .inl ⟨h2, decode_regWr h2 ▸ h⟩
  refine .inr ?_
  by_cases h3 : opcodeOf w = 0x10
  · exact .inl ⟨h3, decode_crcSeed h3 ▸ h⟩
  refine .inr ?_
  by_cases h4 : opcodeOf w = 0x11
  · exact .inl ⟨h4, decode_crcUpd h4 ▸ h⟩
  refine .inr ?_
  by_cases h5 : opcodeOf w = 0x20
  · exact .inl ⟨h5, decode_tbRd h5 ▸ h⟩
  refine .inr ?_
  by_cases h6 : opcodeOf w = 0x21
  · exact .inl ⟨h6, decode_tbWr h6 ▸ h⟩
  refine .inr ?_
  by_cases h7 : opcodeOf w = 0x22
  · exact .inl ⟨h7, decode_trkRd h7 ▸ h⟩
  refine .inr ?_
  by_cases h8 : opcodeOf w = 0x23
  · exact .inl ⟨h8, decode_pbRd h8 ▸ h⟩
  refine .inr ?_
  by_cases h9 : opcodeOf w = 0x24
  · exact .inl ⟨h9, decode_pbWr h9 ▸ h⟩
  refine .inr ?_
  by_cases h10 : opcodeOf w = 0x30
  · exact .inl ⟨h10, decode_encTrack h10 ▸ h⟩
  refine .inr ?_
  by_cases h11 : opcodeOf w = 0x40
  · exact .inl ⟨h11, decode_scanStart h11 ▸ h⟩
  refine .inr ?_
  by_cases h12 : opcodeOf w = 0x41
  · exact .inl ⟨h12, decode_scanNext h12 ▸ h⟩
  refine .inr ?_
  by_cases h13 : opcodeOf w = 0x50
  · exact .inl ⟨h13, decode_gapClr h13 ▸ h⟩
  refine .inr ?_
  by_cases h14 : opcodeOf w = 0x51
  · exact .inl ⟨h14, decode_gapAdd h14 ▸ h⟩
  refine .inr ?_
  by_cases h15 : opcodeOf w = 0x52
  · exact .inl ⟨h15, decode_gapFind h15 ▸ h⟩
  refine .inr ?_
  by_cases h16 : opcodeOf w = 0x60
  · exact .inl ⟨h16, decode_adjStep h16 ▸ h⟩
  refine .inr ?_
  by_cases h17 : opcodeOf w = 0x61
  · exact ⟨h17, decode_adjRun h17 ▸ h⟩
  unfold decode at h
  rw [if_neg h0, if_neg h1, if_neg h2, if_neg h3, if_neg h4, if_neg h5, if_neg h6, if_neg h7, if_neg h8, if_neg h9, if_neg h10, if_neg h11, if_neg h12, if_neg h13, if_neg h14, if_neg h15, if_neg h16, if_neg h17] at h
  exact nomatch h

/-! ## What the encoder lays out (R109) -/

theorem encode_regRd_toNat (r : BitVec 8) : (encode (.regRd r)).toNat = 0x01000000 + r.toNat * 0x10000 := by
  simp only [encode, append_toNat, BitVec.toNat_ofNat]
  omega

theorem encode_regWr_toNat (r : BitVec 8) (v : Half) : (encode (.regWr r v)).toNat = 0x02000000 + r.toNat * 0x10000 + v.toNat := by
  simp only [encode, append_toNat, BitVec.toNat_ofNat]
  omega

theorem encode_crcUpd_toNat (b : Byte) : (encode (.crcUpd b)).toNat = 0x11000000 + b.toNat := by
  simp only [encode, append_toNat, BitVec.toNat_ofNat]
  omega

theorem encode_tbRd_toNat (a : BitVec 14) : (encode (.tbRd a)).toNat = 0x20000000 + a.toNat * 0x100 := by
  simp only [encode, append_toNat, BitVec.toNat_ofNat]
  omega

theorem encode_tbWr_toNat (a : BitVec 14) (b : Byte) : (encode (.tbWr a b)).toNat = 0x21000000 + a.toNat * 0x100 + b.toNat := by
  simp only [encode, append_toNat, BitVec.toNat_ofNat]
  omega

theorem encode_pbRd_toNat (a : BitVec 14) : (encode (.pbRd a)).toNat = 0x23000000 + a.toNat * 0x100 := by
  simp only [encode, append_toNat, BitVec.toNat_ofNat]
  omega

theorem encode_pbWr_toNat (a : BitVec 14) (b : Byte) : (encode (.pbWr a b)).toNat = 0x24000000 + a.toNat * 0x100 + b.toNat := by
  simp only [encode, append_toNat, BitVec.toNat_ofNat]
  omega

theorem encode_trkRd_toNat (idx : Int) : ((encode (.trkRd idx)).toNat : Int) = 0x22000000 + idx % 0x1000000 := by
  simp only [encode, append_toNat, BitVec.toNat_ofNat, BitVec.toNat_ofInt]
  omega

end Sys2Proof
end

