-- ==== Sys2Proof/Laws/State.lean ====
section
/-! SUPPORT. What each shared update of State leaves in each field: the answer to the host (`answered`), fault entry (`takeFault`), the halted
refusal (`refused`). Other updates are written out where they stand, and their fields reduce by themselves. -/

namespace Sys2Proof.Machine

@[simp] theorem State.answered_faultV (s : State) (r : Word) : (s.answered r).faultV = s.faultV := rfl
@[simp] theorem State.answered_faultCode (s : State) (r : Word) : (s.answered r).faultCode = s.faultCode := rfl
@[simp] theorem State.answered_finfo (s : State) (r : Word) : (s.answered r).finfo = s.finfo := rfl
@[simp] theorem State.answered_mode (s : State) (r : Word) : (s.answered r).mode = s.mode := rfl
@[simp] theorem State.answered_trklen (s : State) (r : Word) : (s.answered r).trklen = s.trklen := rfl
@[simp] theorem State.answered_crc (s : State) (r : Word) : (s.answered r).crc = s.crc := rfl
@[simp] theorem State.answered_data (s : State) (r : Word) : (s.answered r).data = s.data := rfl
@[simp] theorem State.answered_target (s : State) (r : Word) : (s.answered r).target = s.target := rfl
@[simp] theorem State.answered_enc (s : State) (r : Word) : (s.answered r).enc = s.enc := rfl
@[simp] theorem State.answered_slot (s : State) (r : Word) : (s.answered r).slot = s.slot := rfl
@[simp] theorem State.answered_scandone (s : State) (r : Word) : (s.answered r).scandone = s.scandone := rfl
@[simp] theorem State.answered_scan (s : State) (r : Word) : (s.answered r).scan = s.scan := rfl
@[simp] theorem State.answered_ivs (s : State) (r : Word) : (s.answered r).ivs = s.ivs := rfl
@[simp] theorem State.answered_ive (s : State) (r : Word) : (s.answered r).ive = s.ive := rfl
@[simp] theorem State.answered_ivcnt (s : State) (r : Word) : (s.answered r).ivcnt = s.ivcnt := rfl
@[simp] theorem State.answered_iv (s : State) (r : Word) : (s.answered r).iv = s.iv := rfl
@[simp] theorem State.answered_gap (s : State) (r : Word) : (s.answered r).gap = s.gap := rfl
@[simp] theorem State.answered_tb (s : State) (r : Word) : (s.answered r).tb = s.tb := rfl
@[simp] theorem State.answered_pb (s : State) (r : Word) : (s.answered r).pb = s.pb := rfl
@[simp] theorem State.answered_draw (s : State) (r : Word) : (s.answered r).draw = s.draw := rfl
@[simp] theorem State.answered_input (s : State) (r : Word) : (s.answered r).input = s.input := rfl
@[simp] theorem State.answered_resp (s : State) (r : Word) : (s.answered r).resp = some r := rfl

@[simp] theorem State.takeFault_faultV (s : State) (c : FaultCode) (i : Nat) : (s.takeFault c i).faultV = true := rfl
@[simp] theorem State.takeFault_faultCode (s : State) (c : FaultCode) (i : Nat) : (s.takeFault c i).faultCode = c.num := rfl
@[simp] theorem State.takeFault_finfo (s : State) (c : FaultCode) (i : Nat) : (s.takeFault c i).finfo = BitVec.ofNat 16 i := rfl
@[simp] theorem State.takeFault_mode (s : State) (c : FaultCode) (i : Nat) : (s.takeFault c i).mode = s.mode := rfl
@[simp] theorem State.takeFault_trklen (s : State) (c : FaultCode) (i : Nat) : (s.takeFault c i).trklen = s.trklen := rfl
@[simp] theorem State.takeFault_crc (s : State) (c : FaultCode) (i : Nat) : (s.takeFault c i).crc = s.crc := rfl
@[simp] theorem State.takeFault_data (s : State) (c : FaultCode) (i : Nat) : (s.takeFault c i).data = s.data := rfl
@[simp] theorem State.takeFault_target (s : State) (c : FaultCode) (i : Nat) : (s.takeFault c i).target = s.target := rfl
@[simp] theorem State.takeFault_enc (s : State) (c : FaultCode) (i : Nat) : (s.takeFault c i).enc = s.enc := rfl
@[simp] theorem State.takeFault_slot (s : State) (c : FaultCode) (i : Nat) : (s.takeFault c i).slot = s.slot := rfl
@[simp] theorem State.takeFault_scandone (s : State) (c : FaultCode) (i : Nat) : (s.takeFault c i).scandone = s.scandone := rfl
@[simp] theorem State.takeFault_scan (s : State) (c : FaultCode) (i : Nat) : (s.takeFault c i).scan = s.scan := rfl
@[simp] theorem State.takeFault_ivs (s : State) (c : FaultCode) (i : Nat) : (s.takeFault c i).ivs = s.ivs := rfl
@[simp] theorem State.takeFault_ive (s : State) (c : FaultCode) (i : Nat) : (s.takeFault c i).ive = s.ive := rfl
@[simp] theorem State.takeFault_ivcnt (s : State) (c : FaultCode) (i : Nat) : (s.takeFault c i).ivcnt = s.ivcnt := rfl
@[simp] theorem State.takeFault_iv (s : State) (c : FaultCode) (i : Nat) : (s.takeFault c i).iv = s.iv := rfl
@[simp] theorem State.takeFault_gap (s : State) (c : FaultCode) (i : Nat) : (s.takeFault c i).gap = s.gap := rfl
@[simp] theorem State.takeFault_tb (s : State) (c : FaultCode) (i : Nat) : (s.takeFault c i).tb = s.tb := rfl
@[simp] theorem State.takeFault_pb (s : State) (c : FaultCode) (i : Nat) : (s.takeFault c i).pb = s.pb := rfl
@[simp] theorem State.takeFault_draw (s : State) (c : FaultCode) (i : Nat) : (s.takeFault c i).draw = s.draw := rfl
@[simp] theorem State.takeFault_input (s : State) (c : FaultCode) (i : Nat) : (s.takeFault c i).input = s.input := rfl
@[simp] theorem State.takeFault_resp (s : State) (c : FaultCode) (i : Nat) : (s.takeFault c i).resp = some (faultResponse c.num) := rfl

@[simp] theorem State.refused_faultV (s : State) : (s.refused).faultV = s.faultV := rfl
@[simp] theorem State.refused_faultCode (s : State) : (s.refused).faultCode = s.faultCode := rfl
@[simp] theorem State.refused_finfo (s : State) : (s.refused).finfo = s.finfo := rfl
@[simp] theorem State.refused_mode (s : State) : (s.refused).mode = s.mode := rfl
@[simp] theorem State.refused_trklen (s : State) : (s.refused).trklen = s.trklen := rfl
@[simp] theorem State.refused_crc (s : State) : (s.refused).crc = s.crc := rfl
@[simp] theorem State.refused_data (s : State) : (s.refused).data = s.data := rfl
@[simp] theorem State.refused_target (s : State) : (s.refused).target = s.target := rfl
@[simp] theorem State.refused_enc (s : State) : (s.refused).enc = s.enc := rfl
@[simp] theorem State.refused_slot (s : State) : (s.refused).slot = s.slot := rfl
@[simp] theorem State.refused_scandone (s : State) : (s.refused).scandone = s.scandone := rfl
@[simp] theorem State.refused_scan (s : State) : (s.refused).scan = s.scan := rfl
@[simp] theorem State.refused_ivs (s : State) : (s.refused).ivs = s.ivs := rfl
@[simp] theorem State.refused_ive (s : State) : (s.refused).ive = s.ive := rfl
@[simp] theorem State.refused_ivcnt (s : State) : (s.refused).ivcnt = s.ivcnt := rfl
@[simp] theorem State.refused_iv (s : State) : (s.refused).iv = s.iv := rfl
@[simp] theorem State.refused_gap (s : State) : (s.refused).gap = s.gap := rfl
@[simp] theorem State.refused_tb (s : State) : (s.refused).tb = s.tb := rfl
@[simp] theorem State.refused_pb (s : State) : (s.refused).pb = s.pb := rfl
@[simp] theorem State.refused_draw (s : State) : (s.refused).draw = s.draw := rfl
@[simp] theorem State.refused_input (s : State) : (s.refused).input = s.input := rfl
@[simp] theorem State.refused_resp (s : State) : (s.refused).resp = some (faultResponse s.faultCode) := rfl

/-! ## Views of the state that do not read RESP or FAULT -/

@[simp] theorem State.answered_tbByte (s : State) (r : Word) (a : Nat) : (s.answered r).tbByte a = s.tbByte a := rfl
@[simp] theorem State.answered_pbByte (s : State) (r : Word) (a : Nat) : (s.answered r).pbByte a = s.pbByte a := rfl
@[simp] theorem State.answered_pt (s : State) (r : Word) (k : Nat) : (s.answered r).pt k = s.pt k := rfl
@[simp] theorem State.answered_validLen (s : State) (r : Word) : (s.answered r).validLen = s.validLen := rfl
@[simp] theorem State.answered_dataLen (s : State) (r : Word) : (s.answered r).dataLen = s.dataLen := rfl
@[simp] theorem State.answered_rd (s : State) (r : Word) (i : Int) : (s.answered r).rd i = s.rd i := rfl
@[simp] theorem State.answered_readReg (s : State) (r : Word) (g : Reg) : (s.answered r).readReg g = s.readReg g := by
  cases g <;> rfl
@[simp] theorem State.takeFault_tbByte (s : State) (c : FaultCode) (i a : Nat) : (s.takeFault c i).tbByte a = s.tbByte a := rfl
@[simp] theorem State.takeFault_pbByte (s : State) (c : FaultCode) (i a : Nat) : (s.takeFault c i).pbByte a = s.pbByte a := rfl
@[simp] theorem State.refused_readReg (s : State) (g : Reg) : s.refused.readReg g = s.readReg g := by cases g <;> rfl

/-- The read of one byte depends on the buffer and the draw alone. -/
theorem State.tbByte_congr {s t : State} (ht : t.tb = s.tb) (hd : t.draw = s.draw) (a : Nat) : t.tbByte a = s.tbByte a := by
  simp [State.tbByte, ht, hd]

/-- The circular read depends on the buffer, the draw and TRKLEN alone. -/
theorem State.rd_congr {s t : State} (ht : t.tb = s.tb) (hd : t.draw = s.draw) (hl : t.trklen = s.trklen) (i : Int) :
    t.rd i = s.rd i := by
  unfold State.rd State.wrap State.dataLen
  rw [hl, State.tbByte_congr ht hd]

end Sys2Proof.Machine
end

