-- ==== Sys2Proof/Laws/Guards.lean ====
section
/-! SUPPORT. What the shared checks of the commands can do (halt, ValidLen, the address and TARGET ranges), what an answer and a fault are, and
the three forms of a step. -/

namespace Sys2Proof.Machine

/-! ## Answers and faults -/

@[simp] theorem State.answer_next {s t : State} {r : Word} : s.answer r = .next t ↔ t = s.answered r := by
  unfold State.answer
  constructor
  · intro h; cases h; rfl
  · rintro rfl; rfl

@[simp] theorem State.raise_next {s t : State} {c : FaultCode} {n : Nat} : s.raise c n = .next t ↔ t = s.takeFault c n := by
  unfold State.raise
  constructor
  · intro h; cases h; rfl
  · rintro rfl; rfl

/-- Every code a rule raises but E_NOCONV, which none does (R251). -/
theorem FaultCode.raisable {c : FaultCode} (h : c ≠ .noConv) : raisableCode c.num := by cases c <;> simp_all [FaultCode.num, raisableCode]

/-! ## The halt test (R257) -/

@[simp] theorem State.whenRunning_running {s : State} (h : s.faultV = false) (k : Unit → Result) : s.whenRunning k = k () := by
  simp [State.whenRunning, h]

@[simp] theorem State.whenRunning_halted {s : State} (h : s.faultV = true) (k : Unit → Result) : s.whenRunning k = .next s.refused := by
  simp [State.whenRunning, h]

theorem State.whenRunning_cases {s t : State} {k : Unit → Result} (h : s.whenRunning k = .next t) :
    (s.faultV = true ∧ t = s.refused) ∨ (s.faultV = false ∧ k () = .next t) := by
  cases hf : s.faultV
  · exact .inr ⟨rfl, by simpa [hf] using h⟩
  · rw [State.whenRunning_halted hf] at h
    cases h
    exact .inl ⟨rfl, rfl⟩

/-! ## The track length (R25, R145) -/

theorem State.validLen_iff {s : State} : s.validLen = true ↔ 128 < s.trklen.toNat ∧ s.trklen.toNat < 0x4000 := by
  simp [State.validLen]

theorem State.validLen_false {s : State} : s.validLen = false ↔ s.trklen.toNat ≤ 128 ∨ 0x4000 ≤ s.trklen.toNat := by
  rw [← Bool.not_eq_true, State.validLen_iff]
  omega

@[simp] theorem State.whenValidLen_valid {s : State} (h : s.validLen = true) (k : Unit → Result) : s.whenValidLen k = k () := by
  simp [State.whenValidLen, h]

@[simp] theorem State.whenValidLen_bad {s : State} (h : s.validLen = false) (k : Unit → Result) :
    s.whenValidLen k = s.raise .badLen s.trklen.toNat := by
  simp [State.whenValidLen, h]

theorem State.whenValidLen_cases {s t : State} {k : Unit → Result} (h : s.whenValidLen k = .next t) :
    (s.validLen = false ∧ t = s.takeFault .badLen s.trklen.toNat) ∨ (s.validLen = true ∧ k () = .next t) := by
  cases hv : s.validLen
  · rw [State.whenValidLen_bad hv, State.raise_next] at h
    exact .inl ⟨rfl, h⟩
  · exact .inr ⟨rfl, State.whenValidLen_valid hv k ▸ h⟩

/-- The length of the data region of a legal track (R25, R61). -/
theorem State.dataLen_bounds {s : State} (h : s.validLen = true) :
    1 ≤ s.dataLen ∧ s.dataLen ≤ 16255 ∧ s.dataLen + 128 = s.trklen.toNat := by
  obtain ⟨h1, h2⟩ := State.validLen_iff.mp h
  have hl : s.dataLen = s.trklen.toNat - 128 := rfl
  refine ⟨?_, ?_, ?_⟩ <;> omega

/-- A circular index is below the length of the data region (R64). -/
theorem State.wrap_lt {s : State} (h : s.validLen = true) (i : Int) : s.wrap i < s.dataLen := by
  have := State.dataLen_bounds h
  have h0 : (s.dataLen : Int) ≠ 0 := by omega
  have h1 := Int.emod_nonneg i h0
  have h2 := Int.emod_lt_of_pos i (show (0 : Int) < s.dataLen by omega)
  simp only [State.wrap]
  omega

/-! ## Illegal words, track addresses, TARGET -/

theorem State.illegalWord_cases {s t : State} {v : Half} (h : s.illegalWord v = .next t) :
    (s.faultV = true ∧ t = s.refused) ∨ (s.faultV = false ∧ t = s.takeFault .illegal v.toNat) := by
  rcases State.whenRunning_cases h with h | ⟨hr, h⟩
  · exact .inl h
  · exact .inr ⟨hr, State.raise_next.mp h⟩

theorem State.whenTrackAddr_cases {s t : State} {a : BitVec 14} {k : Unit → Result} (h : s.whenTrackAddr a k = .next t) :
    (s.faultV = true ∧ t = s.refused) ∨
    (s.faultV = false ∧ s.validLen = false ∧ t = s.takeFault .badLen s.trklen.toNat) ∨
    (s.faultV = false ∧ s.validLen = true ∧ s.trklen.toNat ≤ a.toNat ∧ t = s.takeFault .range a.toNat) ∨
    (s.faultV = false ∧ s.validLen = true ∧ a.toNat < s.trklen.toNat ∧ k () = .next t) := by
  unfold State.whenTrackAddr at h
  rcases State.whenRunning_cases h with h | ⟨hr, h⟩
  · exact .inl h
  rcases State.whenValidLen_cases h with ⟨hv, h⟩ | ⟨hv, h⟩
  · exact .inr (.inl ⟨hr, hv, h⟩)
  split at h
  · next ha => exact .inr (.inr (.inl ⟨hr, hv, ha, State.raise_next.mp h⟩))
  · next ha => exact .inr (.inr (.inr ⟨hr, hv, by omega, h⟩))

theorem State.whenTarget_cases {s t : State} {k : Unit → Result} (h : s.whenTarget k = .next t) :
    (s.faultV = true ∧ t = s.refused) ∨
    (s.faultV = false ∧ s.validLen = false ∧ t = s.takeFault .badLen s.trklen.toNat) ∨
    (s.faultV = false ∧ s.validLen = true ∧ (s.target.toNat < 1 ∨ 16255 < s.target.toNat) ∧ t = s.takeFault .range s.target.toNat) ∨
    (s.faultV = false ∧ s.validLen = true ∧ 1 ≤ s.target.toNat ∧ s.target.toNat ≤ 16255 ∧ k () = .next t) := by
  unfold State.whenTarget at h
  rcases State.whenRunning_cases h with h | ⟨hr, h⟩
  · exact .inl h
  rcases State.whenValidLen_cases h with ⟨hv, h⟩ | ⟨hv, h⟩
  · exact .inr (.inl ⟨hr, hv, h⟩)
  split at h
  · next ha => exact .inr (.inr (.inl ⟨hr, hv, ha, State.raise_next.mp h⟩))
  · next ha => exact .inr (.inr (.inr ⟨hr, hv, by omega, by omega, h⟩))

/-! ## The three forms of a step -/

theorem step_idle {s : State} (h : s.input = []) : step s = .next s := by simp [step, State.takeInput, h]

theorem step_reset {s : State} {rest : List HostEvent} (h : s.input = .reset :: rest) :
    step s = .next (State.resetEvent { s with input := rest }) := by simp [step, State.takeInput, h]

theorem step_command {s : State} {w : Word} {rest : List HostEvent} (h : s.input = .command w :: rest) :
    step s = runWord w { s with input := rest } := by simp [step, State.takeInput, h]

/-! ## The register numbers (R21) -/

/-- The register file is searched by number, and no two registers share one. -/
theorem Reg.ofNum_num (g : Reg) : Reg.ofNum g.num = some g := by
  cases g
  case rtab i => revert i; decide
  all_goals decide

theorem Reg.num_of_ofNum {r : BitVec 8} {g : Reg} (h : Reg.ofNum r = some g) : g.num = r := by
  have := List.find?_some h
  simpa using this

end Sys2Proof.Machine
end

