-- ==== Sys2Proof/Laws/Exec.lean ====
section
/-! SUPPORT. One inversion lemma per command: if it answers a next state, which of its cases made that state. Proofs about commands cite these
and unfold no meaning. -/

namespace Sys2Proof.Machine

/-! ## The dispatch: one equation per command -/

@[simp] theorem exec_nop (s : State) : exec .nop s = execNop s := rfl
@[simp] theorem exec_regRd (r : BitVec 8) (s : State) : exec (.regRd r) s = execRegRd r s := rfl
@[simp] theorem exec_regWr (r : BitVec 8) (v : Half) (s : State) : exec (.regWr r v) s = execRegWr r v s := rfl
@[simp] theorem exec_crcSeed (s : State) : exec .crcSeed s = execCrcSeed s := rfl
@[simp] theorem exec_crcUpd (b : Byte) (s : State) : exec (.crcUpd b) s = execCrcUpd b s := rfl
@[simp] theorem exec_tbRd (addr : BitVec 14) (s : State) : exec (.tbRd addr) s = execTbRd addr s := rfl
@[simp] theorem exec_tbWr (addr : BitVec 14) (b : Byte) (s : State) : exec (.tbWr addr b) s = execTbWr addr b s := rfl
@[simp] theorem exec_trkRd (idx : Int) (s : State) : exec (.trkRd idx) s = execTrkRd idx s := rfl
@[simp] theorem exec_pbRd (addr : BitVec 14) (s : State) : exec (.pbRd addr) s = execPbRd addr s := rfl
@[simp] theorem exec_pbWr (addr : BitVec 14) (b : Byte) (s : State) : exec (.pbWr addr b) s = execPbWr addr b s := rfl
@[simp] theorem exec_encTrack (s : State) : exec .encTrack s = execEncTrack s := rfl
@[simp] theorem exec_scanStart (s : State) : exec .scanStart s = execScanStart s := rfl
@[simp] theorem exec_scanNext (s : State) : exec .scanNext s = execScanNext s := rfl
@[simp] theorem exec_gapClr (s : State) : exec .gapClr s = execGapClr s := rfl
@[simp] theorem exec_gapAdd (s : State) : exec .gapAdd s = execGapAdd s := rfl
@[simp] theorem exec_gapFind (s : State) : exec .gapFind s = execGapFind s := rfl
@[simp] theorem exec_adjStep (s : State) : exec .adjStep s = execAdjStep s := rfl
@[simp] theorem exec_adjRun (s : State) : exec .adjRun s = execAdjRun s := rfl

variable {s t : State}

/-! ## System -/

theorem execNop_cases (h : execNop s = .next t) :
    (s.faultV = true ∧ t = s.refused) ∨ (s.faultV = false ∧ t = s.answered 0) := by
  unfold execNop at h
  split at h
  · next hf => exact .inl ⟨hf, State.answer_next.mp h⟩
  · next hf => exact .inr ⟨by simpa using hf, State.answer_next.mp h⟩

theorem execRegRd_cases {r : BitVec 8} (h : execRegRd r s = .next t) :
    (∃ g : Reg, g.num = r ∧ t = s.answered ((s.readReg g).setWidth 32)) ∨
    (Reg.ofNum r = none ∧ s.faultV = true ∧ t = s.refused) ∨
    (Reg.ofNum r = none ∧ s.faultV = false ∧ t = s.takeFault .illegal (wordHigh (encode (.regRd r))).toNat) := by
  unfold execRegRd at h
  split at h
  · next g hg => exact .inl ⟨g, Reg.num_of_ofNum hg, State.answer_next.mp h⟩
  · next hn =>
    rcases State.illegalWord_cases h with ⟨hf, h⟩ | ⟨hf, h⟩
    · exact .inr (.inl ⟨hn, hf, h⟩)
    · exact .inr (.inr ⟨hn, hf, h⟩)

theorem execRegWr_cases {r : BitVec 8} {v : Half} (h : execRegWr r v s = .next t) :
    (s.faultV = true ∧ t = s.refused) ∨
    (s.faultV = false ∧ ∃ g : Reg, g.num = r ∧ g.writable = true ∧ t = (s.writeReg g v).answered 0) ∨
    (s.faultV = false ∧ t = s.takeFault .illegal (wordHigh (encode (.regWr r v))).toNat) := by
  unfold execRegWr at h
  rcases State.whenRunning_cases h with h | ⟨hr, h⟩
  · exact .inl h
  have bad : s.illegalWord (wordHigh (encode (.regWr r v))) = .next t →
      s.faultV = false ∧ t = s.takeFault .illegal (wordHigh (encode (.regWr r v))).toNat := by
    intro h
    rcases State.illegalWord_cases h with ⟨hf, _⟩ | h
    · simp [hf] at hr
    · exact h
  split at h
  · next g hg =>
    split at h
    · next hw => exact .inr (.inl ⟨hr, g, Reg.num_of_ofNum hg, hw, State.answer_next.mp h⟩)
    · exact .inr (.inr (bad h))
  · exact .inr (.inr (bad h))

/-! ## CRC -/

theorem execCrcSeed_cases (h : execCrcSeed s = .next t) :
    (s.faultV = true ∧ t = s.refused) ∨ (s.faultV = false ∧ t = State.answered { s with crc := 0xFFFF } 0xFFFF) := by
  rcases State.whenRunning_cases h with h | ⟨hr, h⟩
  · exact .inl h
  · exact .inr ⟨hr, State.answer_next.mp h⟩

theorem execCrcUpd_cases {b : Byte} (h : execCrcUpd b s = .next t) :
    (s.faultV = true ∧ t = s.refused) ∨
    (s.faultV = false ∧ t = State.answered { s with crc := crc16Update s.crc b } ((crc16Update s.crc b).setWidth 32)) := by
  rcases State.whenRunning_cases h with h | ⟨hr, h⟩
  · exact .inl h
  · exact .inr ⟨hr, State.answer_next.mp h⟩

/-! ## Buffer access -/

theorem State.deliver_next {b : Byte} : s.deliver b = .next t ↔ t = State.answered { s with data := b } (b.setWidth 32) :=
  State.answer_next

theorem execTbRd_cases {a : BitVec 14} (h : execTbRd a s = .next t) :
    (s.faultV = true ∧ t = s.refused) ∨
    (s.faultV = false ∧ s.validLen = false ∧ t = s.takeFault .badLen s.trklen.toNat) ∨
    (s.faultV = false ∧ s.validLen = true ∧ s.trklen.toNat ≤ a.toNat ∧ t = s.takeFault .range a.toNat) ∨
    (s.faultV = false ∧ s.validLen = true ∧ a.toNat < s.trklen.toNat ∧
      t = State.answered { s with data := s.tbByte a.toNat } ((s.tbByte a.toNat).setWidth 32)) := by
  rcases State.whenTrackAddr_cases h with h | h | h | ⟨h1, h2, h3, h⟩
  · exact .inl h
  · exact .inr (.inl h)
  · exact .inr (.inr (.inl h))
  · exact .inr (.inr (.inr ⟨h1, h2, h3, State.deliver_next.mp h⟩))

theorem execTbWr_cases {a : BitVec 14} {b : Byte} (h : execTbWr a b s = .next t) :
    (s.faultV = true ∧ t = s.refused) ∨
    (s.faultV = false ∧ s.validLen = false ∧ t = s.takeFault .badLen s.trklen.toNat) ∨
    (s.faultV = false ∧ s.validLen = true ∧ s.trklen.toNat ≤ a.toNat ∧ t = s.takeFault .range a.toNat) ∨
    (s.faultV = false ∧ s.validLen = true ∧ a.toNat < s.trklen.toNat ∧
      t = State.answered { s with tb := s.tb.write a.toNat [b] } 0) := by
  rcases State.whenTrackAddr_cases h with h | h | h | ⟨h1, h2, h3, h⟩
  · exact .inl h
  · exact .inr (.inl h)
  · exact .inr (.inr (.inl h))
  · exact .inr (.inr (.inr ⟨h1, h2, h3, State.answer_next.mp h⟩))

theorem execTrkRd_cases {i : Int} (h : execTrkRd i s = .next t) :
    (s.faultV = true ∧ t = s.refused) ∨
    (s.faultV = false ∧ s.validLen = false ∧ t = s.takeFault .badLen s.trklen.toNat) ∨
    (s.faultV = false ∧ s.validLen = true ∧ t = State.answered { s with data := s.rd i } ((s.rd i).setWidth 32)) := by
  rcases State.whenRunning_cases h with h | ⟨hr, h⟩
  · exact .inl h
  rcases State.whenValidLen_cases h with ⟨hv, h⟩ | ⟨hv, h⟩
  · exact .inr (.inl ⟨hr, hv, h⟩)
  · exact .inr (.inr ⟨hr, hv, State.deliver_next.mp h⟩)

theorem execPbRd_cases {a : BitVec 14} (h : execPbRd a s = .next t) :
    (s.faultV = true ∧ t = s.refused) ∨
    (s.faultV = false ∧ t = State.answered { s with data := s.pbByte a.toNat } ((s.pbByte a.toNat).setWidth 32)) := by
  rcases State.whenRunning_cases h with h | ⟨hr, h⟩
  · exact .inl h
  · exact .inr ⟨hr, State.deliver_next.mp h⟩

theorem execPbWr_cases {a : BitVec 14} {b : Byte} (h : execPbWr a b s = .next t) :
    (s.faultV = true ∧ t = s.refused) ∨ (s.faultV = false ∧ t = State.answered { s with pb := s.pb.write a.toNat [b] } 0) := by
  rcases State.whenRunning_cases h with h | ⟨hr, h⟩
  · exact .inl h
  · exact .inr ⟨hr, State.answer_next.mp h⟩

/-! ## Synthesizer -/

/-- What the three checks after ValidLen say when none of them fails (R152). -/
theorem State.encChecks_none : s.encChecks = none ↔
    s.enc.spt.toNat ≤ 64 ∧ 0 < s.encGap4b ∧ (s.encFixed : Int) + s.encGap4b = (s.dataLen : Int) := by
  unfold State.encChecks
  constructor
  · intro h
    split at h
    · cases h
    split at h
    · cases h
    split at h
    · cases h
    · next h1 h2 h3 => exact ⟨Nat.not_lt.mp h1, Int.not_le.mp h2, not_not.mp h3⟩
  · rintro ⟨h1, h2, h3⟩
    rw [if_neg (Nat.not_lt.mpr h1), if_neg (Int.not_le.mpr h2), if_neg (not_not.mpr h3)]

theorem State.encChecks_some {f : Raised} (h : s.encChecks = some f) :
    (64 < s.enc.spt.toNat ∧ f = ⟨.tableFull, s.enc.spt.toNat⟩) ∨
    (s.enc.spt.toNat ≤ 64 ∧ s.encGap4b ≤ 0 ∧ f = ⟨.gap4b, 0⟩) ∨
    (s.enc.spt.toNat ≤ 64 ∧ 0 < s.encGap4b ∧ (s.encFixed : Int) + s.encGap4b ≠ (s.dataLen : Int) ∧
      f = ⟨.layout, ((s.encFixed : Int) + s.encGap4b).toNat⟩) := by
  unfold State.encChecks at h
  split at h
  · next h1 => exact .inl ⟨h1, (Option.some.inj h).symm⟩
  split at h
  · next h1 h2 => exact .inr (.inl ⟨Nat.not_lt.mp h1, h2, (Option.some.inj h).symm⟩)
  split at h
  · next h1 h2 h3 => exact .inr (.inr ⟨Nat.not_lt.mp h1, Int.not_le.mp h2, h3, (Option.some.inj h).symm⟩)
  · cases h

theorem execEncTrack_cases (h : execEncTrack s = .next t) :
    (s.faultV = true ∧ t = s.refused) ∨
    (s.faultV = false ∧ s.validLen = false ∧ t = s.takeFault .badLen s.trklen.toNat) ∨
    (s.faultV = false ∧ s.validLen = true ∧ ∃ f, s.encChecks = some f ∧ t = s.takeFault f.code f.info) ∨
    (s.faultV = false ∧ s.validLen = true ∧ s.encChecks = none ∧
      t = State.answered { s with tb := s.tb.write 0 s.encodedTrack } (BitVec.ofNat 32 s.encGap4b.toNat)) := by
  rcases State.whenRunning_cases h with h | ⟨hr, h⟩
  · exact .inl h
  rcases State.whenValidLen_cases h with ⟨hv, h⟩ | ⟨hv, h⟩
  · exact .inr (.inl ⟨hr, hv, h⟩)
  split at h
  · next f hf => exact .inr (.inr (.inl ⟨hr, hv, f, hf, State.raise_next.mp h⟩))
  · next hn => exact .inr (.inr (.inr ⟨hr, hv, hn, State.answer_next.mp h⟩))

/-! ## Parser -/

theorem execScanStart_cases (h : execScanStart s = .next t) :
    (s.faultV = true ∧ t = s.refused) ∨
    (s.faultV = false ∧ t = State.answered { s with slot := 0, scandone := false, scan := ScanRegs.zero } 0) := by
  rcases State.whenRunning_cases h with h | ⟨hr, h⟩
  · exact .inl h
  · exact .inr ⟨hr, State.answer_next.mp h⟩

theorem execScanNext_cases (h : execScanNext s = .next t) :
    (s.faultV = true ∧ t = s.refused) ∨
    (s.faultV = false ∧ s.validLen = false ∧ t = s.takeFault .badLen s.trklen.toNat) ∨
    (s.faultV = false ∧ s.validLen = true ∧ s.strict = true ∧ s.scanHere.fatal = true ∧
      t = s.takeFault .malformed (malformedInfo s.slot.toNat s.scanHere)) ∨
    (s.faultV = false ∧ s.validLen = true ∧ ¬ (s.strict = true ∧ s.scanHere.fatal = true) ∧
      t = (s.scanned s.scanHere).answered (s.scanHere.kind.setWidth 32)) := by
  rcases State.whenRunning_cases h with h | ⟨hr, h⟩
  · exact .inl h
  rcases State.whenValidLen_cases h with ⟨hv, h⟩ | ⟨hv, h⟩
  · exact .inr (.inl ⟨hr, hv, h⟩)
  split at h
  · next hf => exact .inr (.inr (.inl ⟨hr, hv, hf.1, hf.2, State.raise_next.mp h⟩))
  · next hf => exact .inr (.inr (.inr ⟨hr, hv, hf, State.answer_next.mp h⟩))

/-! ## Gap locator -/

theorem execGapClr_cases (h : execGapClr s = .next t) :
    (s.faultV = true ∧ t = s.refused) ∨ (s.faultV = false ∧ t = State.answered { s with iv := [], ivcnt := 0 } 0) := by
  rcases State.whenRunning_cases h with h | ⟨hr, h⟩
  · exact .inl h
  · exact .inr ⟨hr, State.answer_next.mp h⟩

theorem execGapAdd_cases (h : execGapAdd s = .next t) :
    (s.faultV = true ∧ t = s.refused) ∨
    (s.faultV = false ∧ s.ivcnt = 64 ∧ t = s.takeFault .ivFull 64) ∨
    (s.faultV = false ∧ s.ivcnt ≠ 64 ∧
      t = State.answered { s with iv := s.iv ++ [⟨sext16 s.ivs, sext16 s.ive⟩], ivcnt := s.ivcnt + 1 } ((s.ivcnt + 1).setWidth 32)) := by
  rcases State.whenRunning_cases h with h | ⟨hr, h⟩
  · exact .inl h
  split at h
  · next hc => exact .inr (.inl ⟨hr, hc, State.raise_next.mp h⟩)
  · next hc => exact .inr (.inr ⟨hr, hc, State.answer_next.mp h⟩)

theorem execGapFind_cases (h : execGapFind s = .next t) :
    (s.faultV = true ∧ t = s.refused) ∨
    (s.faultV = false ∧ s.validLen = false ∧ t = s.takeFault .badLen s.trklen.toNat) ∨
    (s.faultV = false ∧ s.validLen = true ∧
      t = State.answered { s with gap := gapRegsOf (findLargestGap s.dataLen s.iv) } (gapResponse (findLargestGap s.dataLen s.iv))) := by
  rcases State.whenRunning_cases h with h | ⟨hr, h⟩
  · exact .inl h
  rcases State.whenValidLen_cases h with ⟨hv, h⟩ | ⟨hv, h⟩
  · exact .inr (.inl ⟨hr, hv, h⟩)
  · exact .inr (.inr ⟨hr, hv, State.answer_next.mp h⟩)

/-! ## Adjuster -/

theorem execAdjStep_cases (h : execAdjStep s = .next t) :
    (s.faultV = true ∧ t = s.refused) ∨
    (s.faultV = false ∧ s.validLen = false ∧ t = s.takeFault .badLen s.trklen.toNat) ∨
    (s.faultV = false ∧ s.validLen = true ∧ (s.target.toNat < 1 ∨ 16255 < s.target.toNat) ∧ t = s.takeFault .range s.target.toNat) ∨
    (s.faultV = false ∧ s.validLen = true ∧ 1 ≤ s.target.toNat ∧ s.target.toNat ≤ 16255 ∧
      ((s.dataLen = s.target.toNat ∧ t = s.answered 0) ∨
       (s.dataLen ≠ s.target.toNat ∧ ∃ f, s.adjPlan = .error f ∧ t = s.takeFault f.code f.info) ∨
       (s.dataLen ≠ s.target.toNat ∧ ∃ p, s.adjPlan = .ok p ∧ t = (s.adjApply p).answered 1))) := by
  rcases State.whenTarget_cases h with h | h | h | ⟨h1, h2, h3, h4, h⟩
  · exact .inl h
  · exact .inr (.inl h)
  · exact .inr (.inr (.inl h))
  refine .inr (.inr (.inr ⟨h1, h2, h3, h4, ?_⟩))
  split at h
  · next hl => exact .inl ⟨hl, State.answer_next.mp h⟩
  next hl =>
  unfold State.adjPass at h
  cases hp : s.adjPlan with
  | error f =>
    rw [hp] at h
    exact .inr (.inl ⟨hl, f, rfl, State.raise_next.mp h⟩)
  | ok p =>
    rw [hp] at h
    exact .inr (.inr ⟨hl, p, rfl, State.answer_next.mp h⟩)

theorem execAdjRun_cases (h : execAdjRun s = .next t) :
    (s.faultV = true ∧ t = s.refused) ∨
    (s.faultV = false ∧ s.validLen = false ∧ t = s.takeFault .badLen s.trklen.toNat) ∨
    (s.faultV = false ∧ s.validLen = true ∧ (s.target.toNat < 1 ∨ 16255 < s.target.toNat) ∧ t = s.takeFault .range s.target.toNat) ∨
    (s.faultV = false ∧ s.validLen = true ∧ 1 ≤ s.target.toNat ∧ s.target.toNat ≤ 16255 ∧
      ∃ s', (s.adjPasses s.adjDistance = (s', none) ∧ t = s'.answered (BitVec.ofNat 32 s.adjDistance)) ∨
        ∃ f, s.adjPasses s.adjDistance = (s', some f) ∧ t = s'.takeFault f.code f.info) := by
  rcases State.whenTarget_cases h with h | h | h | ⟨h1, h2, h3, h4, h⟩
  · exact .inl h
  · exact .inr (.inl h)
  · exact .inr (.inr (.inl h))
  refine .inr (.inr (.inr ⟨h1, h2, h3, h4, ?_⟩))
  split at h
  · next s' hp => exact ⟨s', .inl ⟨hp, State.answer_next.mp h⟩⟩
  · next s' f hp => exact ⟨s', .inr ⟨f, hp, State.raise_next.mp h⟩⟩

end Sys2Proof.Machine
end

