-- ==== Sys2Proof/Laws/Gap.lean ====
section
/-! SUPPORT. The parts of FindLargestGap: coverage of one interval, runs of free indices, the list of gaps, the choice among the largest. -/

namespace Sys2Proof.Machine

/-! ## Coverage (R191, R192) -/

/-- An index is in a sub-interval of one in-use interval exactly when it lies between the reduced ends, or outside them when they wrap. -/
theorem parts_cover {len : Nat} (i : Interval) {x : Nat} (hx : x < len) :
    (∃ p ∈ i.parts len, p.1 ≤ x ∧ x < p.2) ↔
      ((i.start % (len : Int) < i.stop % (len : Int) ∧ i.start % (len : Int) ≤ x ∧ (x : Int) < i.stop % (len : Int)) ∨
       (i.stop % (len : Int) < i.start % (len : Int) ∧ (i.start % (len : Int) ≤ x ∨ (x : Int) < i.stop % (len : Int)))) := by
  have h0 : (len : Int) ≠ 0 := by omega
  have hs := Int.emod_nonneg i.start h0
  have he := Int.emod_nonneg i.stop h0
  have hs' := Int.emod_lt_of_pos i.start (show (0 : Int) < len by omega)
  have he' := Int.emod_lt_of_pos i.stop (show (0 : Int) < len by omega)
  simp only [Interval.parts]
  generalize i.start % (len : Int) = a at *
  generalize i.stop % (len : Int) = b at *
  split
  · simp; omega
  split
  · split
    · simp; omega
    · simp; omega
  · simp; omega

/-- An index is free when no in-use interval covers it. -/
theorem freeIn_subIntervals {len : Nat} {ivs : List Interval} {x : Nat} :
    freeIn (subIntervals len ivs) x = true ↔ ∀ i ∈ ivs, ¬ ∃ p ∈ i.parts len, p.1 ≤ x ∧ x < p.2 := by
  simp only [freeIn, subIntervals, List.all_flatMap, List.all_eq_true, Bool.not_eq_true', Bool.and_eq_false_imp, decide_eq_true_eq,
    decide_eq_false_iff_not, not_exists, not_and]

/-! ## Runs (R193) -/

theorem freeRun_le (free : Nat → Bool) (len p n : Nat) : freeRun free len p n ≤ n := by
  induction n generalizing p with
  | zero => exact le_refl _
  | succ n ih =>
    unfold freeRun
    split
    · have := ih (p + 1); omega
    · exact Nat.zero_le _

/-- Every index of a run is free. -/
theorem freeRun_free (free : Nat → Bool) (len p n : Nat) : ∀ i < freeRun free len p n, free ((p + i) % len) = true := by
  induction n generalizing p with
  | zero => intro i hi; exact absurd hi (Nat.not_lt_zero i)
  | succ n ih =>
    intro i hi
    unfold freeRun at hi
    split at hi
    · next h =>
      cases i with
      | zero => exact h
      | succ i =>
        have := ih (p + 1) i (by omega)
        rwa [show p + 1 + i = p + (i + 1) by omega] at this
    · exact absurd hi (Nat.not_lt_zero i)

/-- A run is as long as any stretch of free indices from its start. -/
theorem le_freeRun {free : Nat → Bool} {len p n m : Nat} (hm : m ≤ n) (h : ∀ i < m, free ((p + i) % len) = true) :
    m ≤ freeRun free len p n := by
  induction n generalizing p m with
  | zero => omega
  | succ n ih =>
    cases m with
    | zero => exact Nat.zero_le _
    | succ m =>
      unfold freeRun
      have h0 := h 0 (Nat.succ_pos m)
      rw [Nat.add_zero] at h0
      rw [if_pos h0]
      have := ih (p := p + 1) (m := m) (by omega) fun i hi => by
        have := h (i + 1) (by omega)
        rwa [show p + (i + 1) = p + 1 + i by omega] at this
      omega

/-! ## The list of gaps -/

/-- What a member of the list is: a start on the circle, and a run of free indices. -/
theorem gapsOf_mem {free : Nat → Bool} {len : Nat} {g : Nat × Nat} (hl : 1 ≤ len) (h : g ∈ gapsOf free len) :
    g.1 < len ∧ 1 ≤ g.2 ∧ g.2 ≤ len ∧ ∀ i < g.2, free ((g.1 + i) % len) = true := by
  unfold gapsOf at h
  split at h
  · next ha =>
    simp only [List.mem_singleton] at h
    subst h
    refine ⟨hl, hl, le_refl _, fun i hi => ?_⟩
    simp only [List.all_eq_true, List.mem_range] at ha
    exact ha _ (Nat.mod_lt _ hl)
  · obtain ⟨p, hp, rfl⟩ := List.mem_map.mp h
    simp only [List.mem_filter, List.mem_range, Bool.and_eq_true] at hp
    refine ⟨hp.1, ?_, freeRun_le _ _ _ _, freeRun_free _ _ _ _⟩
    refine le_freeRun hl fun i hi => ?_
    obtain rfl : i = 0 := by omega
    simpa [Nat.mod_eq_of_lt hp.1] using hp.2.1

/-- Maximality (R193): no stretch of free indices on the circle is longer than the longest gap of the list. -/
theorem gapsOf_max {free : Nat → Bool} {len : Nat} (hl : 1 ≤ len) {p n : Nat} (hn : n ≤ len) (h0 : 1 ≤ n) (h : ∀ i < n, free ((p+i) % len) = true) :
   ∃ g ∈ gapsOf free len, n ≤ g.2 := by
  unfold gapsOf
  split
  · exact ⟨(0,len), by simp, hn⟩
  next ha =>
  have : ∀ m, m ≤ len → (∀ i < m, free ((p + len - i) % len) = true) ∨ ∃ q k, k < m ∧ q < len ∧ free q = true ∧ free ((q + len - 1) % len) = false ∧ (q + k) % len = p % len ∧ ∀ i ≤ k, free ((q+i) % len) = true := by
    intro m
    induction m with
    | zero => intro _; left; intro i hi; omega
    | succ m ih =>
      intro hm
      rcases ih (by omega) with h1 | ⟨q, k, hk, r⟩
      · by_cases hf : free ((p + len - m) % len) = true
        · left; intro i hi
          by_cases hi' : i < m
          · exact h1 i hi'
          · rw [show i = m by omega]; exact hf
        · right
          cases m with
          | zero => exact absurd (by have := h 0 h0; rw [show p + len - 0 = p + len by omega, Nat.add_mod_right]; simpa using this) hf
          | succ m =>
            refine ⟨(p + len - m) % len, m, by omega, Nat.mod_lt _ hl, h1 m (by omega), ?_, ?_, ?_⟩
            · have : ((p + len - m) % len + len - 1) % len = (p + len - (m+1)) % len := by
                have hx := Nat.div_add_mod (p + len - m) len
                have hy := Nat.mod_lt (p + len - m) hl
                rw [show (p + len - (m+1)) = p + len - m - 1 by omega]
                rw [← Nat.add_mod_right (p + len - m - 1) len]
                rw [show p + len - m - 1 + len = ((p+len-m) % len + len - 1) + len * ((p + len - m)/len) by omega]
                rw [Nat.add_mul_mod_self_left]
              rw [this]; simpa using hf
            · rw [Nat.mod_add_mod, show p + len - m + m = p + len by omega, Nat.add_mod_right]
            · intro i hi
              rw [Nat.mod_add_mod, show p + len - m + i = p + len - (m - i) by omega]
              exact h1 (m - i) (by omega)
      · exact .inr ⟨q, k, by omega, r⟩
  rcases this len (le_refl _) with h1 | ⟨q, k, hk, hq, hf, hpr, hqk, hall⟩
  · exfalso; apply ha
    simp only [List.all_eq_true, List.mem_range]
    intro x hx
    have := h1 ((p + len - x) % len) (Nat.mod_lt _ hl)
    have e : (p + len - (p + len - x) % len) % len = x := by
      have hx2 := Nat.div_add_mod (p + len - x) len
      have hy := Nat.mod_lt (p + len - x) hl
      rw [show p + len - (p + len - x) % len = x + len * ((p + len - x)/len) by omega, Nat.add_mul_mod_self_left, Nat.mod_eq_of_lt hx]
    rwa [e] at this
  · refine ⟨(q, freeRun free len q len), List.mem_map.mpr ⟨q, by simp [hq, hf, hpr], rfl⟩, ?_⟩
    by_cases hkn : k + n ≤ len
    · have := le_freeRun (free := free) (len := len) (p := q) (n := len) (m := k + n) hkn ?_
      · show n ≤ freeRun free len q len
        omega
      · intro i hi
        by_cases hik : i ≤ k
        · exact hall i hik
        · have := h (i - k) (by omega)
          rw [Nat.add_mod, ← hqk, ← Nat.add_mod, Nat.add_assoc] at this
          rwa [show q + (k + (i - k)) = q + i by omega] at this
    · exfalso; apply ha
      simp only [List.all_eq_true, List.mem_range]
      intro x hx
      have : ∀ i < k + n, free ((q+i)%len) = true := by
        intro i hi
        by_cases hik : i ≤ k
        · exact hall i hik
        · have := h (i - k) (by omega)
          rw [Nat.add_mod, ← hqk, ← Nat.add_mod, Nat.add_assoc] at this
          rwa [show q + (k + (i - k)) = q + i by omega] at this
      have hh := this ((x + len - q) % len) (by have := Nat.mod_lt (x + len - q) hl; omega)
      rw [Nat.add_mod_mod, show q + (x + len - q) = x + len by omega, Nat.add_mod_right, Nat.mod_eq_of_lt hx] at hh
      exact hh

theorem le_foldl_max (gs : List (Nat × Nat)) (m : Nat) :
    m ≤ gs.foldl (fun m g => max m g.2) m ∧ ∀ g ∈ gs, g.2 ≤ gs.foldl (fun m g => max m g.2) m := by
  induction gs generalizing m with
  | nil => simp
  | cons g rest ih =>
    obtain ⟨h1, h2⟩ := ih (max m g.2)
    simp only [List.foldl_cons, List.mem_cons, forall_eq_or_imp]
    exact ⟨by omega, by omega, h2⟩

theorem foldl_max_mem (gs : List (Nat × Nat)) (m : Nat) :
    gs.foldl (fun m g => max m g.2) m = m ∨ ∃ g ∈ gs, g.2 = gs.foldl (fun m g => max m g.2) m := by
  induction gs generalizing m with
  | nil => simp
  | cons g rest ih =>
    simp only [List.foldl_cons, List.mem_cons, exists_eq_or_imp]
    rcases ih (max m g.2) with h | h
    · rcases Nat.le_total g.2 m with hle | hle
      · exact .inl (by rw [h]; omega)
      · exact .inr (.inl (by rw [h]; omega))
    · exact .inr (.inr h)

/-- No gap is longer than `M` (R194). -/
theorem le_maxLength {gs : List (Nat × Nat)} {g : Nat × Nat} (h : g ∈ gs) : g.2 ≤ maxLength gs := (le_foldl_max gs 0).2 g h

/-- There are largest gaps whenever there are gaps. -/
theorem largestGaps_ne_nil {gs : List (Nat × Nat)} (h : gs ≠ []) : largestGaps gs ≠ [] := by
  intro hn
  simp only [largestGaps, List.filter_eq_nil_iff, decide_eq_true_eq] at hn
  rcases foldl_max_mem gs 0 with h0 | ⟨g, hg, h1⟩
  · obtain ⟨g, hg⟩ := List.exists_mem_of_ne_nil gs h
    have := le_maxLength hg
    exact hn g hg (by unfold maxLength at *; omega)
  · exact hn g hg h1

theorem largestGaps_mem {gs : List (Nat × Nat)} {g : Nat × Nat} (h : g ∈ largestGaps gs) : g ∈ gs ∧ g.2 = maxLength gs := by
  simpa [largestGaps] using h

/-! ## The choice (R196) -/

/-- Whatever GAP_TIE is, the chosen gap is one of the largest. -/
theorem chooseGap_mem {gs : List (Nat × Nat)} {g : Nat × Nat} (h : chooseGap gs = some g) : g ∈ gs := by
  unfold chooseGap at h
  split at h
  · cases h
  · cases h; exact List.mem_singleton.mpr rfl
  · exact List.mem_of_getElem? h

theorem chooseGap_isSome {gs : List (Nat × Nat)} (h : gs ≠ []) : ∃ g, chooseGap gs = some g := by
  unfold chooseGap
  split
  · exact absurd rfl h
  · exact ⟨_, rfl⟩
  · next g h rest => exact ⟨_, List.getElem?_eq_getElem (Nat.mod_lt _ (by simp))⟩

/-! ## FindLargestGap (R190, R194) -/

/-- Where a result comes from: a gap of the list, of the largest length, its midpoint reduced. -/
theorem findLargestGap_some {len : Nat} {ivs : List Interval} {mid size : Nat} (h : findLargestGap len ivs = some (mid, size)) :
    ∃ p, (p, size) ∈ gapsOf (freeIn (subIntervals len ivs)) len ∧ size = maxLength (gapsOf (freeIn (subIntervals len ivs)) len) ∧
      mid = (p + size / 2) % len := by
  unfold findLargestGap at h
  obtain ⟨⟨p, n⟩, hg, he⟩ := Option.map_eq_some_iff.mp h
  obtain ⟨h1, h2⟩ := largestGaps_mem (chooseGap_mem hg)
  cases he
  exact ⟨p, h1, h2, rfl⟩

theorem findLargestGap_none {len : Nat} {ivs : List Interval} :
    findLargestGap len ivs = none ↔ gapsOf (freeIn (subIntervals len ivs)) len = [] := by
  unfold findLargestGap
  rw [Option.map_eq_none_iff]
  constructor
  · intro h
    by_contra hne
    obtain ⟨g, hg⟩ := chooseGap_isSome (largestGaps_ne_nil hne)
    rw [h] at hg
    cases hg
  · intro h
    rw [h]
    rfl

/-- The midpoint is on the circle, the size not empty and not above the circle (R190). -/
theorem findLargestGap_bounds {len : Nat} {ivs : List Interval} {mid size : Nat} (hl : 1 ≤ len)
    (h : findLargestGap len ivs = some (mid, size)) : mid < len ∧ 1 ≤ size ∧ size ≤ len := by
  obtain ⟨p, hp, _, rfl⟩ := findLargestGap_some h
  obtain ⟨_, h1, h2, _⟩ := gapsOf_mem hl hp
  exact ⟨Nat.mod_lt _ hl, h1, h2⟩

end Sys2Proof.Machine
end

