-- ==== Sys2Proof/Laws/Memory.lean ====
section
/-! SUPPORT. The one write of a buffer: what a read finds after it, that it keeps the canonical form, and what that says of TB and PB. -/

namespace Sys2Proof.Machine

/-! ## Reading after a write -/

theorem find_append (m n : Memory) (a : Nat) : Memory.find (m ++ n) a = (m.find a).or (n.find a) := by
  induction m with
  | nil => simp [Memory.find]
  | cons c rest ih =>
    simp only [List.cons_append, Memory.find]
    split <;> simp [ih]

theorem find_filter (m : Memory) (p : Nat → Bool) (a : Nat) :
    Memory.find (m.filter fun c => p c.1) a = if p a then m.find a else none := by
  induction m with
  | nil => simp [Memory.find]
  | cons c rest ih =>
    by_cases hc : c.1 = a
    · subst hc
      cases hp : p c.1 <;> simp_all [Memory.find]
    · cases hp : p c.1 <;> simp [hp, Memory.find, hc, ih]

theorem find_cellsAt (bs : List Byte) (a x : Nat) :
    Memory.find (cellsAt a bs) x = if a ≤ x then bs[x - a]? else none := by
  induction bs generalizing a with
  | nil => simp [cellsAt, Memory.find]
  | cons b rest ih =>
    simp only [cellsAt, Memory.find, ih]
    by_cases hax : a = x
    · simp [hax]
    · by_cases hlt : a ≤ x
      · have : x - a = (x - (a + 1)) + 1 := by omega
        have hle : a + 1 ≤ x := by omega
        simp [hax, hlt, this, hle]
      · have : ¬ a + 1 ≤ x := by omega
        simp [hax, hlt, this]

/-- A read inside the written bytes finds them, a read outside finds what was there. -/
theorem find_write (m : Memory) (a : Nat) (bs : List Byte) (x : Nat) :
    (m.write a bs).find x = if a ≤ x ∧ x < a + bs.length then bs[x - a]? else m.find x := by
  unfold Memory.write
  rw [find_append, find_append, find_filter m (fun y => decide (y < a)), find_filter m (fun y => decide (a + bs.length ≤ y)),
    find_cellsAt]
  by_cases h1 : x < a
  · have h2 : ¬ a ≤ x := by omega
    have h3 : ¬ a + bs.length ≤ x := by omega
    simp [h1, h2, h3]
  · by_cases h2 : a + bs.length ≤ x
    · have h3 : bs[x - a]? = none := List.getElem?_eq_none (by omega)
      have h4 : ¬ (a ≤ x ∧ x < a + bs.length) := by omega
      simp only [h1, h2, h3, h4, decide_true, decide_false, if_true, if_false]
      simp
    · have h3 : a ≤ x ∧ x < a + bs.length := by omega
      have h4 : x - a < bs.length := by omega
      simp [h1, h2, h3, h4]

theorem find_write_in {m : Memory} {a : Nat} {bs : List Byte} {x : Nat} (h : a ≤ x) (h' : x < a + bs.length) :
    (m.write a bs).find x = some (bs[x - a]'(by omega)) := by
  rw [find_write, if_pos ⟨h, h'⟩, List.getElem?_eq_getElem]

theorem find_write_out {m : Memory} {a : Nat} {bs : List Byte} {x : Nat} (h : x < a ∨ a + bs.length ≤ x) :
    (m.write a bs).find x = m.find x := by
  rw [find_write, if_neg (by omega)]

/-! ## The canonical form -/

theorem mem_cellsAt {a : Nat} {bs : List Byte} {c : Host.Cell} (h : c ∈ cellsAt a bs) : a ≤ c.1 ∧ c.1 < a + bs.length := by
  induction bs generalizing a with
  | nil => simp [cellsAt] at h
  | cons b rest ih =>
    rcases List.mem_cons.mp h with rfl | h
    · simp
    · have := ih h
      simp only [List.length_cons]
      omega

theorem cellsAt_rising (a : Nat) (bs : List Byte) : (cellsAt a bs).Pairwise fun c d => c.1 < d.1 := by
  induction bs generalizing a with
  | nil => exact List.Pairwise.nil
  | cons b rest ih =>
    refine List.Pairwise.cons (fun c hc => ?_) (ih (a + 1))
    have := mem_cellsAt hc
    simp only
    omega

/-- Every write inside the buffer keeps the canonical form. -/
theorem wf_write {m : Memory} (h : m.wf) {a : Nat} {bs : List Byte} (hb : a + bs.length ≤ Config.tbCap) : (m.write a bs).wf := by
  obtain ⟨hp, hc⟩ := h
  constructor
  · unfold Memory.write
    refine List.pairwise_append.mpr ⟨List.pairwise_append.mpr ⟨hp.filter _, cellsAt_rising a bs, ?_⟩, hp.filter _, ?_⟩
    · intro c hc d hd
      have h1 := (List.mem_filter.mp hc).2
      have h2 := mem_cellsAt hd
      simp only [decide_eq_true_eq] at h1
      omega
    · intro c hc d hd
      have h2 := (List.mem_filter.mp hd).2
      simp only [decide_eq_true_eq] at h2
      rcases List.mem_append.mp hc with hc | hc
      · have h1 := (List.mem_filter.mp hc).2
        simp only [decide_eq_true_eq] at h1
        omega
      · have h1 := mem_cellsAt hc
        omega
  · intro c hm
    unfold Memory.write at hm
    rcases List.mem_append.mp hm with hm | hm
    · rcases List.mem_append.mp hm with hm | hm
      · exact hc c (List.mem_filter.mp hm).1
      · have := mem_cellsAt hm
        omega
    · exact hc c (List.mem_filter.mp hm).1

theorem wf_nil : Memory.wf [] := by decide

/-- Equal contents, equal data: two canonical buffers that list the same bytes are the same list. -/
theorem eq_of_find_eq {m n : Memory} (hm : m.wf) (hn : n.wf) (h : ∀ a, m.find a = n.find a) : m = n := by
  have low : ∀ {l : Memory} {c : Host.Cell}, (∀ d ∈ l, c.1 < d.1) → ∀ a ≤ c.1, l.find a = none := by
    intro l c hl a ha
    induction l with
    | nil => rfl
    | cons d rest ih =>
      have hd := hl d List.mem_cons_self
      have : d.1 ≠ a := by omega
      simp [Memory.find, this, ih fun e he => hl e (List.mem_cons_of_mem _ he)]
  induction m generalizing n with
  | nil =>
    cases n with
    | nil => rfl
    | cons d rest => have := h d.1; simp [Memory.find] at this
  | cons c rest ih =>
    cases n with
    | nil => have := h c.1; simp [Memory.find] at this
    | cons d rest' =>
      obtain ⟨hp, hb⟩ := hm
      obtain ⟨hp', hb'⟩ := hn
      obtain ⟨hc, hr⟩ := List.pairwise_cons.mp hp
      obtain ⟨hd, hr'⟩ := List.pairwise_cons.mp hp'
      have hcd : c.1 = d.1 := by
        rcases Nat.lt_trichotomy c.1 d.1 with hlt | heq | hgt
        · have := h c.1
          have h1 : d.1 ≠ c.1 := by omega
          simp [Memory.find, h1, low (c := d) hd c.1 (by omega)] at this
        · exact heq
        · have := h d.1
          have h1 : c.1 ≠ d.1 := by omega
          simp [Memory.find, h1, low (c := c) hc d.1 (by omega)] at this
      have hval : c.2 = d.2 := by
        have := h c.1
        simpa [Memory.find, hcd] using this
      have hrest : rest = rest' := by
        refine ih ⟨hr, fun e he => hb e (List.mem_cons_of_mem _ he)⟩
          ⟨hr', fun e he => hb' e (List.mem_cons_of_mem _ he)⟩ fun a => ?_
        by_cases hca : c.1 = a
        · subst hca
          rw [low (c := c) hc c.1 (le_refl _), low (c := d) hd c.1 (by omega)]
        · have hda : d.1 ≠ a := by omega
          have := h a
          simpa [Memory.find, hca, hda] using this
      rw [hrest, show c = d from Prod.ext hcd hval]

/-! ## The buffers -/

/-- TB after a write of `bytes` at `a`. -/
theorem tbByte_write (s : State) (a : Nat) (bs : List Byte) (x : Nat) :
    State.tbByte { s with tb := s.tb.write a bs } x = if a ≤ x ∧ x < a + bs.length then bs.getD (x - a) 0 else s.tbByte x := by
  unfold State.tbByte
  simp only [find_write]
  split
  · next h => simp [List.getD, List.getElem?_eq_getElem (show x - a < bs.length by omega)]
  · rfl

/-- PB after a write of `bytes` at `a`. -/
theorem pbByte_write (s : State) (a : Nat) (bs : List Byte) (x : Nat) :
    State.pbByte { s with pb := s.pb.write a bs } x = if a ≤ x ∧ x < a + bs.length then bs.getD (x - a) 0 else s.pbByte x := by
  unfold State.pbByte
  simp only [find_write]
  split
  · next h => simp [List.getD, List.getElem?_eq_getElem (show x - a < bs.length by omega)]
  · rfl

@[simp] theorem tbRead_length (s : State) (a n : Nat) : (s.tbRead a n).length = n := by simp [State.tbRead]
@[simp] theorem pbRead_length (s : State) (a n : Nat) : (s.pbRead a n).length = n := by simp [State.pbRead]
@[simp] theorem rdSeq_length (s : State) (i : Int) (n : Nat) : (s.rdSeq i n).length = n := by simp [State.rdSeq]

@[simp] theorem tbRead_getElem (s : State) (a n i : Nat) (h : i < (s.tbRead a n).length) :
    (s.tbRead a n)[i] = s.tbByte (a + i) := by simp [State.tbRead]

@[simp] theorem rdSeq_getElem (s : State) (p : Int) (n i : Nat) (h : i < (s.rdSeq p n).length) :
    (s.rdSeq p n)[i] = s.rd (p + i) := by simp [State.rdSeq]

end Sys2Proof.Machine
end

