-- ==== Sys2Proof/Laws/Scanner.lean ====
section
/-! SUPPORT. The parts of ScanEntry: the search for a data mark, what each result says of the track, the codes of the results. -/

namespace Sys2Proof.Machine

/-! ## The search over 43 positions (R178) -/

/-- The search answers the first position at which a data mark starts. -/
theorem findDataMark_some {s : State} {strict : Bool} {q j : Int} {n : Nat} (h : s.findDataMark strict q n = some j) :
    ∃ d : Nat, d < n ∧ j = q + d ∧ s.dataMarkAt strict j = true ∧ ∀ d' : Nat, d' < d → s.dataMarkAt strict (q + d') = false := by
  induction n generalizing q with
  | zero => cases h
  | succ n ih =>
    unfold State.findDataMark at h
    split at h
    · next hm =>
      cases h
      exact ⟨0, Nat.succ_pos n, by simp, hm, fun d' hd => absurd hd (Nat.not_lt_zero d')⟩
    next hm =>
    obtain ⟨d, h1, h2, h3, h4⟩ := ih h
    refine ⟨d + 1, by omega, by rw [h2]; push_cast; omega, h3, fun d' hd => ?_⟩
    cases d' with
    | zero => simpa using hm
    | succ d' =>
      have := h4 d' (by omega)
      rwa [show q + 1 + (d' : Int) = q + ((d' + 1 : Nat) : Int) by push_cast; omega] at this

theorem findDataMark_none {s : State} {strict : Bool} {q : Int} {n : Nat} :
    s.findDataMark strict q n = none ↔ ∀ d : Nat, d < n → s.dataMarkAt strict (q + d) = false := by
  induction n generalizing q with
  | zero => simp [State.findDataMark]
  | succ n ih =>
    unfold State.findDataMark
    constructor
    · intro h
      split at h
      · cases h
      next hm =>
      intro d hd
      cases d with
      | zero => simpa using hm
      | succ d =>
        have := ih.mp h d (by omega)
        rwa [show q + 1 + (d : Int) = q + ((d + 1 : Nat) : Int) by push_cast; omega] at this
    · intro h
      have h0 := h 0 (Nat.succ_pos n)
      simp only [Nat.cast_zero, Int.add_zero] at h0
      rw [if_neg (by simp [h0])]
      refine ih.mpr fun d hd => ?_
      have := h (d + 1) (by omega)
      rwa [show q + ((d + 1 : Nat) : Int) = q + 1 + (d : Int) by push_cast; omega] at this

/-- The converse: the first position decides. -/
theorem findDataMark_first {s : State} {strict : Bool} {q : Int} {n d : Nat} (hd : d < n) (hm : s.dataMarkAt strict (q + d) = true)
    (hf : ∀ d' : Nat, d' < d → s.dataMarkAt strict (q + d') = false) : s.findDataMark strict q n = some (q + d) := by
  cases h : s.findDataMark strict q n with
  | none => rw [findDataMark_none.mp h d hd] at hm; cases hm
  | some j =>
    obtain ⟨e, he, rfl, h3, h4⟩ := findDataMark_some h
    rcases Nat.lt_trichotomy d e with hlt | rfl | hgt
    · rw [h4 d hlt] at hm; cases hm
    · rfl
    · rw [hf e hgt] at h3; cases h3

/-! ## What ScanEntry reads: the bytes of TB and TRKLEN alone (R170) -/

theorem findDataMark_congr {s t : State} (h : ∀ i, t.rd i = s.rd i) (strict : Bool) (q : Int) (n : Nat) :
    t.findDataMark strict q n = s.findDataMark strict q n := by
  induction n generalizing q with
  | zero => rfl
  | succ n ih =>
    have hm : t.dataMarkAt strict q = s.dataMarkAt strict q := by simp only [State.dataMarkAt, h]
    unfold State.findDataMark
    rw [hm, ih]

theorem scanEntry_congr {s t : State} (ht : t.tb = s.tb) (hd : t.draw = s.draw) (hl : t.trklen = s.trklen) (k : Nat) (strict : Bool) :
    t.scanEntry k strict = s.scanEntry k strict := by
  have h := State.rd_congr ht hd hl
  have hp : t.pt k = s.pt k := by simp only [State.pt, State.tbByte_congr ht hd]
  have hs : ∀ i n, t.rdSeq i n = s.rdSeq i n := fun i n => by simp only [State.rdSeq, h]
  have hb : ∀ i, t.rdBe16 i = s.rdBe16 i := fun i => by simp only [State.rdBe16, h]
  have hi : ∀ i, t.idFieldsAt i = s.idFieldsAt i := fun i => by simp only [State.idFieldsAt, h]
  have hr : ∀ e id a j, t.scanRecord e id a j = s.scanRecord e id a j := fun e id a j => by simp only [State.scanRecord, h, hs, hb]
  have hm : ∀ e id a, t.scanDataMark strict e id a = s.scanDataMark strict e id a := fun e id a => by
    simp only [State.scanDataMark, findDataMark_congr h, hr]
  have ha : ∀ e a, t.scanAddress strict e a = s.scanAddress strict e a := fun e a => by
    unfold State.scanAddress
    rw [hs, hs, hb, hi, hm]
  unfold State.scanEntry
  simp only
  rw [hp, hl, ha]

@[simp] theorem State.answered_scanEntry (s : State) (r : Word) (k : Nat) (strict : Bool) :
    (s.answered r).scanEntry k strict = s.scanEntry k strict := scanEntry_congr rfl rfl rfl k strict

/-! ## The results (R170, R180) -/

theorem kind_eq_one {res : ScanResult} : res.kind = 1 ↔ res = .endOfTable := by
  cases res <;> simp [ScanResult.kind]

theorem kind_ne_zero (res : ScanResult) : res.kind ≠ 0 := by cases res <;> simp [ScanResult.kind]

theorem fatal_iff {res : ScanResult} : res.fatal = true ↔ res.kind = 3 ∨ res.kind = 4 ∨ res.kind = 5 ∨ res.kind = 6 := by
  cases res <;> simp [ScanResult.fatal, ScanResult.kind]

/-- Only a RECORD has an extent (R183). -/
theorem extent_some {res : ScanResult} {x : Interval} (h : res.extent? = some x) :
    ∃ e id a j t ok, res = .record e id a j t ok ∧ x = ⟨a, j + 4 + sectorSize id.n + 2⟩ := by
  cases res with
  | record e id a j t ok => cases h; exact ⟨e, id, a, j, t, ok, rfl, rfl⟩
  | _ => cases h

/-- The sector size of every code is one of eight (R97). -/
theorem sectorSize_eq (n : Byte) : sectorSize n = 128 * 2 ^ (n.toNat % 8) := by
  have : (n &&& Config.sizeMask).toNat = n.toNat % 8 := by
    rw [BitVec.toNat_and]
    exact Nat.and_two_pow_sub_one_eq_mod n.toNat 3
  rw [sectorSize, this, Nat.shiftLeft_eq]

theorem sectorSize_bounds (n : Byte) : 128 ≤ sectorSize n ∧ sectorSize n ≤ 16384 := by
  rw [sectorSize_eq]
  have h : n.toNat % 8 < 8 := Nat.mod_lt _ (by decide)
  generalize n.toNat % 8 = m at h
  interval_cases m <;> decide

theorem dmkIdxOf_eq (e : Half) : dmkIdxOf e = e.toNat % 0x4000 := by
  rw [dmkIdxOf, BitVec.toNat_and]
  exact Nat.and_two_pow_sub_one_eq_mod e.toNat 14

theorem densityOf_eq (e : Half) : densityOf e = 0b10#2 ↔ e.toNat / 0x4000 = 2 := by
  have := e.isLt
  rw [← BitVec.toNat_inj, densityOf, BitVec.extractLsb'_toNat, Nat.shiftRight_eq_div_pow]
  simp only [BitVec.toNat_ofNat]
  omega

/-- A RECORD comes from a double-density entry inside the track, with the ID mark, a good address CRC and the first data mark of the 43
positions (R174 to R179). -/
theorem scanEntry_record {s : State} {k : Nat} {strict : Bool} {e : Half} {id : IdFields} {a j : Int} {t : Byte} {ok : Bool}
    (h : s.scanEntry k strict = .record e id a j t ok) :
    e = s.pt k ∧ e ≠ 0 ∧ densityOf e = 0b10#2 ∧ 128 ≤ dmkIdxOf e ∧ dmkIdxOf e < s.trklen.toNat ∧ a = addrIdxOf e ∧
    s.rdSeq a 4 = idMark ∧ crc16 (s.rdSeq a 8) = s.rdBe16 (a + 8) ∧ id = s.idFieldsAt a ∧
    s.findDataMark strict (a + 10) 43 = some j ∧ t = s.rd (j + 3) ∧
    ok = (crc16 (s.rdSeq j (4 + sectorSize id.n)) == s.rdBe16 (j + 4 + sectorSize id.n)) := by
  unfold State.scanEntry at h
  simp only at h
  split at h
  · cases h
  next h0 =>
  split at h
  · cases h
  next h1 =>
  split at h
  · cases h
  next h2 =>
  unfold State.scanAddress at h
  split at h
  · cases h
  next h3 =>
  split at h
  · cases h
  next h4 =>
  unfold State.scanDataMark at h
  split at h
  · cases h
  next j' h5 =>
  unfold State.scanRecord at h
  cases h
  exact ⟨rfl, h0, not_not.mp h1, Nat.not_lt.mp fun hl => h2 (.inl hl), Nat.not_le.mp fun hl => h2 (.inr hl), rfl, not_not.mp h3,
    not_not.mp h4, rfl, h5, rfl, rfl⟩

/-- The converse of `scanEntry_record`. -/
theorem scanEntry_of_record {s : State} {k : Nat} {strict : Bool} {a j : Int} (h0 : s.pt k ≠ 0)
    (h1 : densityOf (s.pt k) = 0b10#2) (h2 : 128 ≤ dmkIdxOf (s.pt k)) (h3 : dmkIdxOf (s.pt k) < s.trklen.toNat)
    (ha : addrIdxOf (s.pt k) = a) (h4 : s.rdSeq a 4 = idMark) (h5 : crc16 (s.rdSeq a 8) = s.rdBe16 (a + 8))
    (h6 : s.findDataMark strict (a + 10) 43 = some j) :
    s.scanEntry k strict = s.scanRecord (s.pt k) (s.idFieldsAt a) a j := by
  unfold State.scanEntry
  simp only
  rw [if_neg h0, if_neg (not_not.mpr h1), if_neg (by rintro (h | h); exact Nat.not_lt.mpr h2 h; exact Nat.not_le.mpr h3 h), ha]
  unfold State.scanAddress
  rw [if_neg (not_not.mpr h4), if_neg (not_not.mpr h5)]
  unfold State.scanDataMark
  have h6' : s.findDataMark strict (a + Config.idFrameBytes) Config.dmSearch = some j := h6
  rw [h6']

end Sys2Proof.Machine
end

