-- ==== Sys2Proof/Laws/Adjuster.lean ====
section
/-! SUPPORT. The adjuster's parts: what the strict scan and the extents it builds hold, what the byte move and the pointer rewrite do to TB, what a
pass changes and what it leaves, and the passes of a run. -/

namespace Sys2Proof.Machine

/-! ## The scan of the whole table and the extents (R184, R206) -/

/-- A scan that does not fault returns, in order from slot `k`, the results of the slots before the first END, none of them fatal in strict
mode. -/
theorem scanTrackFrom_ok {s : State} {strict : Bool} {recs : List (Nat × ScanResult)} {n k : Nat}
    (h : s.scanTrackFrom strict k n = .ok recs) :
    recs.length ≤ n ∧
    (∀ i (hi : i < recs.length), recs[i] = (k + i, s.scanEntry (k + i) strict) ∧ (s.scanEntry (k + i) strict).kind ≠ 1 ∧
      (strict = true → (s.scanEntry (k + i) strict).fatal = false)) ∧
    (recs.length < n → (s.scanEntry (k + recs.length) strict).kind = 1) := by
  induction n generalizing k recs with
  | zero =>
    cases h
    exact ⟨le_refl _, fun i hi => absurd hi (Nat.not_lt_zero i), fun hl => absurd hl (lt_irrefl _)⟩
  | succ n ih =>
    unfold State.scanTrackFrom at h
    simp only at h
    split at h
    · next he =>
      cases h
      exact ⟨Nat.zero_le _, fun i hi => absurd hi (Nat.not_lt_zero i), fun _ => he⟩
    next he =>
    split at h
    · cases h
    next hf =>
    cases hr : s.scanTrackFrom strict (k + 1) n with
    | error f => rw [hr] at h; cases h
    | ok rest =>
      rw [hr] at h
      cases h
      obtain ⟨h1, h2, h3⟩ := ih hr
      refine ⟨by simpa using h1, ?_, ?_⟩
      · intro i hi
        cases i with
        | zero => exact ⟨rfl, he, fun hs => by simpa [hs] using hf⟩
        | succ i =>
          have := h2 i (by simpa using hi)
          simpa [Nat.add_assoc, Nat.add_comm 1 i] using this
      · intro hl
        have := h3 (by simpa using hl)
        simpa [Nat.add_assoc, Nat.add_comm 1 rest.length] using this

/-- The converse: a list of the results from slot `k` up to the first END, none fatal in strict mode, is what the scan returns. -/
theorem scanTrackFrom_of {s : State} {strict : Bool} {recs : List (Nat × ScanResult)} {n k : Nat} (hlen : recs.length ≤ n)
    (hent : ∀ i (hi : i < recs.length), recs[i] = (k + i, s.scanEntry (k + i) strict) ∧ (s.scanEntry (k + i) strict).kind ≠ 1 ∧
      (strict = true → (s.scanEntry (k + i) strict).fatal = false))
    (hend : recs.length < n → (s.scanEntry (k + recs.length) strict).kind = 1) :
    s.scanTrackFrom strict k n = .ok recs := by
  induction n generalizing k recs with
  | zero => rw [List.length_eq_zero_iff.mp (Nat.le_zero.mp hlen)]; rfl
  | succ n ih =>
    unfold State.scanTrackFrom
    cases recs with
    | nil => exact if_pos (hend (Nat.succ_pos n))
    | cons r rest =>
      obtain ⟨h1, h2, h3⟩ := hent 0 (Nat.succ_pos _)
      have hr := ih (recs := rest) (k := k + 1) (by simpa using hlen)
        (fun i hi => by rw [Nat.add_right_comm]; exact hent (i + 1) (Nat.succ_lt_succ hi))
        (fun hl => by simpa [Nat.add_assoc, Nat.add_comm 1 rest.length] using hend (by simpa using hl))
      refine (if_neg h2).trans ((if_neg (by simpa using h3)).trans ?_)
      rw [hr]
      simpa using h1.symm

/-- What the strict scan of the whole table lists when it does not fault, and only that (R184). -/
theorem scanTrack_iff {s : State} {recs : List (Nat × ScanResult)} : s.scanTrack true = .ok recs ↔
    recs.length ≤ 64 ∧
    (∀ k (h : k < recs.length),
      recs[k] = (k, s.scanEntry k true) ∧ s.scanEntry k true ≠ .endOfTable ∧ (s.scanEntry k true).fatal = false) ∧
    (recs.length < 64 → s.scanEntry recs.length true = .endOfTable) := by
  have both : s.scanTrack true = .ok recs ↔
      recs.length ≤ 64 ∧
      (∀ k (h : k < recs.length), recs[k] = (0 + k, s.scanEntry (0 + k) true) ∧ (s.scanEntry (0 + k) true).kind ≠ 1 ∧
        (true = true → (s.scanEntry (0 + k) true).fatal = false)) ∧
      (recs.length < 64 → (s.scanEntry (0 + recs.length) true).kind = 1) :=
    ⟨scanTrackFrom_ok, fun h => scanTrackFrom_of h.1 h.2.1 h.2.2⟩
  simpa only [Nat.zero_add, ne_eq, kind_eq_one, true_implies] using both

/-- A scan faults only with E_MALFORMED, in strict mode, naming the first slot with a fatal result (R182, R184, R259). -/
theorem scanTrackFrom_error {s : State} {strict : Bool} {f : Raised} {n k : Nat} (h : s.scanTrackFrom strict k n = .error f) :
    strict = true ∧ ∃ i, i < n ∧ f = ⟨.malformed, malformedInfo (k + i) (s.scanEntry (k + i) strict)⟩ ∧
      (s.scanEntry (k + i) strict).fatal = true ∧
      ∀ j < i, (s.scanEntry (k + j) strict).kind ≠ 1 ∧ (s.scanEntry (k + j) strict).fatal = false := by
  induction n generalizing k with
  | zero => cases h
  | succ n ih =>
    unfold State.scanTrackFrom at h
    simp only at h
    split at h
    · cases h
    next he =>
    split at h
    · next hf =>
      cases h
      simp only [Bool.and_eq_true] at hf
      exact ⟨hf.1, 0, Nat.succ_pos n, rfl, hf.2, fun j hj => absurd hj (Nat.not_lt_zero j)⟩
    next hf =>
    cases hr : s.scanTrackFrom strict (k + 1) n with
    | ok rest => rw [hr] at h; cases h
    | error g =>
      rw [hr] at h
      cases h
      obtain ⟨hs, i, hi, h1, h2, h3⟩ := ih hr
      refine ⟨hs, i + 1, by omega, by simpa [Nat.add_assoc, Nat.add_comm 1 i] using h1,
        by simpa [Nat.add_assoc, Nat.add_comm 1 i] using h2, ?_⟩
      intro j hj
      cases j with
      | zero => exact ⟨he, by simpa [hs] using hf⟩
      | succ j =>
        have := h3 j (by omega)
        simpa [Nat.add_assoc, Nat.add_comm 1 j] using this

/-- The extents, when no record is as long as the track (R206). -/
theorem extentsOf_ok {len : Nat} {recs : List (Nat × ScanResult)} {ivs : List Interval} (h : extentsOf len recs = .ok ivs) :
    ivs = recs.filterMap (fun p => p.2.extent?) ∧ ∀ x ∈ ivs, x.stop - x.start < (len : Int) := by
  induction recs generalizing ivs with
  | nil => cases h; simp
  | cons p rest ih =>
    obtain ⟨k, res⟩ := p
    unfold extentsOf at h
    cases hx : res.extent? with
    | none =>
      simp only [hx] at h
      simpa [List.filterMap_cons, hx] using ih h
    | some x =>
      simp only [hx] at h
      split at h
      · cases h
      next hl =>
      cases hr : extentsOf len rest with
      | error f => rw [hr] at h; cases h
      | ok xs =>
        rw [hr] at h
        cases h
        obtain ⟨h1, h2⟩ := ih hr
        refine ⟨by simp [hx, ← h1], ?_⟩
        intro y hy
        rcases List.mem_cons.mp hy with rfl | hy
        · omega
        · exact h2 y hy

/-- The converse: with every extent shorter than the track, `extentsOf` answers them. -/
theorem extentsOf_eq {len : Nat} {recs : List (Nat × ScanResult)}
    (h : ∀ x ∈ recs.filterMap (fun p => p.2.extent?), x.stop - x.start < (len : Int)) :
    extentsOf len recs = .ok (recs.filterMap fun p => p.2.extent?) := by
  induction recs with
  | nil => rfl
  | cons p rest ih =>
    obtain ⟨k, res⟩ := p
    unfold extentsOf
    cases hx : res.extent? with
    | none =>
      simp only [List.filterMap_cons, hx] at h ⊢
      exact ih h
    | some x =>
      simp only [List.filterMap_cons, hx, List.mem_cons, forall_eq_or_imp] at h ⊢
      rw [if_neg (by omega), ih h.2]

/-- The fault of the extents: E_NOGAP naming the first record as long as the track (R206). -/
theorem extentsOf_error {len : Nat} {recs : List (Nat × ScanResult)} {f : Raised} (h : extentsOf len recs = .error f) :
    ∃ pre k res post x, recs = pre ++ (k, res) :: post ∧ res.extent? = some x ∧ (len : Int) ≤ x.stop - x.start ∧ f = ⟨.noGap, k⟩ ∧
      ∀ p ∈ pre, ∀ y, p.2.extent? = some y → y.stop - y.start < (len : Int) := by
  induction recs with
  | nil => cases h
  | cons p rest ih =>
    obtain ⟨k, res⟩ := p
    unfold extentsOf at h
    cases hx : res.extent? with
    | none =>
      simp only [hx] at h
      obtain ⟨pre, k', res', post, x, h1, h2, h3, h4, h5⟩ := ih h
      refine ⟨(k, res) :: pre, k', res', post, x, by simp [h1], h2, h3, h4, ?_⟩
      intro q hq y hy
      rcases List.mem_cons.mp hq with rfl | hq
      · simp [hx] at hy
      · exact h5 q hq y hy
    | some x =>
      simp only [hx] at h
      split at h
      · next hl =>
        cases h
        exact ⟨[], k, res, rest, x, rfl, hx, hl, rfl, fun q hq => nomatch hq⟩
      next hl =>
      cases hr : extentsOf len rest with
      | ok xs => rw [hr] at h; cases h
      | error g =>
        rw [hr] at h
        cases h
        obtain ⟨pre, k', res', post, y, h1, h2, h3, h4, h5⟩ := ih hr
        refine ⟨(k, res) :: pre, k', res', post, y, by simp [h1], h2, h3, h4, ?_⟩
        intro q hq z hz
        rcases List.mem_cons.mp hq with rfl | hq
        · rw [hx] at hz; cases hz; omega
        · exact h5 q hq z hz

/-- What a plan was made from (R206, R207). -/
theorem adjPlan_ok {s : State} {p : AdjPlan} (h : s.adjPlan = .ok p) :
    ∃ recs, s.scanTrack true = .ok recs ∧ extentsOf s.dataLen recs = .ok p.ivs ∧
      findLargestGap s.dataLen p.ivs = some (p.gapMid, p.gapSize) := by
  unfold State.adjPlan at h
  split at h
  · cases h
  next recs hr =>
  split at h
  · cases h
  next ivs he =>
  split at h
  · cases h
  next mid size hg =>
  cases h
  exact ⟨recs, hr, he, hg⟩

/-- The byte a plan names is inside the track. -/
theorem adjPlan_mid {s : State} {p : AdjPlan} (hv : s.validLen = true) (h : s.adjPlan = .ok p) :
    p.gapMid < s.dataLen ∧ p.gapMid + 128 < s.trklen.toNat ∧ 1 ≤ p.gapSize ∧ p.gapSize ≤ s.dataLen := by
  obtain ⟨recs, _, _, hg⟩ := adjPlan_ok h
  have hb := State.dataLen_bounds hv
  obtain ⟨h1, h2, h3⟩ := findLargestGap_bounds hb.1 hg
  omega

/-- The faults of a pass: E_MALFORMED from the scan, E_NOGAP from the extents or from the search (R254). -/
theorem adjPlan_error {s : State} {f : Raised} (h : s.adjPlan = .error f) :
    s.scanTrack true = .error f ∨
    (∃ recs, s.scanTrack true = .ok recs ∧ extentsOf s.dataLen recs = .error f) ∨
    (∃ recs ivs, s.scanTrack true = .ok recs ∧ extentsOf s.dataLen recs = .ok ivs ∧ findLargestGap s.dataLen ivs = none ∧
      f = ⟨.noGap, 0x00FF⟩) := by
  unfold State.adjPlan at h
  split at h
  · next hs => cases h; exact .inl hs
  next recs hr =>
  split at h
  · next he => cases h; exact .inr (.inl ⟨recs, hr, he⟩)
  next ivs he =>
  split at h
  · next hg => exact .inr (.inr ⟨recs, ivs, hr, he, hg, (Except.error.inj h).symm⟩)
  · cases h

theorem adjPlan_error_code {s : State} {f : Raised} (h : s.adjPlan = .error f) : f.code = .malformed ∨ f.code = .noGap := by
  rcases adjPlan_error h with h | ⟨recs, _, h⟩ | ⟨recs, ivs, _, _, _, rfl⟩
  · obtain ⟨_, i, _, rfl, _⟩ := scanTrackFrom_error h
    exact .inl rfl
  · obtain ⟨_, k, _, _, _, _, _, _, rfl, _⟩ := extentsOf_error h
    exact .inr rfl
  · exact .inr rfl

/-! ## The byte move (R208, R209) -/

/-- TB after the move, byte by byte: growing, the bytes above `mid` come from one place below, up to the old TRKLEN; shrinking, those from
`mid` on come from one place above, up to `TRKLEN - 2`. -/
theorem movedBytes_tbByte (s : State) (grow : Bool) (mid a : Nat) (h : mid < s.trklen.toNat) :
    State.tbByte { s with tb := s.movedBytes grow mid } a =
      if grow then (if mid < a ∧ a ≤ s.trklen.toNat then s.tbByte (a - 1) else s.tbByte a)
      else (if mid ≤ a ∧ a < s.trklen.toNat - 1 then s.tbByte (a + 1) else s.tbByte a) := by
  cases grow
  · simp only [State.movedBytes, Bool.false_eq_true, if_false, tbByte_write, State.tbRead, List.length_map, List.length_range]
    by_cases hc : mid ≤ a ∧ a < s.trklen.toNat - 1
    · rw [if_pos (by omega), if_pos hc]
      have hi : a - mid < s.trklen.toNat - 1 - mid := by omega
      simp only [List.getD, List.getElem?_map, List.getElem?_range hi, Option.map_some, Option.getD_some]
      congr 1; omega
    · rw [if_neg (by omega), if_neg hc]
  · simp only [State.movedBytes, if_true, tbByte_write, State.tbRead, List.length_map, List.length_range]
    by_cases hc : mid < a ∧ a ≤ s.trklen.toNat
    · rw [if_pos (by omega), if_pos hc]
      have hi : a - (mid + 1) < s.trklen.toNat - mid := by omega
      simp only [List.getD, List.getElem?_map, List.getElem?_range hi, Option.map_some, Option.getD_some]
      congr 1; omega
    · rw [if_neg (by omega), if_neg hc]

theorem movedBytes_wf {s : State} (h : s.tb.wf) (hv : s.validLen = true) (grow : Bool) {mid : Nat} (hm : mid < s.trklen.toNat) :
    (s.movedBytes grow mid).wf := by
  obtain ⟨_, hb⟩ := State.validLen_iff.mp hv
  unfold State.movedBytes
  split
  · refine wf_write h ?_
    simp only [State.tbRead, List.length_map, List.length_range, Config.tbCap]
    omega
  · refine wf_write h ?_
    simp only [State.tbRead, List.length_map, List.length_range, Config.tbCap]
    omega

/-! ## The pointer rewrite (R210) -/

theorem densityPart_eq (x : Half) : x &&& 0xC000 = x.extractLsb' 14 2 ++ 0#14 := by
  apply BitVec.eq_of_getLsbD_eq
  intro i hi
  rw [BitVec.getLsbD_append]
  interval_cases i <;> simp

theorem offsetPart_eq (x : Half) : x &&& 0x3FFF = 0#2 ++ x.extractLsb' 0 14 := by
  apply BitVec.eq_of_getLsbD_eq
  intro i hi
  rw [BitVec.getLsbD_append]
  interval_cases i <;> simp

theorem densityPart_or_offsetPart (x y : Half) :
    ((x &&& 0xC000) ||| (y &&& 0x3FFF)).toNat = x.toNat / 0x4000 * 0x4000 + y.toNat % 0x4000 := by
  have h : (x &&& 0xC000) ||| (y &&& 0x3FFF) = x.extractLsb' 14 2 ++ y.extractLsb' 0 14 := by
    rw [densityPart_eq, offsetPart_eq]
    apply BitVec.eq_of_getLsbD_eq
    intro i hi
    rw [BitVec.getLsbD_or, BitVec.getLsbD_append, BitVec.getLsbD_append, BitVec.getLsbD_append]
    split <;> simp
  have := x.isLt
  rw [h, append_toNat, field_toNat, field_toNat]
  omega

/-- The entry that moves, as a number: its top two bits kept, its offset moved by one modulo 2^14. -/
theorem movedPointer_toNat {grow : Bool} {mid : Nat} {t : Half} (h0 : t ≠ 0) (h : mid < t.toNat % 0x4000) :
    (movedPointer grow mid t).toNat = t.toNat / 0x4000 * 0x4000 + (t.toNat % 0x4000 + (if grow then 1 else 0x3FFF)) % 0x4000 := by
  unfold movedPointer
  rw [if_pos ⟨h0, by rwa [dmkIdxOf_eq]⟩, densityPart_or_offsetPart]
  have ho : (t &&& 0x3FFF).toNat = t.toNat % 0x4000 := dmkIdxOf_eq t
  have h1 : (1 : Half).toNat = 1 := rfl
  have h2 : (-1 : Half).toNat = 65535 := rfl
  rw [BitVec.toNat_add, ho]
  cases grow <;> simp only [h1, h2, if_true, if_false, Bool.false_eq_true] <;> omega

/-- The entry that does not move. -/
theorem movedPointer_same {grow : Bool} {mid : Nat} {t : Half} (h : t = 0 ∨ t.toNat % 0x4000 ≤ mid) : movedPointer grow mid t = t := by
  unfold movedPointer
  rw [if_neg]
  rw [dmkIdxOf_eq]
  rintro ⟨h0, h1⟩
  rcases h with h | h
  · exact h0 h
  · omega
/-- Rewriting pointers changes TB alone. -/
theorem rewritePointer_eq (s : State) (grow : Bool) (mid k : Nat) :
    s.rewritePointer grow mid k = { s with tb := (s.rewritePointer grow mid k).tb } := by
  unfold State.rewritePointer
  split <;> rfl

theorem pt_of_write (s : State) (k j : Nat) (v : Half) :
    State.pt { s with tb := s.tb.write (2 * k) (le16Bytes v) } j = if j = k then v else s.pt j := by
  have hv : hi v ++ lo v = v := by
    apply BitVec.eq_of_toNat_eq
    simp only [hi, lo, BitVec.toNat_append, BitVec.extractLsb'_toNat, Nat.shiftRight_eq_div_pow]
    have := v.isLt
    rw [← Nat.shiftLeft_add_eq_or_of_lt (by omega), Nat.shiftLeft_eq]
    omega
  simp only [State.pt, tbByte_write, le16Bytes, List.length_cons, List.length_nil]
  by_cases h : j = k
  · subst h
    rw [if_pos (by omega), if_pos (by omega), if_pos rfl]
    simpa using hv
  · rw [if_neg (by omega), if_neg (by omega), if_neg h]

/-- One slot's rewrite: that entry becomes `movedPointer` of itself. -/
theorem rewritePointer_pt (s : State) (grow : Bool) (mid k j : Nat) :
    (s.rewritePointer grow mid k).pt j = if j = k then movedPointer grow mid (s.pt j) else s.pt j := by
  unfold State.rewritePointer
  split
  · next h => split <;> simp_all
  · rw [pt_of_write]
    split <;> simp_all

theorem rewritePointer_tbByte (s : State) (grow : Bool) (mid k a : Nat) (h : a ≠ 2 * k) (h' : a ≠ 2 * k + 1) :
    (s.rewritePointer grow mid k).tbByte a = s.tbByte a := by
  unfold State.rewritePointer
  split
  · rfl
  · rw [tbByte_write, if_neg]
    simp only [le16Bytes, List.length_cons, List.length_nil]
    omega

theorem rewritePointer_wf {s : State} (h : s.tb.wf) (grow : Bool) (mid : Nat) {k : Nat} (hk : k < 64) :
    (s.rewritePointer grow mid k).tb.wf := by
  unfold State.rewritePointer
  split
  · exact h
  · refine wf_write h ?_
    simp only [le16Bytes, List.length_cons, List.length_nil, Config.tbCap]
    omega

/-- The rewrite of the slots of `ks`, one after another. -/
theorem foldl_rewritePointer (ks : List Nat) (s : State) (grow : Bool) (mid : Nat) (hn : ks.Nodup) (hb : ∀ k ∈ ks, k < 64) :
    let t := ks.foldl (fun t k => t.rewritePointer grow mid k) s
    t = { s with tb := t.tb } ∧
    (∀ j, t.pt j = if j ∈ ks then movedPointer grow mid (s.pt j) else s.pt j) ∧
    (∀ a, 128 ≤ a → t.tbByte a = s.tbByte a) ∧
    (s.tb.wf → t.tb.wf) := by
  induction ks generalizing s with
  | nil => simp
  | cons k rest ih =>
    simp only [List.foldl_cons]
    obtain ⟨hk, hn⟩ := List.nodup_cons.mp hn
    have hk64 := hb k List.mem_cons_self
    obtain ⟨h1, h2, h3, h4⟩ := ih (s.rewritePointer grow mid k) hn fun j hj => hb j (List.mem_cons_of_mem _ hj)
    refine ⟨?_, fun j => ?_, fun a ha => ?_, fun hw => h4 (rewritePointer_wf hw grow mid hk64)⟩
    · rw [h1, rewritePointer_eq]
    · rw [h2, rewritePointer_pt]
      by_cases hjk : j = k
      · subst hjk; simp [hk]
      · simp [hjk]
    · rw [h3 a ha, rewritePointer_tbByte _ _ _ _ _ (by omega) (by omega)]

/-- The whole rewrite (R210): only the 64 entries change, each to `movedPointer` of itself. -/
theorem rewritePointers_spec (s : State) (grow : Bool) (mid : Nat) :
    let t := s.rewritePointers grow mid
    t = { s with tb := t.tb } ∧ (∀ j, t.pt j = if j < 64 then movedPointer grow mid (s.pt j) else s.pt j) ∧
    (∀ a, 128 ≤ a → t.tbByte a = s.tbByte a) ∧ (s.tb.wf → t.tb.wf) := by
  have := foldl_rewritePointer (List.range 64) s grow mid List.nodup_range (by simp)
  simpa [State.rewritePointers, Config.ptabSlots] using this

/-! ## A pass -/

/-- A pass changes TB, IV, IVCNT, the gap registers and TRKLEN, and nothing else (R211). -/
theorem adjApply_eq (s : State) (p : AdjPlan) :
    s.adjApply p = { s with tb := (s.adjApply p).tb, iv := p.ivs, ivcnt := BitVec.ofNat 7 p.ivs.length,
                            gap := ⟨true, BitVec.ofNat 14 p.gapMid, BitVec.ofNat 14 p.gapSize⟩,
                            trklen := if s.dataLen < s.target.toNat then s.trklen + 1 else s.trklen - 1 } := by
  unfold State.adjApply
  simp only [gapRegsOf, Config.ptabBytes]
  rw [(rewritePointers_spec _ _ _).1]
  simp

@[simp] theorem adjApply_target (s : State) (p : AdjPlan) : (s.adjApply p).target = s.target := by rw [adjApply_eq]
@[simp] theorem adjApply_faultV (s : State) (p : AdjPlan) : (s.adjApply p).faultV = s.faultV := by rw [adjApply_eq]
@[simp] theorem adjApply_faultCode (s : State) (p : AdjPlan) : (s.adjApply p).faultCode = s.faultCode := by rw [adjApply_eq]
@[simp] theorem adjApply_finfo (s : State) (p : AdjPlan) : (s.adjApply p).finfo = s.finfo := by rw [adjApply_eq]
@[simp] theorem adjApply_draw (s : State) (p : AdjPlan) : (s.adjApply p).draw = s.draw := by rw [adjApply_eq]
@[simp] theorem adjApply_iv (s : State) (p : AdjPlan) : (s.adjApply p).iv = p.ivs := by rw [adjApply_eq]
@[simp] theorem adjApply_ivcnt (s : State) (p : AdjPlan) : (s.adjApply p).ivcnt = BitVec.ofNat 7 p.ivs.length := by rw [adjApply_eq]
@[simp] theorem adjApply_gap (s : State) (p : AdjPlan) :
    (s.adjApply p).gap = ⟨true, BitVec.ofNat 14 p.gapMid, BitVec.ofNat 14 p.gapSize⟩ := by rw [adjApply_eq]
@[simp] theorem adjApply_trklen (s : State) (p : AdjPlan) :
    (s.adjApply p).trklen = if s.dataLen < s.target.toNat then s.trklen + 1 else s.trklen - 1 := by rw [adjApply_eq]

/-- TB after a pass, from address 128 on: as the byte move left it (R208, R209). -/
theorem adjApply_tbByte (s : State) (p : AdjPlan) (hm : p.gapMid + 128 < s.trklen.toNat) {a : Nat} (ha : 128 ≤ a) :
    (s.adjApply p).tbByte a =
      if s.dataLen < s.target.toNat then (if p.gapMid + 128 < a ∧ a ≤ s.trklen.toNat then s.tbByte (a - 1) else s.tbByte a)
      else (if p.gapMid + 128 ≤ a ∧ a < s.trklen.toNat - 1 then s.tbByte (a + 1) else s.tbByte a) := by
  unfold State.adjApply
  simp only [Config.ptabBytes]
  refine ((rewritePointers_spec _ _ _).2.2.1 a ha).trans ?_
  refine (movedBytes_tbByte { s with iv := p.ivs, ivcnt := BitVec.ofNat 7 p.ivs.length, gap := gapRegsOf (some (p.gapMid, p.gapSize)) }
    _ _ a hm).trans ?_
  simp only [decide_eq_true_eq]
  rfl

/-- The pointer table after a pass (R210): each entry is `movedPointer` of what it was before the pass. -/
theorem adjApply_pt (s : State) (p : AdjPlan) (hm : p.gapMid + 128 < s.trklen.toNat) {k : Nat} (hk : k < 64) :
    (s.adjApply p).pt k = movedPointer (decide (s.dataLen < s.target.toNat)) (p.gapMid + 128) (s.pt k) := by
  unfold State.adjApply
  simp only [Config.ptabBytes]
  refine ((rewritePointers_spec _ _ _).2.1 k).trans ?_
  rw [if_pos hk]
  congr 1
  have hb : ∀ a, a < 128 → State.tbByte { s with
      tb := s.movedBytes (decide (s.dataLen < s.target.toNat)) (p.gapMid + 128) } a = s.tbByte a := by
    intro a ha
    rw [movedBytes_tbByte s _ _ a hm]
    split
    · rw [if_neg (by omega)]
    · rw [if_neg (by omega)]
  exact congrArg₂ (fun x y : Byte => x ++ y) (hb (2 * k + 1) (by omega)) (hb (2 * k) (by omega))

theorem adjApply_wf {s : State} (h : s.tb.wf) (hv : s.validLen = true) {p : AdjPlan} (hm : p.gapMid + 128 < s.trklen.toNat) :
    (s.adjApply p).tb.wf := by
  unfold State.adjApply
  exact (rewritePointers_spec _ _ _).2.2.2 (movedBytes_wf (s := { s with
    iv := p.ivs, ivcnt := BitVec.ofNat 7 p.ivs.length, gap := gapRegsOf (some (p.gapMid, p.gapSize)) }) h hv _ hm)

/-- A pass moves `L` by one towards TARGET, inside the legal lengths (R205, R215). -/
theorem adjApply_dataLen {s : State} (hv : s.validLen = true) (h1 : 1 ≤ s.target.toNat) (h2 : s.target.toNat ≤ 16255)
    (hne : s.dataLen ≠ s.target.toNat) (p : AdjPlan) :
    (s.adjApply p).validLen = true ∧
    (s.adjApply p).dataLen = (if s.dataLen < s.target.toNat then s.dataLen + 1 else s.dataLen - 1) ∧
    (s.adjApply p).adjDistance + 1 = s.adjDistance := by
  obtain ⟨b1, b2, b3⟩ := State.dataLen_bounds hv
  have ht : (s.adjApply p).trklen.toNat = if s.dataLen < s.target.toNat then s.trklen.toNat + 1 else s.trklen.toNat - 1 := by
    rw [adjApply_trklen]
    have h1 : (1 : Half).toNat = 1 := rfl
    split <;> simp only [BitVec.toNat_add, BitVec.toNat_sub, h1] <;> omega
  have hl : (s.adjApply p).dataLen = (if s.dataLen < s.target.toNat then s.dataLen + 1 else s.dataLen - 1) := by
    show (s.adjApply p).trklen.toNat - 128 = _
    rw [ht]
    split <;> omega
  refine ⟨State.validLen_iff.mpr ?_, hl, ?_⟩
  · rw [ht]
    split <;> omega
  · unfold State.adjDistance
    rw [hl, adjApply_target]
    split <;> omega

/-! ## What a pass does to an extent it does not touch (R214) -/

theorem emod_unique {a b r : Int} (q : Int) (h : a = b * q + r) (h0 : 0 ≤ r) (h1 : r < b) : a % b = r := by
  rw [h, Int.add_comm, Int.add_mul_emod_self_left, Int.emod_eq_of_lt h0 h1]

/-- An extent that is shorter than the track, holds the data-region index `f` and does not hold the changed byte moves as a whole: by one
towards TARGET when `f` lies above the changed byte, not at all when it lies below, also where the extent wraps. -/
theorem rd_shift {s : State} {p : AdjPlan} (hv : s.validLen = true) (h1 : 1 ≤ s.target.toNat) (h2 : s.target.toNat ≤ 16255)
   (hne : s.dataLen ≠ s.target.toNat) (hm : p.gapMid < s.dataLen) {a stop f : Int} (hf0 : 0 ≤ f) (hf1 : f < s.dataLen) (haf : a ≤ f) (hfs : f < stop)
   (hlen : stop - a < s.dataLen) (hno : ∀ q, a ≤ q → q < stop → q % (s.dataLen : Int) ≠ p.gapMid) :
   ∀ q, a ≤ q → q < stop →
     (s.adjApply p).rd (q + (if (p.gapMid : Int) < f then (if s.dataLen < s.target.toNat then 1 else -1) else 0)) = s.rd q := by
  intro q hq1 hq2
  obtain ⟨b1, b2, b3⟩ := State.dataLen_bounds hv
  obtain ⟨c1, c2, _⟩ := adjApply_dataLen hv h1 h2 hne p
  have hL0 : (s.dataLen : Int) ≠ 0 := by omega
  have key : ∃ r r' : Nat, q % (s.dataLen : Int) = r ∧ r < s.dataLen ∧ r ≠ p.gapMid ∧
      r' = (if p.gapMid < r then (if s.dataLen < s.target.toNat then r + 1 else r - 1) else r) ∧
      (q + (if (p.gapMid : Int) < f then (if s.dataLen < s.target.toNat then 1 else -1) else 0)) % ((s.adjApply p).dataLen : Int) = r' := by
    rw [c2]
    have hN := hno q hq1 hq2
    generalize s.dataLen = L at *
    have res : ∀ q r : Int, a ≤ q → q < stop → q = r → 0 ≤ r → r < L → r ≠ p.gapMid := by
      intro q r h1 h2 h3 h4 h5 h6
      exact hno q h1 h2 (by rw [emod_unique (r := r) 0 (by omega) h4 h5]; exact h6)
    have resm : ∀ q : Int, a ≤ q → q < stop → 0 ≤ q + L → q + L < L → q + L ≠ p.gapMid := by
      intro q h1 h2 h4 h5 h6
      exact hno q h1 h2 (by rw [emod_unique (r := q + L) (-1) (by rw [Int.mul_neg, Int.mul_one]; omega) h4 h5]; exact h6)
    have resp : ∀ q : Int, a ≤ q → q < stop → 0 ≤ q - L → q - L < L → q - L ≠ p.gapMid := by
      intro q h1 h2 h4 h5 h6
      exact hno q h1 h2 (by rw [emod_unique (r := q - L) 1 (by omega) h4 h5]; exact h6)
    have hcase : (0 ≤ q ∧ q < L) ∨ (q < 0 ∧ 0 ≤ q + L) ∨ (L ≤ q ∧ q - L < L) := by omega
    rcases hcase with ⟨u1, u2⟩ | ⟨u1, u2⟩ | ⟨u1, u2⟩
    · have e : q % (L:Int) = q := Int.emod_eq_of_lt u1 u2
      rw [e] at hN
      have side : (p.gapMid : Int) < f ↔ (p.gapMid : Int) < q := by
        by_contra hc
        have hfm := res f f haf hfs rfl hf0 hf1
        rcases lt_or_ge (p.gapMid : Int) f with h | h
        · have : q < p.gapMid := by omega
          exact res p.gapMid p.gapMid (by omega) (by omega) rfl (by omega) (by omega) rfl
        · have : f < p.gapMid := by omega
          exact res p.gapMid p.gapMid (by omega) (by omega) rfl (by omega) (by omega) rfl
      refine ⟨q.toNat, _, by omega, by omega, by omega, rfl, ?_⟩
      by_cases hg : L < s.target.toNat <;> by_cases hs : (p.gapMid : Int) < f
      · have hs' := side.mp hs
        rw [if_pos hs, if_pos hg, if_pos hg, if_pos (by omega), if_pos hg]
        exact emod_unique 0 (by omega) (by omega) (by omega)
      · have hs' : ¬ (p.gapMid:Int) < q := fun h => hs (side.mpr h)
        rw [if_neg hs, if_pos hg, if_neg (by omega)]
        exact emod_unique 0 (by omega) (by omega) (by omega)
      · have hs' := side.mp hs
        rw [if_pos hs, if_neg hg, if_neg hg, if_pos (by omega), if_neg hg]
        exact emod_unique 0 (by omega) (by omega) (by omega)
      · have hs' : ¬ (p.gapMid:Int) < q := fun h => hs (side.mpr h)
        rw [if_neg hs, if_neg hg, if_neg (by omega)]
        exact emod_unique 0 (by omega) (by omega) (by omega)
    · have e : q % (L:Int) = q + L := emod_unique (-1) (by rw [Int.mul_neg, Int.mul_one]; omega) u2 (by omega)
      have hgf : ¬ (p.gapMid : Int) < f := by
        intro h
        exact res p.gapMid p.gapMid (by omega) (by omega) rfl (by omega) (by omega) rfl
      have hgr : (p.gapMid : Int) < q + L := by
        by_contra hc
        have := resm (p.gapMid - L) (by omega) (by omega) (by omega) (by omega)
        omega
      refine ⟨(q + L).toNat, _, by omega, by omega, by omega, rfl, ?_⟩
      by_cases hg : L < s.target.toNat
      · have hz : p.gapMid < (q + L).toNat := by omega
        simp only [hgf, hz, hg, if_true, if_false]
        exact emod_unique (-1) (by rw [Int.mul_neg, Int.mul_one]; omega) (by omega) (by omega)
      · have hz : p.gapMid < (q + L).toNat := by omega
        simp only [hgf, hz, hg, if_true, if_false]
        exact emod_unique (-1) (by rw [Int.mul_neg, Int.mul_one]; omega) (by omega) (by omega)
    · have e : q % (L:Int) = q - L := emod_unique 1 (by omega) (by omega) u2
      have hgf : (p.gapMid : Int) < f := by
        by_contra hc
        exact res p.gapMid p.gapMid (by omega) (by omega) rfl (by omega) (by omega) rfl
      have hgr : ¬ (p.gapMid : Int) < q - L := by
        intro hc
        have := resp (p.gapMid + L) (by omega) (by omega) (by omega) (by omega)
        omega
      rw [e] at hN
      refine ⟨(q - L).toNat, _, by omega, by omega, by omega, rfl, ?_⟩
      by_cases hg : L < s.target.toNat
      · have hz : ¬ p.gapMid < (q - L).toNat := by omega
        simp only [hgf, hz, hg, if_true, if_false]
        exact emod_unique 1 (by omega) (by omega) (by omega)
      · have hz : ¬ p.gapMid < (q - L).toNat := by omega
        simp only [hgf, hz, hg, if_true, if_false]
        exact emod_unique 1 (by omega) (by omega) (by omega)
  obtain ⟨r, r', k1, k2, k3, k4, k5⟩ := key
  unfold State.rd State.wrap
  rw [k1, k5]
  simp only [Config.ptabBytes, Int.toNat_natCast]
  rw [adjApply_tbByte s p (by omega) (by omega), k4]
  by_cases hg : s.dataLen < s.target.toNat
  · simp only [if_pos hg]
    by_cases hr : p.gapMid < r
    · rw [if_pos hr, if_pos (by omega)]; congr 1
    · rw [if_neg hr, if_neg (by omega)]
  · simp only [if_neg hg]
    by_cases hr : p.gapMid < r
    · rw [if_pos hr, if_pos (by omega), show 128 + (r - 1) + 1 = 128 + r by omega]
    · rw [if_neg hr, if_neg (by omega)]

/-! ## The passes of a run (R212) -/

theorem adjPass_cases {s s' : State} (h : s.adjPass = .ok s') : ∃ p, s.adjPlan = .ok p ∧ s' = s.adjApply p := by
  unfold State.adjPass at h
  cases hp : s.adjPlan with
  | error f => rw [hp] at h; cases h
  | ok p => rw [hp] at h; cases h; exact ⟨p, rfl, rfl⟩

theorem adjPass_error {s : State} {f : Raised} : s.adjPass = .error f ↔ s.adjPlan = .error f := by
  unfold State.adjPass
  cases s.adjPlan <;> simp

/-- What every pass keeps, the passes of a run keep. -/
theorem adjPasses_induct {P : State → Prop} (hstep : ∀ s p, P s → s.adjPlan = .ok p → P (s.adjApply p)) (n : Nat) {s : State}
    (h : P s) : P (s.adjPasses n).1 := by
  induction n generalizing s with
  | zero => exact h
  | succ n ih =>
    unfold State.adjPasses
    cases hp : s.adjPass with
    | error f => exact h
    | ok s' =>
      obtain ⟨p, h1, rfl⟩ := adjPass_cases hp
      exact ih (hstep s p h h1)

/-- What the passes of a run leave alone (R212): everything but TB, IV, IVCNT, the gap registers and TRKLEN. -/
theorem adjPasses_eq (s : State) (n : Nat) :
    let t := (s.adjPasses n).1
    t = { s with tb := t.tb, iv := t.iv, ivcnt := t.ivcnt, gap := t.gap, trklen := t.trklen } := by
  refine adjPasses_induct (P := fun t => t = { s with tb := t.tb, iv := t.iv, ivcnt := t.ivcnt, gap := t.gap, trklen := t.trklen })
    (fun t p ht _ => ?_) n rfl
  rw [adjApply_eq]
  generalize (t.adjApply p).tb = m
  rw [ht]

/-- The fault of a run is a fault of a pass: E_MALFORMED or E_NOGAP (R254). -/
theorem adjPasses_error_code {n : Nat} {s s' : State} {f : Raised} (h : s.adjPasses n = (s', some f)) :
    f.code = .malformed ∨ f.code = .noGap := by
  induction n generalizing s with
  | zero => cases h
  | succ n ih =>
    unfold State.adjPasses at h
    cases hp : s.adjPass with
    | error g =>
      rw [hp] at h
      cases h
      exact adjPlan_error_code (adjPass_error.mp hp)
    | ok u => rw [hp] at h; exact ih h

end Sys2Proof.Machine
end

