-- ==== Sys2Proof/Laws/Encoder.lean ====
section
/-! SUPPORT. The lengths of what the synthesizer emits, and where a field of an encoded track stands in it. -/

namespace Sys2Proof.Machine

@[simp] theorem gapRun_length (n : Nat) : (gapRun n).length = n := by simp [gapRun]
@[simp] theorem syncRun_length : syncRun.length = 12 := rfl
@[simp] theorem indexMark_length : indexMark.length = 4 := rfl
@[simp] theorem idMark_length : idMark.length = 4 := rfl
@[simp] theorem dataMark_length (t : Byte) : (dataMark t).length = 4 := rfl
@[simp] theorem be16Bytes_length (v : Half) : (be16Bytes v).length = 2 := rfl
@[simp] theorem le16Bytes_length (v : Half) : (le16Bytes v).length = 2 := rfl
@[simp] theorem idFrame_length (c h r n : Byte) : (idFrame c h r n).length = 10 := rfl
@[simp] theorem dataFrame_length (payload : List Byte) (corrupt : Bool) : (dataFrame payload corrupt).length = payload.length + 6 := by
  simp [dataFrame]
  omega
@[simp] theorem payload_length (s : State) (i : Nat) : (s.payload i).length = s.encSize := by simp [State.payload, State.pbRead]

/-- A sector block has the length `S` of R151. -/
@[simp] theorem sectorBlock_length (s : State) (i : Nat) : (s.sectorBlock i).length = s.encBlockLen := by
  simp [State.sectorBlock, State.encBlockLen]
  omega

/-- The head has the length `P0` of R91. -/
@[simp] theorem trackHead_length (s : State) : s.trackHead.length = s.encHeadLen := by
  simp [State.trackHead, State.encHeadLen]
  omega

theorem flatMap_length_const {f : Nat → List Byte} {c : Nat} (h : ∀ i, (f i).length = c) (n : Nat) :
    ((List.range n).flatMap f).length = n * c := by
  induction n with
  | zero => simp
  | succ n ih => rw [List.range_succ, List.flatMap_append, List.length_append, ih]; simp [h, Nat.succ_mul]

/-- Block `i` of a concatenation of blocks of one length. -/
theorem flatMap_getElem?_const {f : Nat → List Byte} {c : Nat} (h : ∀ i, (f i).length = c) {n i j : Nat} (hi : i < n) (hj : j < c) :
    ((List.range n).flatMap f)[i * c + j]? = (f i)[j]? := by
  induction n with
  | zero => omega
  | succ n ih =>
    rw [List.range_succ, List.flatMap_append]
    have hlen := flatMap_length_const h n
    by_cases hin : i < n
    · rw [List.getElem?_append_left]
      · exact ih hin
      · rw [hlen]
        calc i * c + j < i * c + c := by omega
          _ = (i + 1) * c := by rw [Nat.succ_mul]
          _ ≤ n * c := Nat.mul_le_mul_right c hin
    · obtain rfl : i = n := by omega
      rw [List.getElem?_append_right (by omega), hlen]
      simp

@[simp] theorem pointerTable_length (s : State) : s.pointerTable.length = 128 := by
  rw [State.pointerTable, flatMap_length_const (c := 2) fun _ => rfl]
  rfl

theorem trackData_length (s : State) : s.trackData.length = s.encFixed + s.encGap4b.toNat := by
  rw [State.trackData, List.length_append, List.length_append, flatMap_length_const (sectorBlock_length s)]
  simp [State.encFixed]

theorem encodedTrack_length (s : State) : s.encodedTrack.length = 128 + (s.encFixed + s.encGap4b.toNat) := by
  rw [State.encodedTrack, List.length_append, pointerTable_length, trackData_length]

/-- An encoded track is as long as the checks of R152 say. -/
theorem encodedTrack_length_eq {s : State} (hv : s.validLen = true) (h : 0 < s.encGap4b)
    (hl : (s.encFixed : Int) + s.encGap4b = (s.dataLen : Int)) : s.encodedTrack.length = s.trklen.toNat := by
  have := State.dataLen_bounds hv
  rw [encodedTrack_length]
  omega

end Sys2Proof.Machine
end

