-- ==== Sys2Proof/Laws/PerInstr.lean ====
section
/-! SUPPORT. Per instruction: the word the encoder lays out carries, in the bits the command's row of R106 fixes, that row's pattern. -/

namespace Sys2Proof.Laws.EncodeMatchesRow

/-- The encoding of a command matches the row of the opcode map (R106) it stands for. -/
def Statement (i : Instr) : Prop := encode i &&& rowMask i = rowMatch i

/-- A word known as a number matches a row when each of its 32 bits does. -/
theorem of_bits {w m r : Word} {n : Nat} (h : w.toNat = n)
    (hk : ∀ k < 32, (decide (n / 2 ^ k % 2 = 1) && m.getLsbD k) = r.getLsbD k) : w &&& m = r := by
  apply BitVec.eq_of_getLsbD_eq
  intro k hk'
  rw [BitVec.getLsbD_and, ← hk k hk', BitVec.getLsbD, h, Nat.testBit_eq_decide_div_mod_eq]

theorem nop : Statement .nop := by unfold Statement; decide
theorem crcSeed : Statement .crcSeed := by unfold Statement; decide
theorem encTrack : Statement .encTrack := by unfold Statement; decide
theorem scanStart : Statement .scanStart := by unfold Statement; decide
theorem scanNext : Statement .scanNext := by unfold Statement; decide
theorem gapClr : Statement .gapClr := by unfold Statement; decide
theorem gapAdd : Statement .gapAdd := by unfold Statement; decide
theorem gapFind : Statement .gapFind := by unfold Statement; decide
theorem adjStep : Statement .adjStep := by unfold Statement; decide
theorem adjRun : Statement .adjRun := by unfold Statement; decide

theorem regRd (r : BitVec 8) : Statement (.regRd r) := by
  refine of_bits (encode_regRd_toNat r) fun k hk => ?_
  have := r.isLt
  interval_cases k <;> simp [rowMask, rowMatch] <;> omega

theorem regWr (r : BitVec 8) (v : Half) : Statement (.regWr r v) := by
  refine of_bits (encode_regWr_toNat r v) fun k hk => ?_
  have := r.isLt
  have := v.isLt
  interval_cases k <;> simp [rowMask, rowMatch] <;> omega

theorem crcUpd (b : Byte) : Statement (.crcUpd b) := by
  refine of_bits (encode_crcUpd_toNat b) fun k hk => ?_
  have := b.isLt
  interval_cases k <;> simp [rowMask, rowMatch] <;> omega

theorem tbRd (addr : BitVec 14) : Statement (.tbRd addr) := by
  refine of_bits (encode_tbRd_toNat addr) fun k hk => ?_
  have := addr.isLt
  interval_cases k <;> simp [rowMask, rowMatch] <;> omega

theorem tbWr (addr : BitVec 14) (b : Byte) : Statement (.tbWr addr b) := by
  refine of_bits (encode_tbWr_toNat addr b) fun k hk => ?_
  have := addr.isLt
  have := b.isLt
  interval_cases k <;> simp [rowMask, rowMatch] <;> omega

theorem trkRd (idx : Int) : Statement (.trkRd idx) := by
  have h := encode_trkRd_toNat idx
  refine of_bits (n := 0x22000000 + (idx % 0x1000000).toNat) (by omega) fun k hk => ?_
  have : (idx % 0x1000000).toNat < 0x1000000 := by omega
  interval_cases k <;> simp [rowMask, rowMatch] <;> omega

theorem pbRd (addr : BitVec 14) : Statement (.pbRd addr) := by
  refine of_bits (encode_pbRd_toNat addr) fun k hk => ?_
  have := addr.isLt
  interval_cases k <;> simp [rowMask, rowMatch] <;> omega

theorem pbWr (addr : BitVec 14) (b : Byte) : Statement (.pbWr addr b) := by
  refine of_bits (encode_pbWr_toNat addr b) fun k hk => ?_
  have := addr.isLt
  have := b.isLt
  interval_cases k <;> simp [rowMask, rowMatch] <;> omega

end Sys2Proof.Laws.EncodeMatchesRow
end

