-- ==== Sys2Proof/Machine/HostSide.lean ====
section
/-! DEFINITION. What the host does around the block (R110, spec/46_profiles.md): pseudo-commands, profiles as register writes, the loops of R230, the DMK file
header and layout, the length `combine-dmk` chooses. None of it is behaviour of the block (R5): `step` and `exec` use nothing of this file. -/

namespace Sys2Proof.Machine

/-! ## Issuing commands -/

/-- What a session of the host ends with: the state of the block, and what the host has of the responses. -/
abbrev Session (α : Type) := Host.Outcome (State × α) Fault Refusal

/-- Go on after a next state; a fault or a refusal ends the session. -/
def andThen {α β : Type} (r : Host.Outcome α Fault Refusal) (k : α → Host.Outcome β Fault Refusal) : Host.Outcome β Fault Refusal :=
  match r with
  | .next x => k x
  | .fault f => .fault f
  | .refused f => .refused f

/-- The host issues commands one after another, each after the response to the one before (R69), and keeps every response. -/
def issue (cmds : List Instr) (s : State) : Session (List Word) :=
  match cmds with
  | [] => .next (s, [])
  | i :: rest => andThen (exec i s) fun s' => andThen (issue rest s') fun p => .next (p.1, s'.resp.toList ++ p.2)

/-- `TB.RD 0` to `TB.RD n-1` (R230), `n` at most 16384. -/
def readOut (n : Nat) : List Instr := (List.range n).map fun a => .tbRd (BitVec.ofNat 14 a)

/-! ## The pseudo-commands of R110 -/

/-- `CRC.BYTES b0, …, bn` (R110). -/
def crcBytes (bytes : List Byte) : List Instr := bytes.map .crcUpd

/-- The expansion of a load (R110): one write for each byte, at `addr`, `addr + 1`, …. A load that passes address 0x3FFF has no expansion
(none): R109 admits no such write and R110 says nothing of it (DESIGN CHOICE, log 15). -/
def expandLoad (write : BitVec 14 → Byte → Instr) (addr : Nat) (bytes : List Byte) : Option (List Instr) :=
  if addr + bytes.length ≤ 0x4000 then some (bytes.zipIdx.map fun p => write (BitVec.ofNat 14 (addr + p.2)) p.1) else none

/-- `TB.LOAD addr, b0, …, bn` (R110); none past 0x3FFF (DESIGN CHOICE, log 15). -/
def tbLoad (addr : Nat) (bytes : List Byte) : Option (List Instr) := expandLoad .tbWr addr bytes

/-- `TB.FILL addr, count, b` (R110); none past 0x3FFF (DESIGN CHOICE, log 15). -/
def tbFill (addr count : Nat) (b : Byte) : Option (List Instr) := tbLoad addr (List.replicate count b)

/-- `PB.LOAD addr, b0, …, bn` (R110); none past 0x3FFF (DESIGN CHOICE, log 15). -/
def pbLoad (addr : Nat) (bytes : List Byte) : Option (List Instr) := expandLoad .pbWr addr bytes

/-- `PB.FILL addr, count, b` (R110); none past 0x3FFF (DESIGN CHOICE, log 15). -/
def pbFill (addr count : Nat) (b : Byte) : Option (List Instr) := pbLoad addr (List.replicate count b)

/-- A response ends a scan: it is 1 (END) or has bit 31 set (R110). -/
def endsScan (response : Word) : Bool := response == 1 || response.msb

/-- SCAN.NEXT, and after it the commands `reads`, repeated until its response ends the scan, at most `n` times (R110). For each SCAN.NEXT
the responses to it and to its `reads`. -/
def scanUntilEnd (reads : List Instr) (n : Nat) (s : State) : Session (List (List Word)) :=
  match n with
  | 0 => .next (s, [])
  | n + 1 =>
    andThen (issue (.scanNext :: reads) s) fun p =>
      if p.2.head?.all endsScan then .next (p.1, [p.2])
      else andThen (scanUntilEnd reads n p.1) fun q => .next (q.1, p.2 :: q.2)

/-- SCAN.START, then at most 65 SCAN.NEXT, each followed by `reads`. -/
def scanWith (reads : List Instr) (s : State) : Session (List (List Word)) :=
  andThen (issue [.scanStart] s) fun p => scanUntilEnd reads 65 p.1

/-- `SCAN.ALL` (R110). -/
def scanAll (s : State) : Session (List (List Word)) := scanWith [] s

/-! ## Profiles (R220 to R225) -/

/-- The parameters ENC.TRACK reads that a profile fixes (R220). `records` are the record numbers, sector index order. -/
structure Profile where
  gap1     : Half
  gap2     : Half
  gap3     : Half
  gap4a    : Half
  sizecode : Byte
  records  : List Byte
  deriving DecidableEq, Repr

/-- "raw track length fixed at 6250 bytes" (R221). -/
abbrev rawTrackLength : Nat := 6250

/-- `trackLength = 6250 + 128 = 6378` (R221). -/
abbrev rawTrkLen : Half := 6378

/-- The record numbers 1 to `n`. -/
def recordsUpTo (n : Nat) : List Byte := (List.range n).map fun i => BitVec.ofNat 8 (i + 1)

/-- DSK (R222): 9 sectors of 512 bytes with `r` = 1..9, gap1 = 50, gap2 = 22, gap3 = 84, gap4a = 80. -/
def dskProfile : Profile :=
  { gap1 := 50, gap2 := 22, gap3 := 84, gap4a := 80, sizecode := 2, records := recordsUpTo 9 }

/-- What the document does not give for SVI: gap1, gap2, gap4a, and the record numbers of the 18 sectors of track 0 side 0 and of the 17
of every other track (R224, log 13). -/
structure UnstatedSvi where
  gap1         : Half
  gap2         : Half
  gap4a        : Half
  firstRecords : Vector Byte 18
  records      : Vector Byte 17
  deriving DecidableEq, Repr

/-- SVI (R224): cylinder 0 side 0 has 18 sectors of 128 bytes with gap3 = 84, every other track 17 of 256 bytes with gap3 = 34. -/
def sviProfile (u : UnstatedSvi) (cyl side : Nat) : Profile :=
  if cyl = 0 ∧ side = 0 then
    { gap1 := u.gap1, gap2 := u.gap2, gap3 := 84, gap4a := u.gap4a, sizecode := 0, records := u.firstRecords.toList }
  else { gap1 := u.gap1, gap2 := u.gap2, gap3 := 34, gap4a := u.gap4a, sizecode := 1, records := u.records.toList }

/-- What the document does not give for SVI-CP/M: gap1, gap2, gap4a and the 17 record numbers (R225, log 13). -/
structure UnstatedSvicpm where
  gap1    : Half
  gap2    : Half
  gap4a   : Half
  records : Vector Byte 17
  deriving DecidableEq, Repr

/-- SVI-CP/M (R225): every track 17 sectors of 256 bytes with gap3 = 34. -/
def svicpmProfile (u : UnstatedSvicpm) : Profile :=
  { gap1 := u.gap1, gap2 := u.gap2, gap3 := 34, gap4a := u.gap4a, sizecode := 1, records := u.records.toList }

/-- The register writes of a profile, gap4b derived from the 6250-byte length (`MODE.G4BAUTO` = 1, STRICT 0) (R220 to R225). -/
def Profile.writes (p : Profile) : List Instr :=
  [.regWr Reg.trklen.num rawTrkLen, .regWr Reg.mode.num 2, .regWr Reg.gap1.num p.gap1, .regWr Reg.gap2.num p.gap2,
   .regWr Reg.gap3.num p.gap3, .regWr Reg.gap4a.num p.gap4a, .regWr Reg.spt.num (BitVec.ofNat 16 p.records.length),
   .regWr Reg.sizecode.num (p.sizecode.setWidth 16)] ++
  p.records.zipIdx.map fun q => .regWr (0x40#8 + BitVec.ofNat 8 q.2) (q.1.setWidth 16)

/-- A `.der` bitmap, "1 bit per sector, MSB-first" (R223): bit `i` is bit `7 - (i mod 8)` of byte `i div 8`. Past the end of the bitmap
there is no bit (none), and nothing is read in its place: R223 says nothing of a short bitmap (DESIGN CHOICE, log 16). -/
def derBit (bitmap : List Byte) (i : Nat) : Option Bool := bitmap[i / 8]?.map fun b => b.getLsbD (7 - i % 8)

/-- A list of bits as a 64-bit mask, the first bit bit 0. -/
def corrMask (bits : List Bool) : BitVec 64 :=
  bits.foldr (fun b m => (m <<< 1) ||| (BitVec.ofBool b).setWidth 64) 0

/-- The writes of CORR for one track (R223, R31). Which bitmap bit belongs to which sector is the caller's: the document does not say
(91 N7). -/
def corrWrites (bits : List Bool) : List Instr :=
  let m := corrMask bits
  [.regWr Reg.corr0.num (m.extractLsb' 0 16), .regWr Reg.corr1.num (m.extractLsb' 16 16),
   .regWr Reg.corr2.num (m.extractLsb' 32 16), .regWr Reg.corr3.num (m.extractLsb' 48 16)]

/-! ## Input sizes and disk geometry (R222, R224 to R226) -/

/-- The cylinders and sides of a disk. -/
structure Geometry where
  cylinders : Nat
  sides     : Nat
  deriving DecidableEq, Repr

/-- The physical tracks `(cyl, side)`, "cylinder-major, side-minor (side varies fastest)" (R228). -/
def Geometry.tracks (g : Geometry) : List (Nat × Nat) :=
  (List.range g.cylinders).flatMap fun cyl => (List.range g.sides).map fun side => (cyl, side)

/-- DSK: 80 cylinders, 2 sides (R222); the input is exactly `sides × cylinders × sectors × sectorSize` bytes, else fatal, none (R226). -/
def dskGeometry (inputSize : Nat) : Option Geometry := if inputSize = 2 * 80 * 9 * 512 then some ⟨80, 2⟩ else none

/-- SVI: 40 cylinders; the exact input size chooses 1 or 2 sides, any other is fatal, none (R224). -/
def sviGeometry (inputSize : Nat) : Option Geometry :=
  if inputSize = 172032 then some ⟨40, 1⟩ else if inputSize = 346112 then some ⟨40, 2⟩ else none

/-- SVI-CP/M: 40 cylinders, the sides by the exact input size (R225). -/
def svicpmGeometry (inputSize : Nat) : Option Geometry :=
  if inputSize = 174080 then some ⟨40, 1⟩ else if inputSize = 348160 then some ⟨40, 2⟩ else none

/-! ## Driving the block (R230) -/

/-- The converter's commands for one physical track (R230), `Profile.writes` issued before: the cylinder and side, the payload in sector
index order, ENC.TRACK, and the read-out `TB.RD 0` to `TB.RD 6377`. A payload that does not fit in PB has no PB.LOAD (log 15). -/
def trackCommands (cyl side : Byte) (payload : List Byte) : Option (List Instr) :=
  (pbLoad 0 payload).map fun load =>
    [.regWr Reg.idc.num (cyl.setWidth 16), .regWr Reg.idh.num (side.setWidth 16)] ++ load ++ [.encTrack] ++ readOut rawTrkLen.toNat

/-- "append the 6378 bytes to the file" (R230): the bytes the last 6378 responses carry; none when a response says a fault or a refusal,
since then "no partial output file is left usable" (R256). -/
def appendedBytes (responses : List Word) : Option (List Byte) :=
  if responses.any (·.msb) then none
  else some ((responses.drop (responses.length - rawTrkLen.toNat)).map (·.setWidth 8))

/-- The converter's loop for one physical track (R230): the state after it, and the bytes appended to the file. With no `trackCommands`
nothing is issued and nothing appended (log 15). -/
def convertTrack (cyl side : Byte) (payload : List Byte) (s : State) : Session (Option (List Byte)) :=
  match trackCommands cyl side payload with
  | none => .next (s, none)
  | some cmds => andThen (issue cmds s) fun p => .next (p.1, appendedBytes p.2)

/-- The host loads a captured track (R229, R230): TRKLEN, which TB.WR needs (R141), then the bytes. -/
def loadCapture (capture : List Byte) : Option (List Instr) :=
  (tbLoad 0 capture).map fun load => .regWr Reg.trklen.num (BitVec.ofNat 16 capture.length) :: load

/-- REG.RD of the result registers, RKIND (0x19) to DATAOFF (0x24) (R21, R181). -/
def resultReads : List Instr :=
  [Reg.rkind, .rslot, .rptr, .recC, .recH, .recR, .recN, .recType, .recFlags, .rsize, .addroff, .dataoff].map fun g => .regRd g.num

/-- The analyzer's loop for one track (R230): load TB, SCAN.START, then SCAN.NEXT until END, each result read out: for every SCAN.NEXT its
response and the twelve result registers. The text printed of them is not given. A capture longer than TB has no load (log 15). -/
def analyzeTrack (capture : List Byte) (s : State) : Session (Option (List (List Word))) :=
  match loadCapture capture with
  | none => .next (s, none)
  | some load => andThen (issue load s) fun p => andThen (scanWith resultReads p.1) fun q => .next (q.1, some q.2)

/-! ## The DMK file (R227, R228, R231) -/

/-- DmkHeader, 16 bytes (R227). -/
structure DmkHeader where
  writeProtected : Byte
  numTracks      : Byte
  trackLength    : Half
  flags          : Byte
  reserved       : Vector Byte 7
  format         : Vector Byte 4
  deriving DecidableEq, Repr

/-- The bytes of a header, the listed order laid end to end, `trackLength` little-endian (R227). -/
def DmkHeader.bytes (h : DmkHeader) : List Byte :=
  [h.writeProtected, h.numTracks] ++ le16Bytes h.trackLength ++ [h.flags] ++ h.reserved.toList ++ h.format.toList

/-- The legal values of the fields (R227). -/
def DmkHeader.valid (h : DmkHeader) : Bool :=
  (h.writeProtected == 0x00 || h.writeProtected == 0xFF) && decide (128 < h.trackLength.toNat ∧ h.trackLength.toNat < 0x4000) &&
    (h.flags &&& 0xAF) == 0 && h.reserved.toList.all (· == 0) && h.format.toList.all (· == 0)

/-- One side when bit 4 of `flags` is set, else two (R227). -/
def DmkHeader.sides (h : DmkHeader) : Nat := if h.flags.getLsbD 4 then 1 else 2

/-- The header of a file of double-density tracks made from a plain dump: `writeProtected` 0x00, the spec's reading (R231). -/
def plainHeader (cylinders : Byte) (sides : Nat) (trackLength : Half) : DmkHeader :=
  { writeProtected := 0x00, numTracks := cylinders, trackLength, flags := if sides = 1 then 0x10 else 0x00,
    reserved := Vector.replicate 7 0, format := Vector.replicate 4 0 }

/-- Where track `(cyl, side)` starts in the file: cylinder-major, side-minor (R228). -/
def DmkHeader.trackOffset (h : DmkHeader) (cyl side : Nat) : Nat := 16 + (cyl * h.sides + side) * h.trackLength.toNat

/-- The size of the whole file (R228). -/
def DmkHeader.fileSize (h : DmkHeader) : Nat := 16 + h.numTracks.toNat * h.sides * h.trackLength.toNat

/-- The file: the header, then the track buffers in the order of `Geometry.tracks` (R228). -/
def DmkHeader.file (h : DmkHeader) (tracks : List (List Byte)) : List Byte := h.bytes ++ tracks.flatten

/-! ## combine-dmk (R229) -/

/-- The most frequent of the captured lengths, "ties broken by first-seen maximum during a linear scan" (R229). The spec does not say what
the scan runs over: here it runs over the captures in the order of the list, each length with its count over all of them, so that among the
most frequent lengths the one captured earliest wins (DESIGN CHOICE, log 17). -/
def combineLength (lengths : List Nat) : Option Nat :=
  lengths.foldl (fun best l =>
    match best with
    | none => some l
    | some b => if lengths.count b < lengths.count l then some l else some b) none

/-- What the host sends for one capture (R229): its length, its bytes, TARGET = chosen length - 128, ADJ.RUN. A capture longer than TB has
no load (log 15). -/
def combineCommands (capture : List Byte) (chosen : Nat) : Option (List Instr) :=
  (loadCapture capture).map fun load => load ++ [.regWr Reg.target.num (BitVec.ofNat 16 (chosen - 128)), .adjRun]

end Sys2Proof.Machine
end

