-- ==== Sys2Proof/Tests/Slice0.lean ====
section
/-! SUPPORT. The model's own tests: decoding of words written from the spec's encodings, the well-formedness smoke, at most two one-step tests per
command with results from spec/95_test_vectors.md, and for every statement with hypotheses a witness that meets them. -/

namespace Sys2Proof.Tests

open Sys2Proof.Machine

/-! ## Helpers -/

/-- The outcome is a next state that passes `p`. -/
def lands (r : Result) (p : State → Bool) : Bool :=
  match r with
  | .next t => p t
  | .fault _ => false
  | .refused _ => false

/-- The next state of an outcome. -/
def after (r : Result) : State :=
  match r with
  | .next t => t
  | .fault _ => State.reset
  | .refused _ => State.reset

theorem lands_next {r : Result} {p : State → Bool} (h : lands r p = true) : r = .next (after r) ∧ p (after r) = true := by
  cases r with
  | next t => exact ⟨rfl, h⟩
  | fault f => cases h
  | refused f => cases h

/-- The strict scan of the whole table ends without a fault, and the extents of its RECORDs are `ivs`. -/
def scans (s : State) (ivs : List Interval) : Bool :=
  match s.scanTrack true with
  | .ok recs => recs.filterMap (fun p => p.2.extent?) == ivs
  | .error _ => false

theorem scans_ok {s : State} {ivs : List Interval} (h : scans s ivs = true) :
    ∃ recs, strictScanLists s recs ∧ ivs = recs.filterMap (fun p => p.2.extent?) := by
  unfold scans at h
  cases hr : s.scanTrack true with
  | error f => rw [hr] at h; cases h
  | ok recs =>
    rw [hr] at h
    exact ⟨recs, scanTrack_iff.mp hr, (eq_of_beq h).symm⟩

/-- The command took the fault `code` with information `info` (R256). -/
def faulted (code : BitVec 8) (info : Half) (t : State) : Bool :=
  t.faultV && t.faultCode == code && t.finfo == info && t.resp == some (0x80000000 ||| code.setWidth 32)

/-- The command answered `r` and did not fault. -/
def answers (r : Word) (t : State) : Bool := !t.faultV && t.resp == some r

/-- The state after reset with a track length. -/
def withLen (n : Half) : State := { State.reset with trklen := n }

/-- A halted block. -/
def halted : State := { State.reset with faultV := true, faultCode := 2 }

/-- The payload of program P2: `(7*i + 3) mod 256`. -/
def p2Payload : List Byte := (List.range 128).map fun i => BitVec.ofNat 8 (7 * i + 3)

/-- The ID frame to the data CRC of program P2: data indices 32 to 190. -/
def p2Sector : List Byte :=
  [0xA1, 0xA1, 0xA1, 0xFE, 0x05, 0x01, 0x07, 0x00, 0xCB, 0xFE] ++ List.replicate 3 0x4E ++ List.replicate 12 0x00 ++
  [0xA1, 0xA1, 0xA1, 0xFB] ++ p2Payload ++ [0x59, 0x5A]

/-- The track of program P2, pointer table and data region. -/
def p2Track : List Byte :=
  [0xA3, 0x80] ++ List.replicate 126 0 ++ List.replicate 2 0x4E ++ List.replicate 12 0 ++ [0xC2, 0xC2, 0xC2, 0xFC] ++
  List.replicate 2 0x4E ++ List.replicate 12 0 ++ p2Sector ++ List.replicate 9 0x4E

/-- The track of P2 in TB, with a TARGET. -/
def p2 (target : Half) : State := { withLen 328 with tb := cellsAt 0 p2Track, target }

/-- P2's track with the `c` byte of its ID frame changed (V44), in strict mode. -/
def p2BadId : State := { p2 201 with tb := (cellsAt 0 p2Track).write 164 [0x04], mode := 1 }

/-- P2's track with the first 0xA1 of its data mark changed (V45). -/
def p2NoMark : State := { p2 0 with tb := (cellsAt 0 p2Track).write 185 [0x00] }

/-- P2's track with another entry 0 of the pointer table. -/
def p2Entry (lo hi : Byte) : State := { p2 0 with tb := (cellsAt 0 p2Track).write 0 [lo, hi] }

/-- P2's sector and one free byte: `L` = 160. -/
def tight (target : Half) : State :=
  { withLen 288 with tb := cellsAt 0 ([0x83, 0x80] ++ List.replicate 126 0 ++ p2Sector ++ [0x4E]), target }

/-- A track whose table ends at entry 0, `L` = 2. -/
def emptyTrack (target : Half) : State := { withLen 130 with tb := cellsAt 0 (List.replicate 128 0 ++ [0x4E, 0x00]), target }

/-- The registers of P2, with `gap2` as given, and its payload in PB. -/
def p2Regs (len gap2 : Half) : State :=
  { withLen len with
    mode := 2, pb := cellsAt 0 p2Payload
    enc := { EncoderRegs.reset with gap4a := 2, gap1 := 2, gap2 := gap2, gap3 := 2, spt := 1, idc := 5, idh := 1,
                                    rtab := (Vector.replicate 64 0).set 0 7 } }

/-- Registers of an encoding with explicit gap4b. -/
def explicitRegs (spt gap4b : Half) : State := { withLen 328 with enc := { EncoderRegs.reset with spt, gap4b } }

/-- The interval list of a state. -/
def withIv (n : Half) (l : List Interval) : State := { withLen n with iv := l, ivcnt := BitVec.ofNat 7 l.length }

/-! ## Decoding: each command's word as R106 and R109 encode it -/

theorem test_decode_nop : decode 0x00000000 = .ok .nop := by decide
theorem test_decode_regRd : decode 0x017F0000 = .ok (.regRd 0x7F) := by decide
theorem test_decode_regWr : decode 0x0203FFFF = .ok (.regWr 0x03 0xFFFF) := by decide
theorem test_decode_crcSeed : decode 0x10000000 = .ok .crcSeed := by decide
theorem test_decode_crcUpd : decode 0x110000A1 = .ok (.crcUpd 0xA1) := by decide
theorem test_decode_tbRd : decode 0x20014700 = .ok (.tbRd 327) := by decide
theorem test_decode_tbWr : decode 0x210147FB = .ok (.tbWr 327 0xFB) := by decide
theorem test_decode_trkRd : decode 0x22FFFF5B = .ok (.trkRd (-165)) := by decide
theorem test_decode_pbRd : decode 0x233FFF00 = .ok (.pbRd 16383) := by decide
theorem test_decode_pbWr : decode 0x243FFFAA = .ok (.pbWr 16383 0xAA) := by decide
theorem test_decode_encTrack : decode 0x30000000 = .ok .encTrack := by decide
theorem test_decode_scanStart : decode 0x40000000 = .ok .scanStart := by decide
theorem test_decode_scanNext : decode 0x41000000 = .ok .scanNext := by decide
theorem test_decode_gapClr : decode 0x50000000 = .ok .gapClr := by decide
theorem test_decode_gapAdd : decode 0x51000000 = .ok .gapAdd := by decide
theorem test_decode_gapFind : decode 0x52000000 = .ok .gapFind := by decide
theorem test_decode_adjStep : decode 0x60000000 = .ok .adjStep := by decide
theorem test_decode_adjRun : decode 0x61000000 = .ok .adjRun := by decide

/-- Non-zero must-be-zero fields and unassigned opcodes (V10, V22, V80). -/
theorem test_decode_rejects :
    decode 0x10000001 = .error .operandNotZero ∧ decode 0x11000141 = .error .operandNotZero ∧
    decode 0x01050001 = .error .operandNotZero ∧ decode 0x23400000 = .error .operandNotZero ∧
    decode 0x20000001 = .error .operandNotZero ∧ decode 0x24800000 = .error .operandNotZero ∧
    decode 0x00000001 = .error .operandNotZero ∧ decode 0x03000000 = .error .unassignedOpcode ∧
    decode 0xFF000000 = .error .unassignedOpcode := by decide

/-! ## Well-formedness smoke -/

/-- An index above the signed 24-bit range is no operand. -/
theorem test_wellFormed_index_high : Instr.wellFormed (.trkRd 8388608) = false := by decide
/-- An index below it is none. -/
theorem test_wellFormed_index_low : Instr.wellFormed (.trkRd (-8388609)) = false := by decide
/-- Both ends are. -/
theorem test_wellFormed_index_ends :
    Instr.wellFormed (.trkRd 8388607) = true ∧ Instr.wellFormed (.trkRd (-8388608)) = true := by decide

/-! ## The step and the interface -/

/-- V80: REG.RD CRC as the first command after reset. -/
theorem test_step_first : lands (step (State.reset.withFetchWord 32 0x01050000)) (answers 0xFFFF) = true := by decide
theorem test_decodeTableWord : decodeTableWord 32 0x51000000 = some .gapAdd := by decide
/-- V10: a word with a non-zero must-be-zero field. -/
theorem test_step_illegal : lands (step (State.reset.withFetchWord 32 0x11000141)) (faulted 1 0x1100) = true := by decide
/-- Reset leaves the halt (R258). -/
theorem test_step_reset :
    lands (step { halted with crc := 3, input := [.reset] }) (fun t => !t.faultV && t.crc == 0xFFFF && t.draw == 1) = true := by decide

/-! ## One step per command, results from spec/95_test_vectors.md -/

theorem test_nop : lands (exec .nop State.reset) (answers 0) = true := by decide
theorem test_nop_halted : lands (exec .nop halted) (fun t => t.resp == some 0x80000002) = true := by decide
/-- V80 -/
theorem test_regRd : lands (exec (.regRd 0x05) State.reset) (answers 0xFFFF) = true := by decide
/-- V80 -/
theorem test_regRd_unassigned : lands (exec (.regRd 0x80) State.reset) (faulted 1 0x0180) = true := by decide
/-- V80: MODE implements two bits. -/
theorem test_regWr : lands (exec (.regWr 0x03 0xFFFF) State.reset) (fun t => answers 0 t && t.readReg .mode == 3) = true := by decide
/-- V80: SLOT is read-only. -/
theorem test_regWr_readOnly : lands (exec (.regWr 0x18 5) State.reset) (faulted 1 0x0218) = true := by decide
/-- V10 -/
theorem test_crcSeed : lands (exec .crcSeed { State.reset with crc := 0 }) (fun t => answers 0xFFFF t && t.crc == 0xFFFF) = true := by decide
/-- V1, V10 -/
theorem test_crcUpd : lands (exec (.crcUpd 0x56) { State.reset with crc := 0x1234 }) (answers 0x3C40) = true := by decide
/-- V6: the check value. -/
theorem test_crc16_check : crc16 [0x31, 0x32, 0x33, 0x34, 0x35, 0x36, 0x37, 0x38, 0x39] = 0x29B1 := by decide +kernel
/-- V20 -/
theorem test_tbRd : lands (exec (.tbRd 1) (p2 0)) (fun t => answers 0x80 t && t.data == 0x80) = true := by decide +kernel
/-- V20 -/
theorem test_tbRd_range : lands (exec (.tbRd 328) (p2 0)) (faulted 3 328) = true := by decide +kernel
/-- V21: a legal length of 16383. -/
theorem test_tbWr : lands (exec (.tbWr 16382 0x5A) (withLen 16383)) (fun t => answers 0 t && t.tb == [(16382, 0x5A)]) = true := by decide
/-- V21 -/
theorem test_tbWr_badLen : lands (exec (.tbWr 0 1) (withLen 16384)) (faulted 2 0x4000) = true := by decide
/-- V20: -165 mod 200 = 35. -/
theorem test_trkRd_negative : lands (exec (.trkRd (-165)) (p2 0)) (answers 0xFE) = true := by decide +kernel
/-- V20: 8388607 mod 200 = 7. -/
theorem test_trkRd_large : lands (exec (.trkRd 8388607) (p2 0)) (answers 0x00) = true := by decide +kernel
/-- V22 -/
theorem test_pbWr : lands (exec (.pbWr 16383 0xAA) State.reset) (fun t => answers 0 t && t.pb == [(16383, 0xAA)]) = true := by decide
/-- V22 -/
theorem test_pbRd : lands (exec (.pbRd 16383) { State.reset with pb := [(16383, 0xAA)] }) (answers 0xAA) = true := by decide
/-- P2: gap4b = 7, entry 0, the index mark, the ID frame with its CRC, the data mark and the first payload byte. -/
theorem test_encTrack :
    lands (exec .encTrack (p2Regs 328 3)) (fun t => answers 7 t && t.tbByte 0 == 0xA3 && t.tbByte 1 == 0x80 && t.tbByte 145 == 0xFC &&
      t.tbByte 163 == 0xFE && t.tbByte 166 == 7 && t.tbByte 168 == 0xCB && t.tbByte 169 == 0xFE && t.tbByte 188 == 0xFB &&
      t.tbByte 189 == 0x03 && t.tbByte 327 == 0x4E) = true := by decide +kernel
/-- R152: a layout that does not land on L, `fixed + gap4b` = 16 + 100. -/
theorem test_encTrack_layout : lands (exec .encTrack (explicitRegs 0 100)) (faulted 6 116) = true := by decide
theorem test_scanStart :
    lands (exec .scanStart { State.reset with slot := 7, scandone := true }) (fun t => answers 0 t && t.slot == 0 && !t.scandone) = true := by
  decide
/-- V40a (but for the data CRC's verdict, whose evaluation is long). -/
theorem test_scanNext_record :
    lands (exec .scanNext (p2 0)) (fun t => answers 7 t && t.slot == 1 && t.scan.rptr == 0x80A3 && t.scan.recC == 5 && t.scan.recH == 1 &&
      t.scan.recR == 7 && t.scan.recN == 0 && t.scan.recType == 0xFB && t.scan.rsize == 128 && t.scan.addroff == 32 &&
      t.scan.dataoff == 57) = true := by decide +kernel
/-- V44 in strict mode. -/
theorem test_scanNext_strict : lands (exec .scanNext p2BadId) (fun t => faulted 7 0x0005 t && t.slot == 0) = true := by decide +kernel
theorem test_gapClr : lands (exec .gapClr (withIv 0 [⟨1, 2⟩])) (fun t => answers 0 t && t.iv == [] && t.ivcnt == 0) = true := by decide
/-- R198's worked example. -/
theorem test_gapAdd :
    lands (exec .gapAdd { State.reset with ivs := 90, ive := 10 }) (fun t => answers 1 t && t.iv == [⟨90, 10⟩]) = true := by decide
/-- V69m: the 65th pair. -/
theorem test_gapAdd_full : lands (exec .gapAdd (withIv 0 (List.replicate 64 ⟨0, 0⟩))) (faulted 10 64) = true := by decide
/-- V60, R199's worked example. -/
theorem test_gapFind :
    lands (exec .gapFind (withIv 228 [⟨90, 10⟩])) (fun t => answers 0x10032 t && t.gap == ⟨true, 50, 80⟩) = true := by decide +kernel
/-- V62: fully covered. -/
theorem test_gapFind_none :
    lands (exec .gapFind (withIv 228 [⟨0, 50⟩, ⟨50, 100⟩])) (fun t => answers 0 t && t.gap == ⟨false, 0, 0⟩) = true := by decide +kernel
/-- V70 -/
theorem test_adjStep_grow :
    lands (exec .adjStep (p2 201)) (fun t => answers 1 t && t.trklen == 329 && t.pt 0 == 0x80A4 && t.gap == ⟨true, 11, 41⟩ &&
      t.iv == [⟨32, 191⟩] && t.tbByte 140 == 0 && t.tbByte 141 == 0 && t.tbByte 143 == 0xC2) = true := by decide +kernel
/-- V71 -/
theorem test_adjStep_shrink :
    lands (exec .adjStep (p2 199)) (fun t => answers 1 t && t.trklen == 327 && t.pt 0 == 0x80A2 && t.tbByte 138 == 0 &&
      t.tbByte 141 == 0xC2 && t.tbByte 327 == 0x4E) = true := by decide +kernel
/-- R212's worked example: two passes. -/
theorem test_adjRun :
    lands (exec .adjRun (p2 202)) (fun t => answers 2 t && t.trklen == 330 && t.pt 0 == 0x80A5 && t.gap.mid == 12) = true := by
  decide +kernel
/-- R212: a run that exhausts the free bytes keeps its completed pass. -/
theorem test_adjRun_exhausted : lands (exec .adjRun (tight 158)) (fun t => faulted 8 0 t && t.trklen == 287) = true := by decide +kernel

/-! ## The host side (46_profiles.md) -/

/-- R231: the header bytes and the size of the DSK file. -/
theorem test_dmkHeader :
    (plainHeader 80 2 6378).bytes = [0x00, 0x50, 0xEA, 0x18, 0, 0, 0, 0, 0, 0, 0, 0, 0, 0, 0, 0] ∧
    (plainHeader 80 2 6378).valid = true ∧ (plainHeader 80 2 6378).fileSize = 1020496 := by decide
/-- R223: MSB first. -/
theorem test_derBit : derBit [0x80, 0x01] 0 = some true ∧ derBit [0x80, 0x01] 7 = some false ∧ derBit [0x80, 0x01] 15 = some true := by decide
/-- R224, R225: SPT is 18 on track 0 side 0 of SVI and 17 elsewhere; 18 × 128 + 39 × 17 × 256 and 80 × 17 × 256 bytes. -/
theorem test_sviSpt (u : UnstatedSvi) (v : UnstatedSvicpm) (cyl : Nat) :
    (sviProfile u 0 0).records.length = 18 ∧ (sviProfile u cyl 1).records.length = 17 ∧ (svicpmProfile v).records.length = 17 := by
  simp [sviProfile, svicpmProfile]
theorem test_sviGeometry :
    sviGeometry (18 * 128 + 39 * 17 * 256) = some ⟨40, 1⟩ ∧ svicpmGeometry (80 * 17 * 256) = some ⟨40, 2⟩ ∧
    sviGeometry 174080 = none ∧ (Geometry.tracks ⟨40, 2⟩).take 3 = [(0, 0), (0, 1), (1, 0)] := by decide
/-- R230: the read-out answers the bytes of TB in order (P2's pointer entry 0, and the next). -/
theorem test_readOut :
    (match issue (readOut 4) (p2 0) with | .next p => p.2 == [0xA3, 0x80, 0, 0] | .fault _ => false | .refused _ => false) = true := by decide +kernel
/-- What the analyzer reads out of a RECORD (R21, R230): the twelve result registers, after the values of R172's worked example. -/
theorem test_resultReads :
    (match issue resultReads { State.reset with scan :=
        { rkind := 7, rslot := 0, rptr := 0x80A3, recC := 5, recH := 1, recR := 7, recN := 0, recType := 0xFB, recFlags := 3, rsize := 128,
          addroff := 32, dataoff := 57 } } with
      | .next p => p.2 == [7, 0, 0x80A3, 5, 1, 7, 0, 0xFB, 3, 128, 32, 57]
      | .fault _ => false
      | .refused _ => false) = true := by decide +kernel
/-- R110: SCAN.ALL stops at the first END, and at a response with bit 31 set. -/
theorem test_scanAll :
    (match scanAll (emptyTrack 3), scanAll halted with
      | .next p, .next q => p.2 == [[1]] && q.2 == [[0x80000002]]
      | _, _ => false) = true := by decide +kernel
/-- R229: the most frequent length; and of two equally frequent ones the one captured earliest (log 17). -/
theorem test_combineLength : combineLength [6378, 6400, 6400] = some 6400 ∧ combineLength [6378, 6400, 6400, 6378] = some 6378 := by decide
/-- The last address a load may reach, and the first it may not (log 15). -/
theorem test_loadEdge : tbLoad 0x3FFF [0xAA] = some [.tbWr 16383 0xAA] ∧ tbLoad 0x3FFF [0xAA, 0xBB] = none := by decide
/-- V36: sector index 3 alone corrupted is CORR0 = 0x0008. -/
theorem test_corrMask : corrMask [false, false, false, true] = 0x0008 := by decide

/-! ## Witnesses: for each statement with hypotheses, a case that meets them (clauses at their boundaries) -/

theorem witness_DecodeOfEncodeIsTheCommand :
    Instr.wellFormed (.trkRd (-8388608)) = true ∧ Instr.wellFormed (.pbWr 16383 255) = true := by decide

theorem witness_EncodeOfDecodeIsTheWord :
    decode 0x22FFFFFF = .ok (.trkRd (-1)) ∧ decode 0x02FFFFFF = .ok (.regWr 0xFF 0xFFFF) := by decide

/-- A word that matches no row of the opcode map. -/
theorem no_row : ∀ i : Instr, (0x99000000 : Word) &&& rowMask i ≠ rowMatch i := by
  intro i
  cases i <;> simp only [rowMask, rowMatch] <;> decide

theorem witness_DecodeFollowsOpcodeMap :
    (0x243FFFAA : Word) &&& rowMask (.pbWr 0 0) = rowMatch (.pbWr 0 0) ∧ ∀ i : Instr, (0x99000000 : Word) &&& rowMask i ≠ rowMatch i :=
  ⟨by decide, no_row⟩

theorem witness_StepRunsDecodedCommand :
    (State.reset.withFetchWord 32 0x41000000).input = [.command 0x41000000] ∧ decode 0x41000000 = .ok .scanNext := by decide

theorem witness_IllegalWordRaisesIllegal :
    (State.reset.withFetchWord 32 0x99000000).running ∧ (State.reset.withFetchWord 32 0x99000000).input = [.command 0x99000000] ∧
    ∀ i : Instr, (0x99000000 : Word) &&& rowMask i ≠ rowMatch i :=
  ⟨rfl, by decide, no_row⟩

theorem witness_ResetLeavesResetValues : State.input { halted with input := [.reset, .command 0] } = [.reset, .command 0] := rfl

theorem witness_BlockWithoutInputIdles : State.reset.input = [] := rfl

theorem witness_FaultsArePrecise :
    State.reset.running ∧ Instr.gapFind ≠ .adjRun ∧ lands (exec .gapFind State.reset) (fun t => t.faultV) = true := by decide

/-- Every command that can fault, with every code it can raise. -/
theorem witness_CommandsRaiseOnlyTheirFaults :
    lands (exec (.regRd 0x15) State.reset) (faulted 1 0x0115) = true ∧ lands (exec (.regWr 0x00 0) State.reset) (faulted 1 0x0200) = true ∧
    lands (exec (.tbRd 0) (withLen 128)) (faulted 2 128) = true ∧ lands (exec (.tbWr 129 0) (withLen 129)) (faulted 3 129) = true ∧
    lands (exec (.trkRd 0) (withLen 0xFFFF)) (faulted 2 0xFFFF) = true ∧ lands (exec .gapFind (withLen 0)) (faulted 2 0) = true ∧
    lands (exec .encTrack (withLen 0)) (faulted 2 0) = true ∧ lands (exec .encTrack (explicitRegs 65 1)) (faulted 4 65) = true ∧
    lands (exec .encTrack (explicitRegs 64 0)) (faulted 5 0) = true ∧ lands (exec .encTrack (explicitRegs 0 183)) (faulted 6 199) = true ∧
    lands (exec .scanNext (withLen 0x4000)) (faulted 2 0x4000) = true ∧ lands (exec .scanNext p2BadId) (faulted 7 5) = true ∧
    lands (exec .gapAdd (withIv 0 (List.replicate 64 ⟨0, 0⟩))) (faulted 10 64) = true ∧
    lands (exec .adjStep (withLen 0)) (faulted 2 0) = true ∧ lands (exec .adjStep (p2 16256)) (faulted 3 16256) = true ∧
    lands (exec .adjStep p2BadId) (faulted 7 5) = true ∧ lands (exec .adjRun { tight 158 with trklen := 287 }) (faulted 8 0) = true := by decide +kernel

theorem witness_HaltedBlockRefuses :
    halted.faultV = true ∧ State.input { halted with input := [.command 0x017F0000] } = [.command 0x017F0000] ∧
    (0x017F0000 : Word) = BitVec.ofNat 32 (0x01000000 + (Reg.rtab 63).num.toNat * 0x10000) ∧
    ∀ g : Reg, (0x01150000 : Word) ≠ BitVec.ofNat 32 (0x01000000 + g.num.toNat * 0x10000) := by
  refine ⟨rfl, rfl, by decide, ?_⟩
  intro g
  cases g
  case rtab i => revert i; decide
  all_goals decide

theorem witness_OnlyResetLeavesHalt :
    State.faultV { halted with input := [.command 0] } = true ∧ State.input { halted with input := [.reset] } = [.reset] ∧
    ([.command 0] : List HostEvent).head? ≠ some .reset ∧
    lands (step { halted with input := [.command 0] }) (fun t => t.faultV) = true := by decide

theorem witness_TrackCommandsCheckTrackLength :
    (withLen 128).running ∧ (withLen 128).trklen.toNat ≤ 128 ∧ 0x4000 ≤ (withLen 0x4000).trklen.toNat := by decide

theorem witness_OnlyNamedCommandsWrite : lands (exec (.tbWr 0 1) (withLen 129)) (fun t => !t.faultV) = true := by decide

theorem witness_NopAnswersHaltState : State.reset.running ∧ halted.faultV = true := by decide
theorem witness_RegRdAnswersRegister : State.reset.running ∧ halted.faultV = true := witness_NopAnswersHaltState
theorem witness_CrcSeedSetsSeed : State.reset.running := rfl
theorem witness_CrcUpdUpdatesAccumulator : State.reset.running := rfl
theorem witness_PbRdReadsPayloadByte : State.reset.running := rfl
theorem witness_PbWrWritesOneByte : State.reset.running := rfl
theorem witness_ScanStartClearsScan : State.reset.running := rfl
theorem witness_GapClrEmptiesList : State.reset.running := rfl

/-- Both ends of each unassigned range of R21, and the assigned numbers beside them. -/
theorem witness_unassignedNumber :
    (∀ r ∈ [0x15#8, 0x17#8, 0x25#8, 0x27#8, 0x2D#8, 0x3F#8, 0x80#8, 0xFF#8], unassignedNumber r) ∧
    (∀ r ∈ [0x00#8, 0x14#8, 0x18#8, 0x24#8, 0x28#8, 0x2C#8, 0x40#8, 0x7F#8], ¬ unassignedNumber r) := by decide

theorem witness_RegWrStoresLowBits :
    State.reset.running ∧ writableNumber (Reg.rtab 63).num ∧ writableNumber Reg.ive.num ∧ writableNumber Reg.corr3.num ∧
    ¬ writableNumber Reg.slot.num ∧ ¬ writableNumber Reg.data.num ∧ ¬ writableNumber 0x15 ∧ ¬ writableNumber 0x80 :=
  ⟨rfl, by decide, by decide, by decide, by decide, by decide, by decide, by decide⟩

/-- TB.RD and TB.WR: the last address of the track and the first beyond it, at both ends of the legal lengths. -/
theorem witness_TbRdReadsTrackByte :
    (withLen 128).trklen.toNat ≤ 128 ∧ 0x4000 ≤ (withLen 0x4000).trklen.toNat ∧ (withLen 129).running ∧ 128 < (withLen 129).trklen.toNat ∧ (withLen 16383).trklen.toNat < 0x4000 ∧
    (128 : BitVec 14).toNat < (withLen 129).trklen.toNat ∧ (withLen 129).trklen.toNat ≤ (129 : BitVec 14).toNat ∧
    (withLen 16383).trklen.toNat ≤ (16383 : BitVec 14).toNat := by decide

theorem witness_TbWrWritesOneByte : (withLen 16383).running ∧ (16382 : BitVec 14).toNat < (withLen 16383).trklen.toNat := by decide

theorem witness_TrkRdReadsCircularly :
    (withLen 328).running ∧ 35 < (withLen 328).trklen.toNat - 128 ∧
    ∃ q : Int, (-165 : Int) = q * (((withLen 328).trklen.toNat : Int) - 128) + (35 : Nat) :=
  ⟨rfl, by decide, -1, by decide⟩

theorem witness_encodable : (p2Regs 328 3).running ∧ encodable (p2Regs 328 3) := by
  refine ⟨rfl, ?_⟩
  decide +kernel

theorem witness_EncTrackWritesWholeTrack : (p2Regs 328 3).running ∧ encodable (p2Regs 328 3) := witness_encodable

/-- R152, clause by clause: 128 and 0x4000; SPT 65; gap4b 0; a layout one byte short; MODE.G4BAUTO = 1. -/
theorem witness_EncTrackChecksInOrder :
    (withLen 0x4000).running ∧ ¬ (withLen 128).validLen ∧ ¬ (withLen 0x4000).validLen ∧ (explicitRegs 65 1).validLen ∧
    64 < (explicitRegs 65 1).enc.spt.toNat ∧ (explicitRegs 64 0).encGap4b ≤ 0 ∧ 0 < (explicitRegs 0 183).encGap4b ∧
    ((explicitRegs 0 183).encFixed : Int) + (explicitRegs 0 183).encGap4b ≠ ((explicitRegs 0 183).trklen.toNat : Int) - 128 ∧
    (p2Regs 328 3).mode.getLsbD 1 = true := by decide +kernel

theorem witness_Gap4bIsExplicitOrDerived :
    128 < (p2Regs 328 3).trklen.toNat ∧ (p2Regs 328 3).mode.getLsbD 1 = true ∧ (explicitRegs 0 183).mode.getLsbD 1 = false := by decide

/-- A track of one sector made by ENC.TRACK with GAP2 = 30, the last value that scans back, and one with GAP2 = 31 (V49). -/
theorem witness_EncodeThenScanRoundTrip :
    (p2Regs 355 30).running ∧ encodable (p2Regs 355 30) ∧ (p2Regs 355 30).enc.gap2.toNat ≤ 30 ∧ 0 < (p2Regs 355 30).enc.spt.toNat ∧
    exec .encTrack (p2Regs 355 30) = .next (after (exec .encTrack (p2Regs 355 30))) :=
  ⟨rfl, by decide +kernel, by decide, by decide, (lands_next (p := fun t => !t.faultV) (by decide +kernel)).1⟩

theorem witness_EncodedTrackFollowsLayout :
    (p2Regs 355 30).running ∧ encodable (p2Regs 355 30) ∧ 0 < (p2Regs 355 30).enc.spt.toNat ∧
    exec .encTrack (p2Regs 355 30) = .next (after (exec .encTrack (p2Regs 355 30))) :=
  ⟨rfl, witness_EncodeThenScanRoundTrip.2.1, by decide, witness_EncodeThenScanRoundTrip.2.2.2.2⟩

theorem witness_EncodedPointersAddressIdMarks :
    (p2Regs 355 30).running ∧ encodable (p2Regs 355 30) ∧
    exec .encTrack (p2Regs 355 30) = .next (after (exec .encTrack (p2Regs 355 30))) :=
  ⟨rfl, witness_EncodeThenScanRoundTrip.2.1, witness_EncodeThenScanRoundTrip.2.2.2.2⟩

theorem witness_WideGap2HidesDataMarks :
    (p2Regs 356 31).running ∧ encodable (p2Regs 356 31) ∧ 30 < (p2Regs 356 31).enc.gap2.toNat ∧ 0 < (p2Regs 356 31).enc.spt.toNat ∧
    exec .encTrack (p2Regs 356 31) = .next (after (exec .encTrack (p2Regs 356 31))) :=
  ⟨rfl, by decide +kernel, by decide, by decide, (lands_next (p := fun t => !t.faultV) (by decide +kernel)).1⟩

/-- The three ways to END: SCANDONE, SLOT 64, a zero entry. -/
theorem witness_ScanNextReportsEnd :
    (emptyTrack 0).running ∧ 128 < (emptyTrack 0).trklen.toNat ∧ (emptyTrack 0).trklen.toNat < 0x4000 ∧
    State.scandone { emptyTrack 0 with scandone := true } = true ∧ State.slot { emptyTrack 0 with slot := 64 } = 64 ∧
    (emptyTrack 0).tbByte 0 = 0 ∧ (emptyTrack 0).tbByte 1 = 0 := by decide +kernel

/-- The kinds SCAN.NEXT reports of an entry, in diagnostic mode (V40 to V45). -/
theorem witness_ScanNextReportsEntry :
    (p2 0).running ∧ 128 < (p2 0).trklen.toNat ∧ (p2 0).trklen.toNat < 0x4000 ∧ (p2 0).scandone = false ∧ (p2 0).slot.toNat < 64 ∧
    (p2 0).mode.getLsbD 0 = false ∧ ((p2 0).scanEntry 0 false).kind = 7 ∧ ((p2Entry 0xA3 0x40).scanEntry 0 false).kind = 2 ∧
    ((p2Entry 0x7F 0x80).scanEntry 0 false).kind = 3 ∧ ((p2Entry 0x47 0x81).scanEntry 0 false).kind = 4 ∧
    (p2BadId.scanEntry 0 false).kind = 5 ∧ (p2NoMark.scanEntry 0 false).kind = 6 := by decide +kernel

theorem witness_StrictScanFaultsOnDiagnostic :
    p2BadId.running ∧ p2BadId.mode.getLsbD 0 = true ∧ p2BadId.scandone = false ∧ p2BadId.slot.toNat < 64 ∧
    (p2BadId.scanEntry 0 true).kind = 5 ∧ (p2NoMark.scanEntry 0 true).kind = 6 ∧ ((p2Entry 0x7F 0x80).scanEntry 0 true).kind = 3 ∧
    ((p2Entry 0x47 0x81).scanEntry 0 true).kind = 4 := by decide +kernel

/-- Offsets at both ends of the legal range (128 and TRKLEN - 1 inside; 127 and TRKLEN outside), and the first data mark at its place. -/
theorem witness_ScanEntryTriesStepsInOrder :
    (p2Entry 0x80 0x80).scanEntry 0 false = .notAddrMark 0x8080 (-3) ∧ (p2Entry 0x47 0x81).scanEntry 0 false = .notAddrMark 0x8147 196 ∧
    (p2Entry 0x7F 0x80).scanEntry 0 false = .badPointer 0x807F ∧ (p2Entry 0x48 0x81).scanEntry 0 false = .badPointer 0x8148 ∧
    (p2Entry 0xA3 0xC0).scanEntry 0 false = .singleDensity 0xC0A3 ∧ (p2Entry 0 0).scanEntry 0 false = .endOfTable ∧
    p2NoMark.scanEntry 0 false = .noDataMark 0x80A3 ⟨5, 1, 7, 0⟩ 32 ∧ (p2 0).findDataMark false 42 43 = some 57 := by decide +kernel

theorem witness_RecordExtentBounds :
    (p2 0).trklen.toNat < 0x4000 ∧
    ∃ e id a j t ok, (p2 0).scanEntry 0 false = .record e id a j t ok ∧ (⟨32, 191⟩ : Interval) = ⟨a, j + 4 + sectorSize id.n + 2⟩ :=
  ⟨by decide, extent_some (by decide +kernel)⟩

theorem witness_GapAddAppendsSignedPair :
    State.reset.running ∧ State.reset.ivcnt ≠ 64 ∧ (withIv 0 (List.replicate 64 ⟨0, 0⟩)).ivcnt = 64 := by decide

theorem witness_GapFindReportsLargestGap :
    (withIv 228 []).running ∧ (withLen 128).trklen.toNat ≤ 128 ∧ findLargestGap 100 [⟨0, 50⟩, ⟨50, 100⟩] = none ∧
    findLargestGap 100 [⟨90, 10⟩] = some (50, 80) := by decide +kernel

/-- A unique largest gap, and a tie whatever GAP_TIE is (V66). -/
theorem witness_LargestGapIsFreeAndMaximal :
    findLargestGap 1 [] = some (0, 1) ∧ findLargestGap 7 [⟨2, 5⟩] = some (0, 4) ∧
    largestGaps (gapsOf (freeIn (subIntervals 100 [⟨0, 10⟩, ⟨50, 60⟩])) 100) = [(10, 40), (60, 40)] := by decide +kernel

theorem witness_GapBoundaryCases : findLargestGap 100 [⟨5, 5⟩] = some (50, 100) := by decide +kernel

theorem witness_AdjusterChecksTargetFirst :
    (p2 0).running ∧ 128 < (p2 0).trklen.toNat ∧ (p2 0).trklen.toNat < 0x4000 ∧ (p2 0).target.toNat < 1 ∧ 16255 < (p2 16256).target.toNat ∧
    (p2 200).trklen.toNat - 128 = (p2 200).target.toNat := by decide

theorem witness_adjustable : adjustable (p2 201) ∧ adjustable (p2 1) ∧ adjustable (emptyTrack 16255) := by decide

/-- A fatal diagnostic in slot 0, a record as long as the track, and a covered circle. -/
theorem witness_AdjStepFaults :
    adjustable p2BadId ∧ (p2BadId.scanEntry 0 true).fatal = true ∧
    (∃ recs, strictScanLists { tight 158 with trklen := 287 } recs ∧ [⟨0, 159⟩] = recs.filterMap (fun p => p.2.extent?)) ∧
    findLargestGap 159 [⟨0, 80⟩, ⟨80, 159⟩] = none :=
  ⟨by decide, by decide +kernel, scans_ok (by decide +kernel), by decide +kernel⟩

theorem witness_AdjStepMovesOneByte :
    adjustable (emptyTrack 3) ∧ adjustable (p2 199) ∧
    (∃ recs, strictScanLists (emptyTrack 3) recs ∧ [] = recs.filterMap (fun p => p.2.extent?)) ∧
    findLargestGap 2 [] = some (1, 2) ∧
    (∃ recs, strictScanLists (p2 199) recs ∧ [⟨32, 191⟩] = recs.filterMap (fun p => p.2.extent?)) ∧
    findLargestGap 200 [⟨32, 191⟩] = some (11, 41) :=
  ⟨by decide, by decide, scans_ok (by decide +kernel), by decide +kernel, scans_ok (by decide +kernel), by decide +kernel⟩

/-- Growing and shrinking passes over a RECORD (also for the statements on the pointers and on the duplicated byte). -/
theorem witness_AdjStepPreservesRecords :
    adjustable (p2 201) ∧ adjustable (p2 199) ∧ exec .adjStep (p2 201) = .next (after (exec .adjStep (p2 201))) ∧
    (after (exec .adjStep (p2 201))).faultV = false ∧ ((p2 201).scanEntry 0 true).kind = 7 := by
  obtain ⟨h1, h2⟩ := lands_next (r := exec .adjStep (p2 201)) (p := fun t => !t.faultV) (by decide +kernel)
  exact ⟨by decide, by decide, h1, (Bool.not_eq_true' _).mp h2, by decide +kernel⟩

theorem witness_AdjStepRewritesPointers :
    adjustable (p2 201) ∧ exec .adjStep (p2 201) = .next (after (exec .adjStep (p2 201))) ∧
    (after (exec .adjStep (p2 201))).faultV = false :=
  ⟨witness_AdjStepPreservesRecords.1, witness_AdjStepPreservesRecords.2.2.1, witness_AdjStepPreservesRecords.2.2.2.1⟩

theorem witness_AdjStepByteIsInNoExtent :
    adjustable (p2 201) ∧ exec .adjStep (p2 201) = .next (after (exec .adjStep (p2 201))) ∧
    (after (exec .adjStep (p2 201))).faultV = false := witness_AdjStepRewritesPointers

/-- The states successive ADJ.STEP commands make. -/
def stepChain (s : State) : Nat → State
  | 0 => s
  | k + 1 => after (exec .adjStep (stepChain s k))

theorem witness_AdjRunIsRepeatedAdjStep :
    (emptyTrack 4).running ∧ (2 : Nat) = (((emptyTrack 4).target.toNat : Int) - ((emptyTrack 4).trklen.toNat - 128)).natAbs ∧
    ∀ k < 2, exec .adjStep (stepChain (emptyTrack 4) k) = .next (stepChain (emptyTrack 4) (k + 1)) ∧ (stepChain (emptyTrack 4) (k + 1)).faultV = false := by
  refine ⟨rfl, by decide, fun k hk => ?_⟩
  have h : ∀ k < 2, lands (exec .adjStep (stepChain (emptyTrack 4) k)) (fun t => !t.faultV) = true := by decide +kernel
  obtain ⟨h1, h2⟩ := lands_next (h k hk)
  exact ⟨h1, (Bool.not_eq_true' _).mp h2⟩

/-- One completed pass, then E_NOGAP. -/
theorem witness_AdjRunKeepsCompletedPasses :
    (tight 158).running ∧ 1 < (((tight 158).target.toNat : Int) - ((tight 158).trklen.toNat - 128)).natAbs ∧
    (∀ k < 1, exec .adjStep (stepChain (tight 158) k) = .next (stepChain (tight 158) (k + 1)) ∧
      (stepChain (tight 158) (k + 1)).faultV = false) ∧
    exec .adjStep (stepChain (tight 158) 1) = .next (stepChain (tight 158) 2) ∧ (stepChain (tight 158) 2).faultV = true := by
  have h : ∀ k < 1, lands (exec .adjStep (stepChain (tight 158) k)) (fun t => !t.faultV) = true := by decide +kernel
  have h' : lands (exec .adjStep (stepChain (tight 158) 1)) (fun t => t.faultV) = true := by decide +kernel
  refine ⟨rfl, by decide, fun k hk => ?_, lands_next h'⟩
  obtain ⟨h1, h2⟩ := lands_next (h k hk)
  exact ⟨h1, (Bool.not_eq_true' _).mp h2⟩

/-- A grow to the longest legal track; and TARGET already reached. -/
theorem witness_AdjRunReachesTargetWithoutSectors :
    (emptyTrack 2).trklen.toNat - 128 = (emptyTrack 2).target.toNat ∧ (emptyTrack 16255).running ∧ 128 < (emptyTrack 16255).trklen.toNat ∧ (emptyTrack 16255).trklen.toNat < 0x4000 ∧
    1 ≤ (emptyTrack 16255).target.toNat ∧ (emptyTrack 16255).target.toNat ≤ 16255 ∧ (emptyTrack 16255).tbByte 0 = 0 ∧
    (emptyTrack 16255).tbByte 1 = 0 := by decide +kernel

theorem witness_AdjusterLeavesBytesOutsideTrack : lands (exec .adjRun (emptyTrack 4)) (fun t => t.trklen == 132) = true := by decide +kernel

/-- The invariant holds of a halted state with a scan ended, a list and a gap, and a step runs from it. -/
theorem witness_StepKeepsInvariant :
    State.Inv { withIv 228 [⟨90, 10⟩] with faultV := true, faultCode := 10, scandone := true, slot := 64,
                                           scan := { ScanRegs.zero with rkind := 1, rslot := 64 }, gap := ⟨true, 50, 80⟩ } ∧
    lands (step { withIv 228 [⟨90, 10⟩] with faultV := true, input := [.command 0] }) (fun t => t.faultV) = true := by
  refine ⟨?_, by decide⟩
  constructor <;> decide

end Sys2Proof.Tests
end

section
/-! Proofs of the scope statements (00_scope.md): what a step does with the host's next word, and with none. -/

namespace Sys2Proof.Machine

/-- A legal word runs its command (R100). -/
theorem runWord_of_decode_ok {w : Word} {i : Instr} (hw : decode w = .ok i) (s : State) : runWord w s = exec i s := by
  simp only [runWord, hw]

/-- Settles O5: the step hands the word to `runWord`, which runs the command it decodes to. -/
theorem stepRunsDecodedCommand : Obligations.StepRunsDecodedCommand := by
  unfold Obligations.StepRunsDecodedCommand
  intro s w rest i hin hw
  calc step s = runWord w { s with input := rest } := step_command hin
    _ = exec i { s with input := rest } := runWord_of_decode_ok hw _

/-- Settles O8: the idle form of a step. -/
theorem blockWithoutInputIdles : Obligations.BlockWithoutInputIdles :=
  fun _ hin => step_idle hin

end Sys2Proof.Machine
end

section
/-! What a command writes, once for all 18 commands: `exec_cases` splits a command's next state into what the command wrote (`Writes`) and how it
ended (`Ends`: answered, or with a fault taken). The statements about the whole state (10_state.md) are case splits over these two. -/

namespace Sys2Proof.Machine

/-! ## What a command can write -/

/-- One pass of the adjuster, as ADJ.STEP and ADJ.RUN make it: on a legal track with a legal TARGET not yet reached (R205, R211, R215). -/
inductive Pass (s : State) : State → Prop
  | apply {p : AdjPlan} (valid : s.validLen = true) (low : 1 ≤ s.target.toNat) (high : s.target.toNat ≤ 16255)
      (apart : s.dataLen ≠ s.target.toNat) (plan : s.adjPlan = .ok p) : Pass s (s.adjApply p)

/-- `Writes s i u`: command `i` on `s` can have written what makes `s` into `u`, FAULT, FINFO and RESP apart (column "written by" of R21,
R39, R252). Any command can write nothing: when the block is halted, when it faults, or because it only reads registers. -/
inductive Writes (s : State) : Instr → State → Prop
  | nothing (i : Instr) : Writes s i s
  | regWr (g : Reg) (v : Half) : Writes s (.regWr g.num v) (s.writeReg g v)
  | crcSeed : Writes s .crcSeed { s with crc := 0xFFFF }
  | crcUpd (b : Byte) : Writes s (.crcUpd b) { s with crc := crc16Update s.crc b }
  | tbRd (a : BitVec 14) : Writes s (.tbRd a) { s with data := s.tbByte a.toNat }
  | tbWr (a : BitVec 14) (b : Byte) : Writes s (.tbWr a b) { s with tb := s.tb.write a.toNat [b] }
  | trkRd (x : Int) : Writes s (.trkRd x) { s with data := s.rd x }
  | pbRd (a : BitVec 14) : Writes s (.pbRd a) { s with data := s.pbByte a.toNat }
  | pbWr (a : BitVec 14) (b : Byte) : Writes s (.pbWr a b) { s with pb := s.pb.write a.toNat [b] }
  | encTrack (valid : s.validLen = true) (checks : s.encChecks = none) :
      Writes s .encTrack { s with tb := s.tb.write 0 s.encodedTrack }
  | scanStart : Writes s .scanStart { s with slot := 0, scandone := false, scan := ScanRegs.zero }
  | scanNext : Writes s .scanNext (s.scanned s.scanHere)
  | gapClr : Writes s .gapClr { s with iv := [], ivcnt := 0 }
  | gapAdd (room : s.ivcnt ≠ 64) :
      Writes s .gapAdd { s with iv := s.iv ++ [⟨sext16 s.ivs, sext16 s.ive⟩], ivcnt := s.ivcnt + 1 }
  | gapFind (valid : s.validLen = true) : Writes s .gapFind { s with gap := gapRegsOf (findLargestGap s.dataLen s.iv) }
  | adjStep {u : State} (pass : Pass s u) : Writes s .adjStep u
  | adjRun {u : State} (passes : Relation.ReflTransGen Pass s u) : Writes s .adjRun u

/-- How a command ends that has written what makes the state `u`: it answers, or a running block takes a fault, never E_NOCONV (R213, R256). -/
inductive Ends (u : State) : State → Prop
  | answered (r : Word) : Ends u (u.answered r)
  | faulted (running : u.faultV = false) {c : FaultCode} (code : c ≠ .noConv) (info : Nat) : Ends u (u.takeFault c info)

variable {s t u : State}

/-! ## The codes of the checks -/

theorem encChecks_code {f : Raised} (h : s.encChecks = some f) : f.code ≠ .noConv := by
  rcases State.encChecks_some h with ⟨_, rfl⟩ | ⟨_, _, rfl⟩ | ⟨_, _, _, rfl⟩ <;> simp

theorem adjPlan_code {f : Raised} (h : s.adjPlan = .error f) : f.code ≠ .noConv := by
  rcases adjPlan_error_code h with h | h <;> simp [h]

theorem adjPasses_code {n : Nat} {f : Raised} (h : s.adjPasses n = (u, some f)) : f.code ≠ .noConv := by
  rcases adjPasses_error_code h with h | h <;> simp [h]

/-! ## The passes of a run -/

/-- The passes ADJ.RUN makes are passes towards a TARGET not yet reached (R212, R213). -/
theorem adjPasses_passes {n : Nat} (valid : s.validLen = true) (low : 1 ≤ s.target.toNat) (high : s.target.toNat ≤ 16255)
    (hn : n ≤ s.adjDistance) : Relation.ReflTransGen Pass s (s.adjPasses n).1 := by
  induction n generalizing s with
  | zero => exact .refl
  | succ n ih =>
    have apart : s.dataLen ≠ s.target.toNat := by
      intro he
      simp [State.adjDistance, he] at hn
    unfold State.adjPasses
    cases hp : s.adjPass with
    | error f => exact .refl
    | ok s' =>
      obtain ⟨p, plan, rfl⟩ := adjPass_cases hp
      obtain ⟨hv, _, hd⟩ := adjApply_dataLen valid low high apart p
      exact .head (.apply valid low high apart plan) (ih hv (by simpa using low) (by simpa using high) (by omega))

/-- What the passes leave alone (R211, R212): everything but TB, IV, IVCNT, the gap registers and TRKLEN. -/
theorem passes_eq (h : Relation.ReflTransGen Pass s u) :
    ∃ m iv cnt gap len, u = { s with tb := m, iv := iv, ivcnt := cnt, gap := gap, trklen := len } := by
  induction h with
  | refl => exact ⟨s.tb, s.iv, s.ivcnt, s.gap, s.trklen, rfl⟩
  | tail _ hp ih =>
    obtain ⟨m, iv, cnt, gap, len, rfl⟩ := ih
    cases hp
    exact ⟨_, _, _, _, _, adjApply_eq ..⟩

theorem passes_fault_kept (h : Relation.ReflTransGen Pass s u) :
    u.faultV = s.faultV ∧ u.faultCode = s.faultCode ∧ u.finfo = s.finfo := by
  obtain ⟨_, _, _, _, _, rfl⟩ := passes_eq h
  exact ⟨rfl, rfl, rfl⟩

/-! ## What a command can do -/

theorem ends_answered {i : Instr} (r : Word) : ∃ u : State, Writes s i u ∧ Ends u (s.answered r) :=
  ⟨s, .nothing i, .answered r⟩

theorem ends_refused {i : Instr} : ∃ u : State, Writes s i u ∧ Ends u s.refused := ends_answered _

theorem ends_faulted {i : Instr} (running : s.faultV = false) {c : FaultCode} (code : c ≠ .noConv) (info : Nat) :
    ∃ u : State, Writes s i u ∧ Ends u (s.takeFault c info) :=
  ⟨s, .nothing i, .faulted running code info⟩

/-- Every command ends, with an answer or with a fault, in what it has written. -/
theorem exec_cases {i : Instr} (h : exec i s = .next t) : ∃ u : State, Writes s i u ∧ Ends u t := by
  cases i with
  | nop =>
    rcases execNop_cases h with ⟨_, rfl⟩ | ⟨_, rfl⟩
    · exact ends_refused
    · exact ends_answered _
  | regRd r =>
    rcases execRegRd_cases h with ⟨g, _, rfl⟩ | ⟨_, _, rfl⟩ | ⟨_, hr, rfl⟩
    · exact ends_answered _
    · exact ends_refused
    · exact ends_faulted hr (by decide) _
  | regWr r v =>
    rcases execRegWr_cases h with ⟨_, rfl⟩ | ⟨_, g, rfl, _, rfl⟩ | ⟨hr, rfl⟩
    · exact ends_refused
    · exact ⟨_, .regWr g v, .answered _⟩
    · exact ends_faulted hr (by decide) _
  | crcSeed =>
    rcases execCrcSeed_cases h with ⟨_, rfl⟩ | ⟨_, rfl⟩
    · exact ends_refused
    · exact ⟨_, .crcSeed, .answered _⟩
  | crcUpd b =>
    rcases execCrcUpd_cases h with ⟨_, rfl⟩ | ⟨_, rfl⟩
    · exact ends_refused
    · exact ⟨_, .crcUpd b, .answered _⟩
  | tbRd a =>
    rcases execTbRd_cases h with ⟨_, rfl⟩ | ⟨hr, _, rfl⟩ | ⟨hr, _, _, rfl⟩ | ⟨_, _, _, rfl⟩
    · exact ends_refused
    · exact ends_faulted hr (by decide) _
    · exact ends_faulted hr (by decide) _
    · exact ⟨_, .tbRd a, .answered _⟩
  | tbWr a b =>
    rcases execTbWr_cases h with ⟨_, rfl⟩ | ⟨hr, _, rfl⟩ | ⟨hr, _, _, rfl⟩ | ⟨_, _, _, rfl⟩
    · exact ends_refused
    · exact ends_faulted hr (by decide) _
    · exact ends_faulted hr (by decide) _
    · exact ⟨_, .tbWr a b, .answered _⟩
  | trkRd x =>
    rcases execTrkRd_cases h with ⟨_, rfl⟩ | ⟨hr, _, rfl⟩ | ⟨_, _, rfl⟩
    · exact ends_refused
    · exact ends_faulted hr (by decide) _
    · exact ⟨_, .trkRd x, .answered _⟩
  | pbRd a =>
    rcases execPbRd_cases h with ⟨_, rfl⟩ | ⟨_, rfl⟩
    · exact ends_refused
    · exact ⟨_, .pbRd a, .answered _⟩
  | pbWr a b =>
    rcases execPbWr_cases h with ⟨_, rfl⟩ | ⟨_, rfl⟩
    · exact ends_refused
    · exact ⟨_, .pbWr a b, .answered _⟩
  | encTrack =>
    rcases execEncTrack_cases h with ⟨_, rfl⟩ | ⟨hr, _, rfl⟩ | ⟨hr, _, f, hf, rfl⟩ | ⟨_, hv, hc, rfl⟩
    · exact ends_refused
    · exact ends_faulted hr (by decide) _
    · exact ends_faulted hr (encChecks_code hf) _
    · exact ⟨_, .encTrack hv hc, .answered _⟩
  | scanStart =>
    rcases execScanStart_cases h with ⟨_, rfl⟩ | ⟨_, rfl⟩
    · exact ends_refused
    · exact ⟨_, .scanStart, .answered _⟩
  | scanNext =>
    rcases execScanNext_cases h with ⟨_, rfl⟩ | ⟨hr, _, rfl⟩ | ⟨hr, _, _, _, rfl⟩ | ⟨_, _, _, rfl⟩
    · exact ends_refused
    · exact ends_faulted hr (by decide) _
    · exact ends_faulted hr (by decide) _
    · exact ⟨_, .scanNext, .answered _⟩
  | gapClr =>
    rcases execGapClr_cases h with ⟨_, rfl⟩ | ⟨_, rfl⟩
    · exact ends_refused
    · exact ⟨_, .gapClr, .answered _⟩
  | gapAdd =>
    rcases execGapAdd_cases h with ⟨_, rfl⟩ | ⟨hr, _, rfl⟩ | ⟨_, room, rfl⟩
    · exact ends_refused
    · exact ends_faulted hr (by decide) _
    · exact ⟨_, .gapAdd room, .answered _⟩
  | gapFind =>
    rcases execGapFind_cases h with ⟨_, rfl⟩ | ⟨hr, _, rfl⟩ | ⟨_, hv, rfl⟩
    · exact ends_refused
    · exact ends_faulted hr (by decide) _
    · exact ⟨_, .gapFind hv, .answered _⟩
  | adjStep =>
    rcases execAdjStep_cases h with ⟨_, rfl⟩ | ⟨hr, _, rfl⟩ | ⟨hr, _, _, rfl⟩ | ⟨hr, hv, low, high, h⟩
    · exact ends_refused
    · exact ends_faulted hr (by decide) _
    · exact ends_faulted hr (by decide) _
    rcases h with ⟨_, rfl⟩ | ⟨_, f, hf, rfl⟩ | ⟨apart, p, plan, rfl⟩
    · exact ends_answered _
    · exact ends_faulted hr (adjPlan_code hf) _
    · exact ⟨_, .adjStep (.apply hv low high apart plan), .answered _⟩
  | adjRun =>
    rw [exec_adjRun] at h
    rcases execAdjRun_cases h with ⟨_, rfl⟩ | ⟨hr, _, rfl⟩ | ⟨hr, _, _, rfl⟩ | ⟨hr, hv, low, high, u, h⟩
    · exact ends_refused
    · exact ends_faulted hr (by decide) _
    · exact ends_faulted hr (by decide) _
    have passes := adjPasses_passes hv low high (le_refl s.adjDistance)
    rcases h with ⟨hu, rfl⟩ | ⟨f, hu, rfl⟩
    · rw [hu] at passes
      exact ⟨u, .adjRun passes, .answered _⟩
    · rw [hu] at passes
      exact ⟨u, .adjRun passes, .faulted ((passes_fault_kept passes).1.trans hr) (adjPasses_code hu) _⟩

end Sys2Proof.Machine
end

section
/-! Proofs of the statements about the invariant (10_state.md): it holds at reset, and what each command writes and how it ends keep it. -/

namespace Sys2Proof.Machine

variable {s t u : State}

/-! ## Register writes -/

/-- REG.WR reaches only the RW registers of R237. -/
theorem writeReg_eq (s : State) (g : Reg) (v : Half) :
    ∃ mode trklen crc target enc ivs ive,
      s.writeReg g v = { s with mode := mode, trklen := trklen, crc := crc, target := target, enc := enc, ivs := ivs, ive := ive } := by
  cases g <;> exact ⟨_, _, _, _, _, _, _, rfl⟩

/-! ## The scan result registers (R34, R181) -/

@[simp] theorem resultRegs_rkind (slot : BitVec 7) (res : ScanResult) : (s.resultRegs slot res).rkind = res.kind := by cases res <;> rfl
@[simp] theorem resultRegs_rslot (slot : BitVec 7) (res : ScanResult) : (s.resultRegs slot res).rslot = slot := by cases res <;> rfl

theorem recFlags_fields (addrOk dataOk : Bool) (cls : BitVec 2) :
    (recFlags addrOk dataOk cls).getLsbD 0 = addrOk ∧ (recFlags addrOk dataOk cls).extractLsb' 2 2 = cls := by
  revert addrOk dataOk cls
  decide

theorem typeClass_le (b : Byte) : (typeClass b).toNat ≤ 2 := by
  unfold typeClass
  split
  · decide
  split <;> decide

/-- REC_FLAGS after every result: TYPECLS is 0, 1 or 2, and in a RECORD ADDRCRCOK is 1 (R34, R181). -/
theorem resultRegs_recFlags (slot : BitVec 7) (res : ScanResult) :
    ((s.resultRegs slot res).rkind = 7 → (s.resultRegs slot res).recFlags.getLsbD 0 = true) ∧
      ((s.resultRegs slot res).recFlags.extractLsb' 2 2).toNat ≤ 2 := by
  suffices h : ∃ addrOk dataOk cls, (s.resultRegs slot res).recFlags = recFlags addrOk dataOk cls ∧ cls.toNat ≤ 2 ∧
      (res.kind = 7 → addrOk = true) by
    obtain ⟨addrOk, dataOk, cls, he, hcls, haddr⟩ := h
    obtain ⟨h0, h2⟩ := recFlags_fields addrOk dataOk cls
    rw [resultRegs_rkind, he, h0, h2]
    exact ⟨haddr, hcls⟩
  cases res with
  | record e id a j b ok => exact ⟨true, ok, typeClass b, rfl, typeClass_le b, fun _ => rfl⟩
  | noDataMark e id a => exact ⟨true, false, 0, rfl, by decide, fun _ => rfl⟩
  | _ => exact ⟨false, false, 0, rfl, by decide, by simp [ScanResult.kind]⟩

/-- Only with the scan not over and SLOT not 64 does SCAN.NEXT look at the table (R172). -/
theorem scanHere_ne_end (h : s.scanHere ≠ .endOfTable) : s.scandone = false ∧ s.slot ≠ 64 := by
  unfold State.scanHere at h
  split at h
  · exact absurd rfl h
  · next hn => simpa using hn

theorem scanned_end : s.scanned .endOfTable = { s with scan := s.resultRegs s.slot .endOfTable, scandone := true } := rfl

theorem scanned_entry {res : ScanResult} (h : res ≠ .endOfTable) :
    s.scanned res = { s with scan := s.resultRegs s.slot res, slot := s.slot + 1 } :=
  if_neg fun hk => h (kind_eq_one.mp hk)

/-- SCAN.NEXT writes SLOT, SCANDONE and the result registers, whatever it finds (R172, R181). -/
theorem scanned_eq (s : State) (res : ScanResult) :
    ∃ slot done regs, s.scanned res = { s with slot := slot, scandone := done, scan := regs } := by
  by_cases h : res = .endOfTable
  · subst h
    exact ⟨_, _, _, scanned_end⟩
  · exact ⟨_, _, _, scanned_entry h⟩

/-! ## The in-use list of a pass (R40, R183) -/

theorem sext16_bounds (v : Half) : -32768 ≤ sext16 v ∧ sext16 v ≤ 32767 := by
  unfold sext16
  have := BitVec.le_toInt v
  have := BitVec.toInt_lt (x := v)
  omega

/-- The extent of a RECORD fits the signed 16 bits of an interval: it starts at -3 or later and ends at 32693 or before (R183, R185). -/
theorem scanEntry_extent_bounds (hv : s.validLen = true) {k : Nat} {strict : Bool} {x : Interval}
    (h : (s.scanEntry k strict).extent? = some x) :
    -32768 ≤ x.start ∧ x.start ≤ 32767 ∧ -32768 ≤ x.stop ∧ x.stop ≤ 32767 := by
  obtain ⟨e, id, a, j, b, ok, hrec, rfl⟩ := extent_some h
  obtain ⟨_, _, _, hlow, hhigh, ha, _, _, _, hfind, _, _⟩ := scanEntry_record hrec
  obtain ⟨d, hd, hj, _, _⟩ := findDataMark_some hfind
  have hlen := (State.validLen_iff.mp hv).2
  have hsize := sectorSize_bounds id.n
  unfold addrIdxOf at ha
  simp only
  omega

/-- The list a pass builds holds at most 64 extents (R40, R206). -/
theorem adjPlan_ivs (hv : s.validLen = true) {p : AdjPlan} (h : s.adjPlan = .ok p) :
    p.ivs.length ≤ 64 ∧ ∀ x ∈ p.ivs, -32768 ≤ x.start ∧ x.start ≤ 32767 ∧ -32768 ≤ x.stop ∧ x.stop ≤ 32767 := by
  obtain ⟨recs, hscan, hext, _⟩ := adjPlan_ok h
  obtain ⟨hlen, hrecs, _⟩ := scanTrack_iff.mp hscan
  rw [(extentsOf_ok hext).1]
  refine ⟨(List.length_filterMap_le _ _).trans hlen, fun x hx => ?_⟩
  obtain ⟨⟨k, res⟩, hmem, hres⟩ := List.mem_filterMap.mp hx
  obtain ⟨i, hi, he⟩ := List.mem_iff_getElem.mp hmem
  obtain ⟨rfl, rfl⟩ := Prod.mk.inj ((hrecs i hi).1.symm.trans he)
  exact scanEntry_extent_bounds hv hres

/-! ## Reset -/

/-- Settles O58: each clause at the values of R42. -/
theorem resetMeetsInvariant : Obligations.ResetMeetsInvariant where
  tbWf := wf_nil
  pbWf := wf_nil
  slotBound := by decide
  rslotBound := by decide
  ivcntCounts := rfl
  ivBound := by decide
  ivRange := nofun
  noFault _ := ⟨rfl, rfl⟩
  faultCode := nofun
  gapNone _ := ⟨rfl, rfl⟩
  gapSome := nofun
  scanEnd := by decide
  recordAddrOk := by decide
  typeClassBound := by decide

theorem inv_resetEvent (s : State) : s.resetEvent.Inv := { resetMeetsInvariant with }

/-! ## What a command writes keeps the invariant -/

theorem State.Inv.writeReg (h : s.Inv) (g : Reg) (v : Half) : (s.writeReg g v).Inv := by
  obtain ⟨_, _, _, _, _, _, _, he⟩ := writeReg_eq s g v
  rw [he]
  exact { h with }

/-- A write below the end of TB keeps its canonical form (R60). -/
theorem State.Inv.write_tb (h : s.Inv) {a : Nat} {bytes : List Byte} (hb : a + bytes.length ≤ Config.tbCap) :
    State.Inv { s with tb := s.tb.write a bytes } :=
  { h with tbWf := wf_write h.tbWf hb }

theorem State.Inv.scanned (h : s.Inv) : (s.scanned s.scanHere).Inv := by
  by_cases hend : s.scanHere = .endOfTable
  · rw [hend, scanned_end]
    exact { h with
      rslotBound := by simpa using h.slotBound
      scanEnd := by simp [ScanResult.kind]
      recordAddrOk := (resultRegs_recFlags _ _).1
      typeClassBound := (resultRegs_recFlags _ _).2 }
  · obtain ⟨hdone, hslot⟩ := scanHere_ne_end hend
    rw [scanned_entry hend]
    exact { h with
      slotBound := by
        have := h.slotBound
        simp only
        bv_omega
      rslotBound := by simpa using h.slotBound
      scanEnd := by simpa [hdone] using fun hk => hend (kind_eq_one.mp hk)
      recordAddrOk := (resultRegs_recFlags _ _).1
      typeClassBound := (resultRegs_recFlags _ _).2 }

/-- GAP.ADD appends only while the list is shorter than 64 (R40, R198). -/
theorem State.Inv.append_interval (h : s.Inv) (room : s.ivcnt ≠ 64) :
    State.Inv { s with iv := s.iv ++ [⟨sext16 s.ivs, sext16 s.ive⟩], ivcnt := s.ivcnt + 1 } := by
  have hcnt := h.ivcntCounts
  have hlen := h.ivBound
  have hlt : s.ivcnt.toNat < 64 := by bv_omega
  exact { h with
    ivcntCounts := by
      simp only [List.length_append, List.length_singleton, ← hcnt]
      bv_omega
    ivBound := by
      simp only [List.length_append, List.length_singleton]
      omega
    ivRange := by
      intro x hx
      rcases List.mem_append.mp hx with hx | hx
      · exact h.ivRange x hx
      · obtain rfl := List.mem_singleton.mp hx
        exact ⟨(sext16_bounds _).1, (sext16_bounds _).2, (sext16_bounds _).1, (sext16_bounds _).2⟩ }

/-- A reported gap lies in the data region, so its length fits GAPSIZE (R36, R190). -/
theorem gapSize_toNat (hv : s.validLen = true) {size : Nat} (hs : size ≤ s.dataLen) : (BitVec.ofNat 14 size).toNat = size := by
  have := State.dataLen_bounds hv
  exact Nat.mod_eq_of_lt (by omega)

theorem State.Inv.find_gap (h : s.Inv) (hv : s.validLen = true) :
    State.Inv { s with gap := gapRegsOf (findLargestGap s.dataLen s.iv) } := by
  cases hg : findLargestGap s.dataLen s.iv with
  | none => exact { h with gapNone := fun _ => ⟨rfl, rfl⟩, gapSome := nofun }
  | some g =>
    obtain ⟨_, hpos, hle⟩ := findLargestGap_bounds (State.dataLen_bounds hv).1 hg
    exact { h with gapNone := nofun, gapSome := fun _ => hpos.trans_eq (gapSize_toNat hv hle).symm }

theorem State.Inv.pass (h : s.Inv) (hp : Pass s u) : u.Inv := by
  cases hp with | apply hv _ _ _ plan
  obtain ⟨_, hmid, hpos, hle⟩ := adjPlan_mid hv plan
  obtain ⟨hcount, hrange⟩ := adjPlan_ivs hv plan
  have htb := adjApply_wf h.tbWf hv hmid
  rw [adjApply_eq]
  exact { h with
    tbWf := htb
    ivcntCounts := Nat.mod_eq_of_lt (by omega)
    ivBound := hcount
    ivRange := hrange
    gapNone := nofun
    gapSome := fun _ => hpos.trans_eq (gapSize_toNat hv hle).symm }

theorem State.Inv.passes (h : s.Inv) (hp : Relation.ReflTransGen Pass s u) : u.Inv := by
  induction hp with
  | refl => exact h
  | tail _ hp ih => exact ih.pass hp

theorem Writes.inv {i : Instr} (hw : Writes s i u) (h : s.Inv) : u.Inv := by
  cases hw with
  | nothing => exact h
  | regWr g v => exact h.writeReg g v
  | crcSeed => exact { h with }
  | crcUpd b => exact { h with }
  | tbRd a => exact { h with }
  | tbWr a b => exact h.write_tb a.isLt
  | trkRd x => exact { h with }
  | pbRd a => exact { h with }
  | pbWr a b => exact { h with pbWf := wf_write h.pbWf a.isLt }
  | encTrack valid checks =>
    obtain ⟨_, hgap, hsum⟩ := State.encChecks_none.mp checks
    have hlen := encodedTrack_length_eq valid hgap hsum
    have hcap := (State.validLen_iff.mp valid).2
    exact h.write_tb (by simp only [hlen, Config.tbCap]; omega)
  | scanStart =>
    have hz := resetMeetsInvariant
    exact { h with
      slotBound := hz.slotBound, rslotBound := hz.rslotBound, scanEnd := hz.scanEnd, recordAddrOk := hz.recordAddrOk,
      typeClassBound := hz.typeClassBound }
  | scanNext => exact h.scanned
  | gapClr => exact { h with ivcntCounts := rfl, ivBound := Nat.zero_le _, ivRange := nofun }
  | gapAdd room => exact h.append_interval room
  | gapFind valid => exact h.find_gap valid
  | adjStep pass => exact h.pass pass
  | adjRun passes => exact h.passes passes

/-! ## How a command ends keeps the invariant -/

theorem State.Inv.answered (h : s.Inv) (r : Word) : (s.answered r).Inv := { h with }

theorem State.Inv.takeFault (h : s.Inv) {c : FaultCode} (code : c ≠ .noConv) (info : Nat) : (s.takeFault c info).Inv :=
  { h with noFault := nofun, faultCode := fun _ => FaultCode.raisable code }

theorem Ends.inv (he : Ends u t) (h : u.Inv) : t.Inv := by
  cases he with
  | answered r => exact h.answered r
  | faulted _ code info => exact h.takeFault code info

theorem exec_inv {i : Instr} (h : s.Inv) (hs : exec i s = .next t) : t.Inv := by
  obtain ⟨u, hw, he⟩ := exec_cases hs
  exact he.inv (hw.inv h)

theorem illegalWord_inv {high : Half} (h : s.Inv) (hs : s.illegalWord high = .next t) : t.Inv := by
  rcases State.illegalWord_cases hs with ⟨_, rfl⟩ | ⟨_, rfl⟩
  · exact h.answered _
  · exact h.takeFault (by decide) _

theorem runWord_inv {w : Word} (h : s.Inv) (hs : runWord w s = .next t) : t.Inv := by
  unfold runWord at hs
  split at hs
  · exact exec_inv h hs
  · exact illegalWord_inv h hs

/-- Settles O59: the three forms of a step, a command's by what it writes and how it ends. -/
theorem stepKeepsInvariant : Obligations.StepKeepsInvariant := by
  intro s t h hs
  have taken (rest : List HostEvent) : State.Inv { s with input := rest } := { h with }
  cases hin : s.input with
  | nil =>
    rw [step_idle hin] at hs
    cases hs
    exact h
  | cons e rest =>
    cases e with
    | reset =>
      rw [step_reset hin] at hs
      cases hs
      exact inv_resetEvent _
    | command w =>
      rw [step_command hin] at hs
      exact runWord_inv (taken rest) hs

end Sys2Proof.Machine
end

section
/-! Proofs of the statements about who writes what (10_state.md): the registers and memories (R21, R39, R252), FAULT and FINFO (R29), and the bytes
the adjuster leaves (R38). -/

namespace Sys2Proof.Machine

variable {s t u : State}

/-! ## FAULT, FINFO and RESP -/

/-- Nothing a command writes is in FAULT or FINFO (R29). -/
theorem Writes.fault_kept {i : Instr} (hw : Writes s i u) :
    u.faultV = s.faultV ∧ u.faultCode = s.faultCode ∧ u.finfo = s.finfo := by
  cases hw with
  | regWr g v =>
    obtain ⟨_, _, _, _, _, _, _, he⟩ := writeReg_eq s g v
    rw [he]
    exact ⟨rfl, rfl, rfl⟩
  | scanNext =>
    obtain ⟨_, _, _, he⟩ := scanned_eq s s.scanHere
    rw [he]
    exact ⟨rfl, rfl, rfl⟩
  | adjStep pass => exact passes_fault_kept (.single pass)
  | adjRun passes => exact passes_fault_kept passes
  | _ => exact ⟨rfl, rfl, rfl⟩

/-- How a command ends touches FAULT, FINFO and RESP alone (R256); CODE and FINFO change only where V is set, and nothing clears V (R29). -/
theorem Ends.eq (he : Ends u t) :
    ∃ v code info resp, t = { u with faultV := v, faultCode := code, finfo := info, resp := resp } ∧
      (v = u.faultV → code = u.faultCode ∧ info = u.finfo) ∧ (u.faultV = true → v = true) := by
  cases he with
  | answered r => exact ⟨u.faultV, u.faultCode, u.finfo, some r, rfl, fun _ => ⟨rfl, rfl⟩, id⟩
  | faulted running _ info => exact ⟨true, _, _, _, rfl, fun h => by simp [running] at h, fun _ => rfl⟩

/-- Settles O15: the case split over what a command writes; each update reaches only the fields its clause lets it reach. -/
theorem onlyNamedCommandsWrite : Obligations.OnlyNamedCommandsWrite := by
  intro i s t h
  obtain ⟨u, hw, he⟩ := exec_cases h
  obtain ⟨hv, hc, hf⟩ := hw.fault_kept
  obtain ⟨v, code, info, resp, rfl, hfault⟩ := he.eq
  rw [hv, hc, hf] at hfault
  cases hw with
  | nothing =>
    exact ⟨fun _ => rfl, fun _ => rfl, fun _ => rfl, fun _ => ⟨rfl, rfl, rfl, rfl, rfl⟩, fun _ => ⟨rfl, rfl, rfl⟩, fun _ => ⟨rfl, rfl⟩,
      fun _ => rfl, fun _ => rfl, fun _ => rfl, hfault⟩
  | regWr g w =>
    obtain ⟨_, _, _, _, _, _, _, heq⟩ := writeReg_eq s g w
    simpa only [heq, true_imp_iff, false_imp_iff, true_and, and_self] using hfault
  | scanNext =>
    obtain ⟨_, _, _, heq⟩ := scanned_eq s s.scanHere
    simpa only [heq, true_imp_iff, false_imp_iff, true_and, and_self] using hfault
  | adjStep pass =>
    obtain ⟨_, _, _, _, _, rfl⟩ := passes_eq (.single pass)
    simpa only [true_imp_iff, false_imp_iff, true_and, and_self] using hfault
  | adjRun passes =>
    obtain ⟨_, _, _, _, _, rfl⟩ := passes_eq passes
    simpa only [true_imp_iff, false_imp_iff, true_and, and_self] using hfault
  | _ => simpa only [true_imp_iff, false_imp_iff, true_and, and_self] using hfault

/-! ## The bytes outside the track -/

/-- A pass grows the track only while it is shorter than TARGET asks, and writes no byte at or above the longer of the two lengths it is
between (R205, R208, R209). -/
theorem Pass.track (hp : Pass s u) :
    u.target = s.target ∧
    (s.dataLen < s.target.toNat ∧ u.dataLen ≤ s.target.toNat ∧ u.trklen.toNat = s.trklen.toNat + 1 ∨
      s.target.toNat < s.dataLen ∧ u.trklen.toNat + 1 = s.trklen.toNat) ∧
    ∀ a : Nat, s.trklen.toNat ≤ a → u.trklen.toNat ≤ a → u.tbByte a = s.tbByte a := by
  cases hp with | @apply p hv low high apart plan
  obtain ⟨_, hmid, _, _⟩ := adjPlan_mid hv plan
  obtain ⟨hv', hlen, _⟩ := adjApply_dataLen hv low high apart p
  obtain ⟨_, _, hs⟩ := State.dataLen_bounds hv
  obtain ⟨_, _, hu⟩ := State.dataLen_bounds hv'
  refine ⟨adjApply_target s p, by split at hlen <;> omega, fun a ha ha' => ?_⟩
  rw [adjApply_tbByte s p hmid (by omega)]
  split at hlen
  · next hg => rw [if_pos hg, if_neg (by omega)]
  · next hg => rw [if_neg hg, if_neg (by omega)]

/-- The passes of a run go one way: they leave a track no longer than TARGET asks, or no longer than it was; so every byte at or above
the first and the last length was above the track of each pass. -/
theorem passes_track (hp : Relation.ReflTransGen Pass s u) :
    (u.dataLen ≤ u.target.toNat ∨ u.trklen.toNat ≤ s.trklen.toNat) ∧
    ∀ a : Nat, s.trklen.toNat ≤ a → u.trklen.toNat ≤ a → u.tbByte a = s.tbByte a := by
  induction hp with
  | refl => exact ⟨.inr (le_refl _), fun _ _ _ => rfl⟩
  | tail _ hp ih =>
    obtain ⟨hdir, hbytes⟩ := ih
    obtain ⟨htarget, hlen, hpass⟩ := hp.track
    rw [htarget]
    refine ⟨by omega, fun a ha ha' => ?_⟩
    rw [hpass a (by omega) ha', hbytes a ha (by omega)]

theorem Ends.track (he : Ends u t) : t.trklen = u.trklen ∧ ∀ a, t.tbByte a = u.tbByte a := by
  cases he <;> exact ⟨rfl, fun _ => rfl⟩

/-- Settles O57: ADJ.STEP and ADJ.RUN write by passes alone. -/
theorem adjusterLeavesBytesOutsideTrack : Obligations.AdjusterLeavesBytesOutsideTrack := by
  intro i s t hi h a ha ha'
  obtain ⟨u, hw, he⟩ := exec_cases h
  obtain ⟨hlen, hbytes⟩ := he.track
  have passes : Relation.ReflTransGen Pass s u := by
    rcases hi with rfl | rfl
    · cases hw with
      | nothing => exact .refl
      | adjStep pass => exact .single pass
    · cases hw with
      | nothing => exact .refl
      | adjRun passes => exact passes
  rw [hbytes, (passes_track passes).2 a ha (hlen ▸ ha')]

end Sys2Proof.Machine
end

section
/-! Proofs of the statements about the register file (10_state.md): what reset leaves in it (R42), and what each register number reads (R21, R28). -/

namespace Sys2Proof.Machine

/-! ## Reset -/

/-- A reset event leaves the register file of the state right after reset (R281); only the draw and the input differ. -/
theorem resetEvent_readReg (s : State) (g : Reg) : s.resetEvent.readReg g = State.reset.readReg g := by cases g <;> rfl

theorem reset_readReg {g : Reg} (h : g ≠ .crc) : State.reset.readReg g = 0 := by
  cases g with
  | crc => exact absurd rfl h
  | status | fault => decide
  | rtab i => simp [State.readReg, State.reset, EncoderRegs.reset]
  | _ => rfl

/-- Settles O7: a step with a reset first in the input is the reset event. -/
theorem resetLeavesResetValues : Obligations.ResetLeavesResetValues :=
  fun _ _ hin => ⟨_, step_reset hin, rfl, rfl, rfl, fun g hg => (resetEvent_readReg _ g).trans (reset_readReg hg)⟩

/-! ## Reading by number -/

theorem exec_regRd_num (s : State) (g : Reg) : exec (.regRd g.num) s = .next (s.answered ((s.readReg g).setWidth 32)) := by
  simp only [exec_regRd, execRegRd, Reg.ofNum_num, State.answer]

/-- REG.RD of a register's number answers the number the register reads as (R236). -/
theorem exec_regRd_toNat (s : State) (g : Reg) {v : Nat} (hv : (s.readReg g).toNat = v) :
    exec (.regRd g.num) s = .next { s with resp := some (BitVec.ofNat 32 v) } := by
  rw [exec_regRd_num, ← hv, BitVec.ofNat_toNat]
  rfl

/-- A register narrower than 16 bits reads as its field: the unimplemented bits are 0 (R21). -/
theorem exec_regRd_narrow (s : State) (g : Reg) {w : Nat} (x : BitVec w) (hw : w ≤ 16) (hx : s.readReg g = x.setWidth 16) :
    exec (.regRd g.num) s = .next { s with resp := some (BitVec.ofNat 32 x.toNat) } :=
  exec_regRd_toNat s g (hx ▸ BitVec.toNat_setWidth_of_le hw)

/-- STATUS as a number (R28). -/
theorem readReg_status_toNat (s : State) :
    (s.readReg .status).toNat = (if s.faultV then 1 else 0) + (if s.scandone then 2 else 0) + (if s.gap.valid then 4 else 0) := by
  have bits (v d g : Bool) : ((BitVec.ofBool g ++ BitVec.ofBool d ++ BitVec.ofBool v).setWidth 16).toNat =
      (if v then 1 else 0) + (if d then 2 else 0) + (if g then 4 else 0) := by
    revert v d g
    decide
  exact bits s.faultV s.scandone s.gap.valid

/-- FAULT as a number: bits 14:8 read 0 (R29). -/
theorem readReg_fault_toNat (s : State) : (s.readReg .fault).toNat = (if s.faultV then 0x8000 else 0) + s.faultCode.toNat := by
  show (BitVec.ofBool s.faultV ++ 0#7 ++ s.faultCode).toNat = _
  rw [append_toNat, append_toNat]
  cases s.faultV <;> rfl

/-- Settles O18: each number is that of its register, which reads as its field. -/
theorem registerNumbersNameState : Obligations.RegisterNumbersNameState := by
  intro s
  have wide (g : Reg) := exec_regRd_toNat s g rfl
  have narrow {w : Nat} (g : Reg) (x : BitVec w) := exec_regRd_narrow s g x
  have rtab (k : Fin 64) : (Reg.rtab k).num = BitVec.ofNat 8 (0x40 + k.val) := (BitVec.ofNat_add ..).symm
  exact ⟨exec_regRd_toNat s .status (readReg_status_toNat s), exec_regRd_toNat s .fault (readReg_fault_toNat s),
    wide .finfo, narrow .mode s.mode (by decide) rfl, wide .trklen, wide .crc, narrow .data s.data (by decide) rfl, wide .target,
    wide .gap1, wide .gap2, wide .gap3, wide .gap4a, wide .gap4b, wide .spt,
    narrow .sizecode s.enc.sizecode (by decide) rfl, narrow .idc s.enc.idc (by decide) rfl, narrow .idh s.enc.idh (by decide) rfl,
    wide .corr0, wide .corr1, wide .corr2, wide .corr3,
    narrow .slot s.slot (by decide) rfl, narrow .rkind s.scan.rkind (by decide) rfl, narrow .rslot s.scan.rslot (by decide) rfl,
    wide .rptr, narrow .recC s.scan.recC (by decide) rfl, narrow .recH s.scan.recH (by decide) rfl,
    narrow .recR s.scan.recR (by decide) rfl, narrow .recN s.scan.recN (by decide) rfl,
    narrow .recType s.scan.recType (by decide) rfl, narrow .recFlags s.scan.recFlags (by decide) rfl,
    wide .rsize, narrow .addroff s.scan.addroff (by decide) rfl, narrow .dataoff s.scan.dataoff (by decide) rfl,
    wide .ivs, wide .ive, narrow .ivcnt s.ivcnt (by decide) rfl, narrow .gapmid s.gap.mid (by decide) rfl,
    narrow .gapsize s.gap.size (by decide) rfl,
    fun k => rtab k ▸ narrow (.rtab k) s.enc.rtab[k] (by decide) rfl⟩

end Sys2Proof.Machine
end

section
/-! The decoder and the encoder against the opcode map (R106): a row fixes the opcode and the must-be-zero fields of a word, the other fields are
its operands. Every statement about encodings (30_encoding.md) follows from `decode_of_row`, `row_encode` and `encode_of_decode`. -/

namespace Sys2Proof

/-! ## A word that matches a row -/

/-- The command of a row whose operands are the fields of `w` (R111). -/
def Instr.withFieldsOf (w : Word) : Instr → Instr
  | .regRd _ => .regRd (w.extractLsb' 16 8)
  | .regWr _ _ => .regWr (w.extractLsb' 16 8) (w.extractLsb' 0 16)
  | .crcUpd _ => .crcUpd (w.extractLsb' 0 8)
  | .tbRd _ => .tbRd (w.extractLsb' 8 14)
  | .tbWr _ _ => .tbWr (w.extractLsb' 8 14) (w.extractLsb' 0 8)
  | .trkRd _ => .trkRd (w.extractLsb' 0 24).toInt
  | .pbRd _ => .pbRd (w.extractLsb' 8 14)
  | .pbWr _ _ => .pbWr (w.extractLsb' 8 14) (w.extractLsb' 0 8)
  | i => i

/-- Operands do not choose the row. -/
theorem withFieldsOf_row (w : Word) (i : Instr) :
    rowMask (i.withFieldsOf w) = rowMask i ∧ rowMatch (i.withFieldsOf w) = rowMatch i := by
  cases i <;> exact ⟨rfl, rfl⟩

/-- A field whose bits are all in the mask is the field of the pattern. -/
theorem field_of_mask {w mask pattern : Word} (h : w &&& mask = pattern) {start len : Nat} {x : BitVec len}
    (hm : mask.extractLsb' start len = BitVec.allOnes len) (hx : pattern.extractLsb' start len = x) : w.extractLsb' start len = x := by
  rw [← hx, ← h, BitVec.extractLsb'_and, hm, BitVec.and_allOnes]

/-- A row without operands fixes the whole word. -/
theorem eq_of_full_mask {w pattern : Word} (h : w &&& 0xFFFFFFFF = pattern) : w = pattern :=
  (BitVec.and_allOnes (x := w)).symm.trans h

/-- A word that matches a row decodes to that row's command, its operands the word's fields (R106, R111). -/
theorem decode_of_row {w : Word} {i : Instr} (h : w &&& rowMask i = rowMatch i) : decode w = .ok (i.withFieldsOf w) := by
  cases i <;> simp only [rowMask, rowMatch] at h
  case regRd r => exact (decode_regRd (field_of_mask h rfl rfl)).trans (ifZeroField_ok.mpr ⟨field_of_mask h rfl rfl, rfl⟩)
  case regWr r v => exact decode_regWr (field_of_mask h rfl rfl)
  case crcUpd b => exact (decode_crcUpd (field_of_mask h rfl rfl)).trans (ifZeroField_ok.mpr ⟨field_of_mask h rfl rfl, rfl⟩)
  case tbRd addr =>
    exact (decode_tbRd (field_of_mask h rfl rfl)).trans (decodeA0_ok.mpr ⟨field_of_mask h rfl rfl, field_of_mask h rfl rfl, rfl⟩)
  case tbWr addr b => exact (decode_tbWr (field_of_mask h rfl rfl)).trans (ifZeroField_ok.mpr ⟨field_of_mask h rfl rfl, rfl⟩)
  case trkRd idx => exact decode_trkRd (field_of_mask h rfl rfl)
  case pbRd addr =>
    exact (decode_pbRd (field_of_mask h rfl rfl)).trans (decodeA0_ok.mpr ⟨field_of_mask h rfl rfl, field_of_mask h rfl rfl, rfl⟩)
  case pbWr addr b => exact (decode_pbWr (field_of_mask h rfl rfl)).trans (ifZeroField_ok.mpr ⟨field_of_mask h rfl rfl, rfl⟩)
  all_goals exact eq_of_full_mask h ▸ rfl

/-! ## The word of a command -/

/-- The word of a command matches the command's row. -/
theorem row_encode (i : Instr) : encode i &&& rowMask i = rowMatch i := by
  cases i with
  | regRd r => exact Laws.EncodeMatchesRow.regRd r
  | regWr r v => exact Laws.EncodeMatchesRow.regWr r v
  | crcUpd b => exact Laws.EncodeMatchesRow.crcUpd b
  | tbRd addr => exact Laws.EncodeMatchesRow.tbRd addr
  | tbWr addr b => exact Laws.EncodeMatchesRow.tbWr addr b
  | trkRd idx => exact Laws.EncodeMatchesRow.trkRd idx
  | pbRd addr => exact Laws.EncodeMatchesRow.pbRd addr
  | pbWr addr b => exact Laws.EncodeMatchesRow.pbWr addr b
  | _ => rfl

/-- A field of a word, from the word's value. -/
theorem field_eq {w : Word} {n start len : Nat} {x : BitVec len} (hw : w.toNat = n) (hx : n / 2 ^ start % 2 ^ len = x.toNat) :
    w.extractLsb' start len = x :=
  BitVec.eq_of_toNat_eq (by rw [field_toNat, hw, hx])

/-- The index of TRK.RD survives its 24-bit field (R105). -/
theorem field_encode_trkRd (idx : Int) : (encode (.trkRd idx)).extractLsb' 0 24 = BitVec.ofInt 24 idx := by
  have := encode_trkRd_toNat idx
  refine field_eq rfl ?_
  rw [BitVec.toNat_ofInt]
  omega

/-- The fields of a command's word are the command's operands (R109, R111). -/
theorem withFieldsOf_encode {i : Instr} (h : i.wellFormed = true) : i.withFieldsOf (encode i) = i := by
  cases i with
  | regRd r => exact congrArg Instr.regRd (field_eq (encode_regRd_toNat r) (by omega))
  | regWr r v =>
    have hw := encode_regWr_toNat r v
    exact congrArg₂ Instr.regWr (field_eq hw (by omega)) (field_eq hw (by omega))
  | crcUpd b => exact congrArg Instr.crcUpd (field_eq (encode_crcUpd_toNat b) (by omega))
  | tbRd addr => exact congrArg Instr.tbRd (field_eq (encode_tbRd_toNat addr) (by omega))
  | tbWr addr b =>
    have hw := encode_tbWr_toNat addr b
    exact congrArg₂ Instr.tbWr (field_eq hw (by omega)) (field_eq hw (by omega))
  | trkRd idx =>
    obtain ⟨low, high⟩ : idx24InRange idx := of_decide_eq_true h
    refine congrArg Instr.trkRd ?_
    rw [field_encode_trkRd, BitVec.toInt_ofInt, Int.bmod_eq_of_le (by omega) (by omega)]
  | pbRd addr => exact congrArg Instr.pbRd (field_eq (encode_pbRd_toNat addr) (by omega))
  | pbWr addr b =>
    have hw := encode_pbWr_toNat addr b
    exact congrArg₂ Instr.pbWr (field_eq hw (by omega)) (field_eq hw (by omega))
  | _ => rfl

/-! ## A word put together again from its fields, one lemma per format -/

/-- Formats Z and I (R101, R105). -/
theorem word_of_fieldsZ {w : Word} {op : BitVec 8} {a : BitVec 24} (hop : opcodeOf w = op) (ha : w.extractLsb' 0 24 = a) :
    op ++ a = w := by
  subst hop ha
  apply BitVec.eq_of_toNat_eq
  simp only [append_toNat, opcodeOf_toNat, field_toNat]
  omega

/-- Format B (R102). -/
theorem word_of_fieldsB {w : Word} {op : BitVec 8} {z : BitVec 16} {b : Byte} (hop : opcodeOf w = op) (hz : w.extractLsb' 8 16 = z)
    (hb : w.extractLsb' 0 8 = b) : op ++ z ++ b = w := by
  subst hop hz hb
  apply BitVec.eq_of_toNat_eq
  simp only [append_toNat, opcodeOf_toNat, field_toNat]
  omega

/-- Format R (R103). -/
theorem word_of_fieldsR {w : Word} {op r : BitVec 8} {v : Half} (hop : opcodeOf w = op) (hr : w.extractLsb' 16 8 = r)
    (hv : w.extractLsb' 0 16 = v) : op ++ r ++ v = w := by
  subst hop hr hv
  apply BitVec.eq_of_toNat_eq
  simp only [append_toNat, opcodeOf_toNat, field_toNat]
  omega

/-- Format A (R104). -/
theorem word_of_fieldsA {w : Word} {op : BitVec 8} {z : BitVec 2} {addr : BitVec 14} {b : Byte} (hop : opcodeOf w = op)
    (hz : w.extractLsb' 22 2 = z) (ha : w.extractLsb' 8 14 = addr) (hb : w.extractLsb' 0 8 = b) : op ++ z ++ addr ++ b = w := by
  subst hop hz ha hb
  apply BitVec.eq_of_toNat_eq
  simp only [append_toNat, opcodeOf_toNat, field_toNat]
  omega

/-! ## The command of a word -/

theorem encode_of_decodeZ {w : Word} {op : BitVec 8} {i j : Instr} (hj : encode j = op ++ 0#24) (hop : opcodeOf w = op)
    (hd : decodeZ w j = .ok i) : encode i = w := by
  obtain ⟨hz, rfl⟩ := ifZeroField_ok.mp hd
  exact hj.trans (word_of_fieldsZ hop hz)

theorem encode_of_decodeA {w : Word} {op : BitVec 8} {i : Instr} {f : BitVec 14 → Byte → Instr}
    (hf : ∀ addr b, encode (f addr b) = op ++ 0#2 ++ addr ++ b) (hop : opcodeOf w = op) (hd : decodeA w f = .ok i) : encode i = w := by
  obtain ⟨hz, rfl⟩ := ifZeroField_ok.mp hd
  exact (hf _ _).trans (word_of_fieldsA hop hz rfl rfl)

theorem encode_of_decodeA0 {w : Word} {op : BitVec 8} {i : Instr} {f : BitVec 14 → Instr}
    (hf : ∀ addr, encode (f addr) = op ++ 0#2 ++ addr ++ 0#8) (hop : opcodeOf w = op) (hd : decodeA0 w f = .ok i) : encode i = w := by
  obtain ⟨hz, hb, rfl⟩ := decodeA0_ok.mp hd
  exact (hf _).trans (word_of_fieldsA hop hz rfl hb)

/-- No bit of a legal word is ignored (R107): the cases are the rows of R106, in their order. -/
theorem encode_of_decode {w : Word} {i : Instr} (h : decode w = .ok i) : encode i = w := by
  obtain ⟨hop, hd⟩ | ⟨hop, hd⟩ | ⟨hop, hd⟩ | ⟨hop, hd⟩ | ⟨hop, hd⟩ | ⟨hop, hd⟩ | ⟨hop, hd⟩ | ⟨hop, hd⟩ | ⟨hop, hd⟩ | ⟨hop, hd⟩ |
    ⟨hop, hd⟩ | ⟨hop, hd⟩ | ⟨hop, hd⟩ | ⟨hop, hd⟩ | ⟨hop, hd⟩ | ⟨hop, hd⟩ | ⟨hop, hd⟩ | ⟨hop, hd⟩ := decode_ok_cases h
  · exact encode_of_decodeZ rfl hop hd
  · obtain ⟨hv, rfl⟩ := ifZeroField_ok.mp hd
    exact word_of_fieldsR hop rfl hv
  · cases hd
    exact word_of_fieldsR hop rfl rfl
  · exact encode_of_decodeZ rfl hop hd
  · obtain ⟨hz, rfl⟩ := ifZeroField_ok.mp hd
    exact word_of_fieldsB hop hz rfl
  · exact encode_of_decodeA0 (fun _ => rfl) hop hd
  · exact encode_of_decodeA (fun _ _ => rfl) hop hd
  · cases hd
    exact word_of_fieldsZ hop BitVec.ofInt_toInt.symm
  · exact encode_of_decodeA0 (fun _ => rfl) hop hd
  · exact encode_of_decodeA (fun _ _ => rfl) hop hd
  all_goals exact encode_of_decodeZ rfl hop hd

/-- A word that decodes matches the row of what it decodes to. -/
theorem row_of_decode {w : Word} {i : Instr} (h : decode w = .ok i) : w &&& rowMask i = rowMatch i :=
  encode_of_decode h ▸ row_encode i

/-- The index of TRK.RD is in range, being read from 24 bits (R105); no other command can be ill formed. -/
theorem wellFormed_withFieldsOf (w : Word) (i : Instr) : (i.withFieldsOf w).wellFormed = true := by
  cases i with
  | trkRd idx =>
    have low := BitVec.le_toInt (w.extractLsb' 0 24)
    have high := BitVec.toInt_lt (x := w.extractLsb' 0 24)
    exact decide_eq_true (show idx24InRange _ from ⟨by omega, by omega⟩)
  | _ => rfl

theorem wellFormed_of_decode {w : Word} {i : Instr} (h : decode w = .ok i) : i.wellFormed = true := by
  have hi : i.withFieldsOf w = i := Except.ok.inj ((decode_of_row (row_of_decode h)).symm.trans h)
  exact hi ▸ wellFormed_withFieldsOf w i

/-- A word that matches no row is no command (R107). -/
theorem decode_of_no_row {w : Word} (h : ∀ i : Instr, w &&& rowMask i ≠ rowMatch i) : ∃ r, decode w = .error r := by
  cases hd : decode w with
  | error r => exact ⟨r, rfl⟩
  | ok i => exact absurd (row_of_decode hd) (h i)

/-! ## The statements -/

/-- Settles O2: a command's word matches its row, so it decodes to that row with its own operands. -/
theorem decodeOfEncodeIsTheCommand : Obligations.DecodeOfEncodeIsTheCommand := by
  intro i hi
  calc decode (encode i) = .ok (i.withFieldsOf (encode i)) := decode_of_row (row_encode i)
    _ = .ok i := by rw [withFieldsOf_encode hi]

/-- Settles O3, format by format: the word is its fields appended. -/
theorem encodeOfDecodeIsTheWord : Obligations.EncodeOfDecodeIsTheWord :=
  fun _ _ h => ⟨encode_of_decode h, wellFormed_of_decode h⟩

/-- Settles O4: a row fixes what it decodes to, and every word that decodes matches a row. -/
theorem decodeFollowsOpcodeMap : Obligations.DecodeFollowsOpcodeMap :=
  fun w => ⟨fun i h => ⟨_, decode_of_row h, withFieldsOf_row w i⟩, decode_of_no_row⟩

/-- Settles O1: each word evaluates. -/
theorem specWordsDecode : Obligations.SpecWordsDecode := by
  unfold Obligations.SpecWordsDecode
  decide

end Sys2Proof
end

section
/-! What a step does with a word that is no command (R107). -/

namespace Sys2Proof.Machine

/-- An illegal word on a running block raises E_ILLEGAL with its upper half (R107). -/
theorem illegalWord_running {s : State} (running : s.faultV = false) (high : Half) :
    s.illegalWord high = .next { s with faultV := true, faultCode := 1, finfo := high, resp := some 0x80000001 } := by
  rw [State.illegalWord, State.whenRunning_running running, State.raise, State.takeFault, BitVec.ofNat_toNat, BitVec.setWidth_eq]
  rfl

theorem runWord_of_decode_error {w : Word} {r : DecodeReject} (hw : decode w = .error r) (s : State) :
    runWord w s = s.illegalWord (wordHigh w) := by
  simp only [runWord, hw]

/-- Settles O6: the step hands the word to `runWord`, and no row means no command. -/
theorem illegalWordRaisesIllegal : Obligations.IllegalWordRaisesIllegal := by
  intro s w rest running hin norow
  obtain ⟨r, hr⟩ := decode_of_no_row norow
  calc step s = runWord w { s with input := rest } := step_command hin
    _ = State.illegalWord { s with input := rest } (wordHigh w) := runWord_of_decode_error hr _
    _ = _ := illegalWord_running (s := { s with input := rest }) running _

end Sys2Proof.Machine
end

section
/-! Where each field of an encoded track stands (R91). `FieldAt` places a list in a longer one; the fields of a sector block are placed in the block,
the block in the data region, and `encTrack_field` reads them back out of TB. -/

namespace Sys2Proof.Machine

/-! ## A field of a list of bytes -/

/-- From index `p` on, `l` holds the bytes of `f`. -/
def FieldAt (l : List Byte) (p : Nat) (f : List Byte) : Prop := ∀ i < f.length, l[p + i]? = f[i]?

theorem FieldAt.refl (f : List Byte) : FieldAt f 0 f := fun i _ => by rw [Nat.zero_add]

theorem FieldAt.bound {l f : List Byte} {p i : Nat} (h : FieldAt l p f) (hi : i < f.length) : p + i < l.length := by
  have hf := h i hi
  rw [List.getElem?_eq_getElem hi] at hf
  exact (List.getElem?_eq_some_iff.mp hf).1

/-- The last part of a list. -/
theorem FieldAt.last {p : Nat} (g f : List Byte) (hp : g.length = p) : FieldAt (g ++ f) p f := by
  intro i _
  rw [List.getElem?_append_right (by omega), hp, Nat.add_sub_cancel_left]

/-- What is appended moves no field. -/
theorem FieldAt.append {l f : List Byte} {p : Nat} (h : FieldAt l p f) (r : List Byte) : FieldAt (l ++ r) p f := by
  intro i hi
  rw [List.getElem?_append_left (h.bound hi), h i hi]

/-- A field of a field. -/
theorem FieldAt.trans {l f g : List Byte} {p q : Nat} (hf : FieldAt l p f) (hg : FieldAt f q g) : FieldAt l (p + q) g := by
  intro i hi
  rw [Nat.add_assoc, hf _ (hg.bound hi), hg i hi]

variable {s t : State}

/-! ## The parts of the data region (R153) -/

/-- The fields before the first sector block, in order (R91, R92). -/
theorem trackHead_fields (s : State) :
    FieldAt s.trackHead 0 (gapRun s.enc.gap4a.toNat) ∧
    FieldAt s.trackHead s.enc.gap4a.toNat syncRun ∧
    FieldAt s.trackHead (s.enc.gap4a.toNat + 12) indexMark ∧
    FieldAt s.trackHead (s.enc.gap4a.toNat + 16) (gapRun s.enc.gap1.toNat) := by
  refine ⟨(((FieldAt.refl _).append _).append _).append _,
    ((FieldAt.last _ _ ?_).append _).append _,
    (FieldAt.last _ _ ?_).append _,
    FieldAt.last _ _ ?_⟩ <;>
    simp

theorem trackData_head {p : Nat} {f : List Byte} (h : FieldAt s.trackHead p f) : FieldAt s.trackData p f := (h.append _).append _

/-- Sector block `k` stands at `B(k)` (R91). -/
theorem trackData_block {k : Nat} (hk : k < s.enc.spt.toNat) : FieldAt s.trackData (s.blockAt k) (s.sectorBlock k) := by
  have inBlocks : FieldAt ((List.range s.enc.spt.toNat).flatMap s.sectorBlock) (k * s.encBlockLen) (s.sectorBlock k) :=
    fun i hi => flatMap_getElem?_const (sectorBlock_length s) hk (sectorBlock_length s k ▸ hi)
  exact ((FieldAt.last _ _ (trackHead_length s)).trans inBlocks).append _

/-- gap4b follows the last block. -/
theorem trackData_gap4b : FieldAt s.trackData (s.blockAt s.enc.spt.toNat) (gapRun s.encGap4b.toNat) := by
  refine FieldAt.last _ _ ?_
  rw [List.length_append, trackHead_length, flatMap_length_const (sectorBlock_length s), State.blockAt]

/-! ## What ENC.TRACK leaves in TB -/

/-- ENC.TRACK on registers it accepts writes the whole encoded track (R158). -/
theorem exec_encTrack_encodable (running : s.running) (he : encodable s) :
    exec .encTrack s = State.answer { s with tb := s.tb.write 0 s.encodedTrack } (BitVec.ofNat 32 s.encGap4b.toNat) := by
  obtain ⟨low, high, hspt, hgap, hsum⟩ := he
  have hv : s.validLen = true := State.validLen_iff.mpr ⟨low, high⟩
  have hc : s.encChecks = none := State.encChecks_none.mpr ⟨hspt, hgap, by have := State.dataLen_bounds hv; omega⟩
  rw [exec_encTrack, execEncTrack, State.whenRunning_running running, State.whenValidLen_valid hv, hc]

/-- A field of the data region is read back from TB. -/
theorem encTrack_field (running : s.running) (he : encodable s) (hx : exec .encTrack s = .next t) {p : Nat} {f : List Byte}
    (hf : FieldAt s.trackData p f) : dataRegionHas t p f := by
  intro i hi
  rw [exec_encTrack_encodable running he, State.answer_next] at hx
  have inTrack : FieldAt s.encodedTrack (128 + p) f := (FieldAt.last _ _ (pointerTable_length s)).trans hf
  have hlt := inTrack.bound hi
  rw [hx, State.answered_tbByte, tbByte_write, if_pos (by omega), List.getD_eq_getElem?_getD, Nat.sub_zero, inTrack i hi,
    List.getElem?_eq_getElem hi, Option.getD_some]

/-! ## The fields of a sector block (R93, R94, R154 to R156) -/

/-- The data CRC of a sector whose CORR bit is set is stored inverted (R155). -/
theorem dataFrame_eq (payload : List Byte) (corrupt : Bool) :
    let data := [0xA1, 0xA1, 0xA1, 0xFB] ++ payload
    let corr : Half := if corrupt then 0xFFFF else 0
    dataFrame payload corrupt = data ++ [hi (crc16 data ^^^ corr), lo (crc16 data ^^^ corr)] := by
  cases corrupt <;> simp [dataFrame, dataCrc, dataMark, be16Bytes]

/-- The fields of a sector block, in order (R91). -/
theorem sectorBlock_fields (s : State) (k : Nat) :
    FieldAt (s.sectorBlock k) 0 syncRun ∧
    FieldAt (s.sectorBlock k) 12 (idFrame s.enc.idc s.enc.idh (s.rtabAt k) s.enc.sizecode) ∧
    FieldAt (s.sectorBlock k) 22 (gapRun s.enc.gap2.toNat) ∧
    FieldAt (s.sectorBlock k) (22 + s.enc.gap2.toNat) syncRun ∧
    FieldAt (s.sectorBlock k) (34 + s.enc.gap2.toNat) (dataFrame (s.payload k) (s.corrupts k)) ∧
    FieldAt (s.sectorBlock k) (40 + s.enc.gap2.toNat + s.encSize) (gapRun s.enc.gap3.toNat) := by
  refine ⟨(((((FieldAt.refl _).append _).append _).append _).append _).append _,
    ((((FieldAt.last _ _ ?_).append _).append _).append _).append _,
    (((FieldAt.last _ _ ?_).append _).append _).append _,
    ((FieldAt.last _ _ ?_).append _).append _,
    (FieldAt.last _ _ ?_).append _,
    FieldAt.last _ _ ?_⟩ <;>
    simp <;> omega

/-- Settles O33: each field has its place in the head or in its block, and each block its place in the data region. -/
theorem encodedTrackFollowsLayout : Obligations.EncodedTrackFollowsLayout := by
  intro s t running he hx gap1 gap2 gap3 gap4a size blockLen block
  have hsize : s.encSize = size := sectorSize_eq _
  have hlen : s.encBlockLen = blockLen := by
    rw [State.encBlockLen, hsize]
    omega
  have hblock (k : Nat) : block k = s.blockAt k := by
    rw [State.blockAt, hlen]
    rfl
  have read {p q : Nat} {f : List Byte} (hf : FieldAt s.trackData p f) (hq : q = p) : dataRegionHas t q f :=
    hq ▸ encTrack_field running he hx hf
  obtain ⟨hgap4a, hsync, hindex, hgap1⟩ := trackHead_fields s
  refine ⟨read (trackData_head hgap4a) rfl, read (trackData_head hsync) rfl, read (trackData_head hindex) rfl,
    read (trackData_head hgap1) rfl, fun k hk => ?_, read trackData_gap4b (hblock _), ?_⟩
  · intro id payload data corr
    have hpayload : s.payload k = payload := by
      rw [State.payload, hsize]
      rfl
    obtain ⟨hidSync, hid, hgap2, hdataSync, hdata, hgap3⟩ := sectorBlock_fields s k
    rw [dataFrame_eq, hpayload] at hdata
    have inBlock {p : Nat} {f : List Byte} (hf : FieldAt (s.sectorBlock k) p f) := (trackData_block hk).trans hf
    rw [hblock]
    exact ⟨read (inBlock hidSync) rfl, read (inBlock hid) rfl, read (inBlock hgap2) rfl, read (inBlock hdataSync) (by omega),
      read (inBlock hdata) (by omega), read (inBlock hgap3) (by omega)⟩
  · obtain ⟨low, _, _, hgap, hsum⟩ := he
    have : s.encFixed = block s.enc.spt.toNat := (hblock _).symm
    omega

end Sys2Proof.Machine
end

section
/-! Proofs of the statements about CRC-16 (40_crc.md). An iteration of R130 shifts the register and XORs in a feedback that is linear in the register
and the byte, so linearity and injectivity of `crc16Update` go iteration by iteration. A register whose high byte is the byte fed never feeds
back; law (c) and the residue of R134 follow from that. -/

namespace Sys2Proof.Machine

/-! ## One iteration of R130 -/

/-- What an iteration XORs into the shifted register when its test bit is `t` (R130). -/
def crcFeedback (t : Bool) : Half := if t then Config.crcPoly else 0

theorem crcFeedback_xor (t u : Bool) : crcFeedback (t ^^ u) = crcFeedback t ^^^ crcFeedback u := by
  revert t u
  decide

theorem crcIter_eq (b : Byte) (c : Half) (i : Nat) :
    crcIter b c i = (c <<< 1) ^^^ crcFeedback (c ^^^ (b.setWidth 16 <<< i)).msb := by
  unfold crcIter crcFeedback
  dsimp only
  split
  · rfl
  · exact BitVec.xor_zero.symm

/-- The test bit of iteration `i` is bit 15 of the register XOR bit `15 - i` of the byte (R130). -/
theorem crcIter_testBit (b : Byte) (c : Half) {i : Nat} (h : i ≤ 15) :
    (c ^^^ (b.setWidth 16 <<< i)).msb = (c.getLsbD 15 ^^ b.getLsbD (15 - i)) := by
  simp [BitVec.msb_eq_getLsbD_last, Nat.not_lt.mpr h]

theorem crcIter_xor (b₁ b₂ : Byte) (c₁ c₂ : Half) (i : Nat) :
    crcIter (b₁ ^^^ b₂) (c₁ ^^^ c₂) i = crcIter b₁ c₁ i ^^^ crcIter b₂ c₂ i := by
  simp only [crcIter_eq, BitVec.setWidth_xor, BitVec.shiftLeft_xor_distrib, BitVec.msb_xor, crcFeedback_xor]
  ac_rfl

/-- The polynomial has bit 0 and a shifted register has not: a register that becomes 0 had no feedback, so its bit 15 was 0 too. -/
theorem eq_zero_of_crcIter {c : Half} {i : Nat} (h : crcIter 0 c i = 0) : c = 0 := by
  have htest : (c ^^^ ((0 : Byte).setWidth 16 <<< i)).msb = c.msb := by simp
  rw [crcIter_eq, htest] at h
  have hnat : c.toNat * 2 % 65536 = (crcFeedback c.msb).toNat := by
    rw [← BitVec.xor_eq_zero_iff.mp h, BitVec.toNat_shiftLeft, Nat.shiftLeft_eq]
  cases hm : c.msb with
  | true =>
    have hodd : (crcFeedback true).toNat = 0x1021 := rfl
    rw [hm, hodd] at hnat
    omega
  | false =>
    have hlow := BitVec.msb_eq_false_iff_two_mul_lt.mp hm
    have hzero : (crcFeedback false).toNat = 0 := rfl
    rw [hm, hzero] at hnat
    exact BitVec.eq_of_toNat_eq (show c.toNat = 0 by omega)

theorem crcIter_injective (b : Byte) (i : Nat) : Function.Injective fun c => crcIter b c i := by
  intro c d h
  have hzero : crcIter (b ^^^ b) (c ^^^ d) i = 0 := (crcIter_xor b b c d i).trans (BitVec.xor_eq_zero_iff.mpr h)
  rw [BitVec.xor_self] at hzero
  exact BitVec.xor_eq_zero_iff.mp (eq_zero_of_crcIter hzero)

/-! ## The iterations of a byte -/

theorem foldl_crcIter_xor (b₁ b₂ : Byte) (l : List Nat) (c₁ c₂ : Half) :
    l.foldl (crcIter (b₁ ^^^ b₂)) (c₁ ^^^ c₂) = l.foldl (crcIter b₁) c₁ ^^^ l.foldl (crcIter b₂) c₂ := by
  induction l generalizing c₁ c₂ with
  | nil => rfl
  | cons i l ih => simp only [List.foldl_cons, crcIter_xor, ih]

theorem foldl_crcIter_injective (b : Byte) (l : List Nat) : Function.Injective fun c => l.foldl (crcIter b) c := by
  induction l with
  | nil => exact Function.injective_id
  | cons i l ih => exact ih.comp (crcIter_injective b i)

/-- Law (a) of R134. -/
theorem crc16Update_xor (c₁ c₂ : Half) (b₁ b₂ : Byte) :
    crc16Update (c₁ ^^^ c₂) (b₁ ^^^ b₂) = crc16Update c₁ b₁ ^^^ crc16Update c₂ b₂ :=
  foldl_crcIter_xor b₁ b₂ _ c₁ c₂

theorem crc16Update_inj {c d : Half} {b : Byte} : crc16Update c b = crc16Update d b ↔ c = d :=
  (foldl_crcIter_injective b _).eq_iff

/-- While the high byte is shifted out against itself, every test bit is 0. -/
theorem crcIter_ownHighByte (hi lo : Byte) {n : Nat} (hn : n < 8) :
    crcIter hi ((hi ++ lo) <<< n) (8 + n) = (hi ++ lo) <<< (n + 1) := by
  have htest : (((hi ++ lo) <<< n) ^^^ (hi.setWidth 16 <<< (8 + n))).msb = false := by
    have hbyte : (hi ++ lo).getLsbD (15 - n) = hi.getLsbD (15 - (8 + n)) := by
      rw [BitVec.getLsbD_append, if_neg (by omega)]
      congr 1
      omega
    rw [crcIter_testBit _ _ (by omega), ← hbyte, BitVec.getLsbD_shiftLeft]
    simp [show ¬ 15 < n by omega]
  rw [crcIter_eq, htest, BitVec.shiftLeft_add]
  exact BitVec.xor_zero

/-- Shifting by a byte, on the bytes of a register. -/
theorem shiftLeft_byte (hi lo : Byte) : (hi ++ lo) <<< 8 = lo ++ 0#8 := by
  apply BitVec.eq_of_toNat_eq
  rw [BitVec.toNat_shiftLeft, Nat.shiftLeft_eq, append_toNat, append_toNat]
  simp
  omega

/-- A register whose high byte is the byte fed is shifted by a byte, without feedback. -/
theorem crc16Update_ownHighByte (hi lo : Byte) : crc16Update (hi ++ lo) hi = lo ++ 0#8 := by
  have shifted : ∀ n ≤ 8, (List.range' 8 n).foldl (crcIter hi) (hi ++ lo) = (hi ++ lo) <<< n := by
    intro n hn
    induction n with
    | zero => exact (BitVec.shiftLeft_zero _).symm
    | succ n ih => rw [List.range'_1_concat, List.foldl_concat, ih (by omega), crcIter_ownHighByte hi lo (by omega)]
  exact (shifted 8 (le_refl 8)).trans (shiftLeft_byte hi lo)

/-- Law (c) of R134: the byte against its own place in the register leaves 0, so XORing both in changes nothing. -/
theorem crc16Update_byte (c : Half) (b : Byte) : crc16Update c b = crc16Update (c ^^^ (b.setWidth 16 <<< 8)) 0 :=
  have hplace : b.setWidth 16 <<< 8 = b ++ 0#8 := by
    rw [BitVec.setWidth_eq_append (by decide : 8 ≤ 16)]
    exact shiftLeft_byte 0 b
  calc crc16Update c b = crc16Update c b ^^^ crc16Update (b ++ 0#8) b := by
        rw [crc16Update_ownHighByte]
        exact BitVec.xor_zero.symm
    _ = crc16Update (c ^^^ (b.setWidth 16 <<< 8)) 0 := by rw [← crc16Update_xor, BitVec.xor_self, hplace, BitVec.ofNat_eq_ofNat]

/-- Law (b) of R134: a CRC followed by its own two bytes leaves 0, and no other register does, for each byte is injective. -/
theorem crc16From_residue (c : Half) (bytes : List Byte) (b₁ b₀ : Byte) :
    crc16From c (bytes ++ [b₁, b₀]) = 0 ↔ b₁ ++ b₀ = crc16From c bytes := by
  have hmatch : crc16Update (crc16Update (b₁ ++ b₀) b₁) b₀ = 0 := by
    rw [crc16Update_ownHighByte, crc16Update_ownHighByte]
    rfl
  calc crc16From c (bytes ++ [b₁, b₀]) = 0
      ↔ crc16Update (crc16Update (crc16From c bytes) b₁) b₀ = crc16Update (crc16Update (b₁ ++ b₀) b₁) b₀ := by
        rw [hmatch, crc16From, List.foldl_append]
        rfl
    _ ↔ crc16From c bytes = b₁ ++ b₀ := by rw [crc16Update_inj, crc16Update_inj]
    _ ↔ b₁ ++ b₀ = crc16From c bytes := eq_comm

/-! ## The statements -/

/-- Settles O23: law (a) iteration by iteration, and law (c) from it. -/
theorem crcUpdateIsLinear : Obligations.CrcUpdateIsLinear :=
  ⟨crc16Update_xor, crc16Update_byte⟩

/-- Settles O24: the folds are the definitions, the values of R135 are computed, and the residue is law (b). -/
theorem crcResidueIsZeroExactlyOnMatch : Obligations.CrcResidueIsZeroExactlyOnMatch :=
  ⟨fun _ => rfl, fun _ _ => rfl, by decide +kernel, by decide +kernel, by decide +kernel, by decide +kernel, crc16From_residue⟩

/-- Settles O20: the running block's branch of CRC.SEED. -/
theorem crcSeedSetsSeed : Obligations.CrcSeedSetsSeed := by
  refine ⟨decodeOfEncodeIsTheCommand .crcSeed rfl, fun s running => ?_⟩
  rw [exec_crcSeed, execCrcSeed, State.whenRunning_running running]
  rfl

/-- Settles O21: the word is the encoder's (R109), and the meaning the running block's branch. -/
theorem crcUpdUpdatesAccumulator : Obligations.CrcUpdUpdatesAccumulator := by
  refine fun b => ⟨?_, fun s running => ?_⟩
  · rw [← encode_crcUpd_toNat, BitVec.ofNat_toNat, BitVec.setWidth_eq]
    exact decodeOfEncodeIsTheCommand (.crcUpd b) rfl
  · rw [exec_crcUpd, execCrcUpd, State.whenRunning_running running]
    rfl

/-- Settles O22: bit `k` of the byte is tested in iteration `15 - k`. -/
theorem crcUpdateConsumesBitsMostSignificantFirst : Obligations.CrcUpdateConsumesBitsMostSignificantFirst := by
  intro crc b
  have hiter : crc16Update crc b = ([7, 6, 5, 4, 3, 2, 1, 0].map (15 - ·)).foldl (crcIter b) crc := rfl
  rw [hiter, List.foldl_map]
  refine List.foldl_ext _ _ _ fun c k hk => ?_
  have hk : k ≤ 15 := by
    revert k
    decide
  unfold crcIter
  dsimp only
  rw [crcIter_testBit b c (by omega), Nat.sub_sub_self hk]

end Sys2Proof.Machine
end

section
/-! Proofs of the statements about buffer access (41_track_access.md): the check of TRKLEN that every track command makes first (R145), the address
check of TB.RD and TB.WR (R140, R141), the circular index of TRK.RD (R64, R142), and what a one-byte write leaves in a buffer. -/

namespace Sys2Proof.Machine

variable {s : State}

/-! ## The words -/

/-- The number of a command's word decodes to the command (R109). -/
theorem decode_of_encode_toNat {i : Instr} (h : i.wellFormed = true) {n : Nat} (hn : (encode i).toNat = n) :
    decode (BitVec.ofNat 32 n) = .ok i := by
  rw [← hn, BitVec.ofNat_toNat, BitVec.setWidth_eq]
  exact decodeOfEncodeIsTheCommand i h

/-! ## The checks -/

/-- With a track length out of bounds, a command that checks it first gets no further (R145). -/
theorem whenRunning_whenValidLen_bad (running : s.running) (bad : s.trklen.toNat ≤ 128 ∨ 0x4000 ≤ s.trklen.toNat) (k : Unit → Result) :
    (s.whenRunning fun _ => s.whenValidLen k) =
      .next { s with faultV := true, faultCode := 2, finfo := s.trklen, resp := some 0x80000002 } := by
  rw [State.whenRunning_running running, State.whenValidLen_bad (State.validLen_false.mpr bad), State.raise, State.takeFault,
    BitVec.ofNat_toNat, BitVec.setWidth_eq]
  rfl

theorem whenRunning_whenValidLen_good (running : s.running) (low : 128 < s.trklen.toNat) (high : s.trklen.toNat < 0x4000)
    (k : Unit → Result) : (s.whenRunning fun _ => s.whenValidLen k) = k () := by
  rw [State.whenRunning_running running, State.whenValidLen_valid (State.validLen_iff.mpr ⟨low, high⟩)]

theorem whenTrackAddr_inside (running : s.running) (low : 128 < s.trklen.toNat) (high : s.trklen.toNat < 0x4000) {addr : BitVec 14}
    (inside : addr.toNat < s.trklen.toNat) (k : Unit → Result) : s.whenTrackAddr addr k = k () := by
  rw [State.whenTrackAddr, whenRunning_whenValidLen_good running low high, if_neg (by omega)]

/-- There is no wrap: an address at or beyond TRKLEN faults (R140, R141). -/
theorem whenTrackAddr_beyond (running : s.running) (low : 128 < s.trklen.toNat) (high : s.trklen.toNat < 0x4000) {addr : BitVec 14}
    (beyond : s.trklen.toNat ≤ addr.toNat) (k : Unit → Result) :
    s.whenTrackAddr addr k =
      .next { s with faultV := true, faultCode := 3, finfo := addr.setWidth 16, resp := some 0x80000003 } := by
  rw [State.whenTrackAddr, whenRunning_whenValidLen_good running low high, if_pos beyond, State.raise, State.takeFault,
    BitVec.ofNat_toNat]
  rfl

/-- Settles O14: each of the eight commands is, behind the halt test, the check of ValidLen and a continuation. -/
theorem trackCommandsCheckTrackLength : Obligations.TrackCommandsCheckTrackLength := by
  intro i s running bad touches
  cases i with
  | tbRd _ | tbWr _ _ | trkRd _ | encTrack | scanNext | gapFind | adjStep | adjRun =>
    exact whenRunning_whenValidLen_bad running bad _
  | _ => exact False.elim touches

/-! ## The circular index -/

/-- The circular index is the Euclidean remainder by L (R64). -/
theorem wrap_of_eq {idx q : Int} {m : Nat} (hm : m < s.dataLen) (h : idx = q * (s.dataLen : Int) + m) : s.wrap idx = m := by
  rw [State.wrap, h, Int.mul_add_emod_self_right, Int.emod_eq_of_lt (by omega) (by omega), Int.toNat_natCast]

/-- Settles O27: the word is the encoder's, the length check R145's, and `rd` reads at the remainder of the index. -/
theorem trkRdReadsCircularly : Obligations.TrkRdReadsCircularly := by
  refine fun idx => ⟨fun low high => ?_, fun s running bad => ?_, fun s m running low high hm ⟨q, hq⟩ => ?_⟩
  · rw [← encode_trkRd_toNat, BitVec.ofInt_natCast]
    exact decode_of_encode_toNat (i := .trkRd idx) (decide_eq_true ⟨low, high⟩) rfl
  · exact trackCommandsCheckTrackLength (.trkRd idx) s running bad trivial
  · have hlen := State.dataLen_bounds (State.validLen_iff.mpr ⟨low, high⟩)
    rw [show (s.trklen.toNat : Int) - 128 = s.dataLen by omega] at hq
    have hrd : s.rd idx = s.tbByte (128 + m) := by rw [State.rd, wrap_of_eq (by omega) hq]
    rw [exec_trkRd, execTrkRd, whenRunning_whenValidLen_good running low high, hrd]
    rfl

/-! ## Writing one byte -/

theorem find_write_byte (m : Memory) (a : Nat) (b : Byte) (x : Nat) :
    (m.write a [b]).find x = if x = a then some b else m.find x := by
  split
  · next hx => simp [find_write, hx]
  · next hx => exact find_write_out (by rw [List.length_singleton]; omega)

/-- A byte of TB after a write of one. -/
theorem tbByte_write_byte (s : State) (a : Nat) (b : Byte) (x : Nat) :
    State.tbByte { s with tb := s.tb.write a [b] } x = if x = a then b else s.tbByte x := by
  simp only [State.tbByte, find_write_byte]
  split <;> rfl

/-- A byte of PB after a write of one. -/
theorem pbByte_write_byte (s : State) (a : Nat) (b : Byte) (x : Nat) :
    State.pbByte { s with pb := s.pb.write a [b] } x = if x = a then b else s.pbByte x := by
  simp only [State.pbByte, find_write_byte]
  split <;> rfl

/-! ## Direct access to TB and PB -/

/-- Settles O25, by the two checks of TB.RD in their order. -/
theorem tbRdReadsTrackByte : Obligations.TbRdReadsTrackByte := by
  intro addr s running
  have meaning : exec (.tbRd addr) s = s.whenTrackAddr addr fun _ => s.deliver (s.tbByte addr.toNat) := rfl
  refine ⟨decode_of_encode_toNat rfl (encode_tbRd_toNat addr), fun bad => ?_, fun low high inside => ?_, fun low high beyond => ?_⟩
  · exact trackCommandsCheckTrackLength (.tbRd addr) s running bad trivial
  · exact meaning.trans (whenTrackAddr_inside running low high inside _)
  · exact meaning.trans (whenTrackAddr_beyond running low high beyond _)

/-- Settles O26, by the two checks of TB.WR in their order; the new buffer is TB with one byte written. -/
theorem tbWrWritesOneByte : Obligations.TbWrWritesOneByte := by
  intro addr b s running
  have meaning : exec (.tbWr addr b) s =
      s.whenTrackAddr addr fun _ => State.answer { s with tb := s.tb.write addr.toNat [b] } 0 := rfl
  refine ⟨decode_of_encode_toNat rfl (encode_tbWr_toNat addr b), fun bad => ?_, fun low high inside => ⟨s.tb.write addr.toNat [b], ?_, ?_⟩,
    fun low high beyond => ?_⟩
  · exact trackCommandsCheckTrackLength (.tbWr addr b) s running bad trivial
  · exact meaning.trans (whenTrackAddr_inside running low high inside _)
  · exact tbByte_write_byte s addr.toNat b
  · exact meaning.trans (whenTrackAddr_beyond running low high beyond _)

/-- Settles O28: PB.RD has no check but the halt test. -/
theorem pbRdReadsPayloadByte : Obligations.PbRdReadsPayloadByte := by
  refine fun addr => ⟨decode_of_encode_toNat rfl (encode_pbRd_toNat addr), fun s running => ?_⟩
  rw [exec_pbRd, execPbRd, State.whenRunning_running running]
  rfl

/-- Settles O29: PB.WR has no check but the halt test; the new buffer is PB with one byte written. -/
theorem pbWrWritesOneByte : Obligations.PbWrWritesOneByte := by
  refine fun addr b => ⟨decode_of_encode_toNat rfl (encode_pbWr_toNat addr b), fun s running => ⟨s.pb.write addr.toNat [b], ?_, ?_⟩⟩
  · rw [exec_pbWr, execPbWr, State.whenRunning_running running]
    rfl
  · exact pbByte_write_byte s addr.toNat b

end Sys2Proof.Machine
end

section
/-! Proofs of the statements about ENC.TRACK itself (42_encoder.md): what `fixed` and gap4b are (R151, R160), which check raises which fault (R152),
and the bytes a successful command leaves in TB (R158). -/

namespace Sys2Proof.Machine

variable {s t : State}

/-! ## Derived quantities (R151, R160) -/

theorem encGap4b_derived (auto : s.g4bAuto = true) : s.encGap4b = (s.dataLen : Int) - s.encFixed := if_pos auto

theorem encGap4b_explicit (auto : s.g4bAuto = false) : s.encGap4b = s.enc.gap4b.toNat := if_neg (Bool.eq_false_iff.mp auto)

/-- Settles O32: `fixed` is the sum R151 writes out, and gap4b is a case on MODE.G4BAUTO. -/
theorem gap4bIsExplicitOrDerived : Obligations.Gap4bIsExplicitOrDerived := by
  intro s size fixed low
  have hsize : s.encSize = size := sectorSize_eq _
  have hfixed : s.encFixed = fixed := by rw [State.encFixed, State.encHeadLen, State.encBlockLen, hsize]
  refine ⟨hfixed, fun auto => ?_, encGap4b_explicit⟩
  have hL : (s.dataLen : Int) = (s.trklen.toNat : Int) - 128 := Nat.cast_sub low.le
  rw [encGap4b_derived auto, hfixed, hL]

/-! ## The checks (R152) -/

/-- A fault of checks 2 to 4 is what ENC.TRACK ends with. -/
theorem exec_encTrack_fault (running : s.running) (hv : s.validLen = true) {f : Raised} (hf : s.encChecks = some f) :
    exec .encTrack s = s.raise f.code f.info := by
  rw [exec_encTrack, execEncTrack, State.whenRunning_running running, State.whenValidLen_valid hv, hf]

theorem encChecks_tableFull (hspt : 64 < s.enc.spt.toNat) : s.encChecks = some ⟨.tableFull, s.enc.spt.toNat⟩ := if_pos hspt

theorem encChecks_gap4b (hspt : s.enc.spt.toNat ≤ 64) (hgap : s.encGap4b ≤ 0) : s.encChecks = some ⟨.gap4b, 0⟩ := by
  rw [State.encChecks, if_neg (Nat.not_lt.mpr hspt), if_pos hgap]

theorem encChecks_layout (hspt : s.enc.spt.toNat ≤ 64) (hgap : 0 < s.encGap4b)
    (misses : (s.encFixed : Int) + s.encGap4b ≠ s.dataLen) :
    s.encChecks = some ⟨.layout, ((s.encFixed : Int) + s.encGap4b).toNat⟩ := by
  rw [State.encChecks, if_neg (Nat.not_lt.mpr hspt), if_neg (Int.not_le.mpr hgap), if_pos misses]

/-- Settles O31: check 1 is the one every track command makes, and checks 2 to 4 are a chain of conditions. -/
theorem encTrackChecksInOrder : Obligations.EncTrackChecksInOrder := by
  intro s running raised validLen lands
  have valid : validLen → s.validLen = true := State.validLen_iff.mpr
  have dataLen : validLen → (s.dataLen : Int) = (s.trklen.toNat : Int) - 128 := fun hv => by
    have := State.dataLen_bounds (valid hv)
    omega
  have raises {code : FaultCode} {info : Nat} (hv : validLen) (hf : s.encChecks = some ⟨code, info⟩) : raised code.num info := by
    show exec .encTrack s = _
    rw [exec_encTrack_fault running (valid hv) hf, BitVec.ofInt_natCast]
    rfl
  refine ⟨fun bad => ?_, fun hv hspt => raises hv (encChecks_tableFull hspt), fun hv hspt hgap => raises hv (encChecks_gap4b hspt hgap),
    fun hv hspt hgap misses => ?_, fun hv auto => ?_⟩
  · show exec .encTrack s = _
    rw [trackCommandsCheckTrackLength .encTrack s running (by omega) trivial, BitVec.ofInt_natCast, BitVec.ofNat_toNat, BitVec.setWidth_eq]
    rfl
  · have := raises hv (encChecks_layout hspt hgap fun hsum => misses (hsum.trans (dataLen hv)))
    rwa [Int.toNat_of_nonneg (by omega)] at this
  · show (s.encFixed : Int) + s.encGap4b = (s.trklen.toNat : Int) - 128
    rw [encGap4b_derived auto, dataLen hv]
    omega

/-! ## The track written (R158) -/

/-- TB after a write of a whole list at 0. -/
theorem tbByte_write_zero (s : State) (bytes : List Byte) (a : Nat) :
    State.tbByte { s with tb := s.tb.write 0 bytes } a = if h : a < bytes.length then bytes[a] else s.tbByte a := by
  rw [tbByte_write]
  by_cases ha : a < bytes.length
  · rw [if_pos (by omega), dif_pos ha]
    exact List.getD_eq_getElem bytes 0 ha
  · rw [if_neg (by omega), dif_neg ha]

/-- Settles O30: the state is that of `exec_encTrack_encodable`, and its TB is the old one with the track written at 0. -/
theorem encTrackWritesWholeTrack : Obligations.EncTrackWritesWholeTrack := by
  intro s running he
  have ⟨low, high, _, hgap, hsum⟩ := he
  have hL := State.dataLen_bounds (State.validLen_iff.mpr ⟨low, high⟩)
  have resp : BitVec.ofNat 32 s.encGap4b.toNat = BitVec.ofInt 32 s.encGap4b := by
    rw [← BitVec.ofInt_natCast, Int.toNat_of_nonneg hgap.le]
  refine ⟨by rw [encodedTrack_length]; omega, s.tb.write 0 s.encodedTrack, ?_, tbByte_write_zero s s.encodedTrack⟩
  rw [exec_encTrack_encodable running he, resp]
  rfl

end Sys2Proof.Machine
end

section
/-! The encoded track as the scanner reads it. The circular read gives back the fields of the data region (`TrackHas`), a frame read there passes the
scanner's tests of it (R176 to R179), no data mark starts in a gap or a sync (R178), and the pointer table leads to the ID frames (R157, R159). -/

namespace Sys2Proof.Machine

variable {s t : State}

/-! ## Fields read around the circle (R64) -/

theorem FieldAt.getElem {l f : List Byte} {p i : Nat} (h : FieldAt l p f) (hi : i < f.length) : l[p + i]'(h.bound hi) = f[i] :=
  Option.some.inj (by rw [← List.getElem?_eq_getElem (h.bound hi), h i hi, List.getElem?_eq_getElem hi])

/-- The data region of the track in TB is `data`, all of it. -/
structure TrackHas (t : State) (data : List Byte) : Prop where
  length : data.length = t.dataLen
  bytes : dataRegionHas t 0 data

section
variable {data f : List Byte} {p : Nat}

/-- A byte of a field, read by its data-region index: every field lies below L, so nothing wraps. -/
theorem TrackHas.rd (h : TrackHas t data) (hf : FieldAt data p f) {i : Nat} (hi : i < f.length) : t.rd ((p : Int) + i) = f[i] := by
  have hlt := hf.bound hi
  have hwrap : t.wrap ((p : Int) + i) = p + i := wrap_of_eq (q := 0) (h.length ▸ hlt) (by omega)
  rw [State.rd, hwrap, ← hf.getElem hi]
  exact h.bytes (p + i) hlt

theorem TrackHas.rd_head (h : TrackHas t data) (hf : FieldAt data p f) (h0 : 0 < f.length) : t.rd p = f[0] := by
  simpa using h.rd hf h0

theorem TrackHas.rdSeq (h : TrackHas t data) (hf : FieldAt data p f) : t.rdSeq p f.length = f :=
  List.ext_getElem (rdSeq_length _ _ _) fun i _ hi => by rw [rdSeq_getElem, h.rd hf hi]

theorem hi_append_lo (v : Half) : hi v ++ lo v = v := by
  refine BitVec.eq_of_toNat_eq ?_
  rw [append_toNat, hi, lo, field_toNat, field_toNat]
  omega

/-- A big-endian field reads as its value (R66). -/
theorem TrackHas.rdBe16 (h : TrackHas t data) {v : Half} (hf : FieldAt data p (be16Bytes v)) : t.rdBe16 p = v := by
  have high : t.rd p = hi v := h.rd_head hf Nat.zero_lt_two
  have low : t.rd ((p : Int) + 1) = lo v := h.rd hf (i := 1) Nat.one_lt_two
  rw [State.rdBe16, high, low, hi_append_lo]

/-! ## Frames (R93, R94) -/

/-- An ID frame passes the tests of its mark and its CRC, and its four fields are read back (R176, R177). -/
theorem TrackHas.idFrame_passes {c h r n : Byte} (ht : TrackHas t data) (hf : FieldAt data p (idFrame c h r n)) :
    t.rdSeq p 4 = idMark ∧ crc16 (t.rdSeq p 8) = t.rdBe16 ((p : Int) + 8) ∧ t.idFieldsAt p = ⟨c, h, r, n⟩ := by
  have covered : FieldAt (idFrame c h r n) 0 (idMark ++ [c, h, r, n]) := (FieldAt.refl _).append _
  have mark : t.rdSeq p 4 = idMark := ht.rdSeq (hf.trans (((FieldAt.refl idMark).append [c, h, r, n]).append _))
  have frame : t.rdSeq p 8 = idMark ++ [c, h, r, n] := ht.rdSeq (hf.trans covered)
  have crc : t.rdBe16 ((p + 8 : Nat) : Int) = crc16 (idMark ++ [c, h, r, n]) := ht.rdBe16 (hf.trans (FieldAt.last _ _ rfl))
  have field (i : Nat) (hi : i < 10) := ht.rd hf hi
  refine ⟨mark, by rw [frame, ← crc]; rfl, ?_⟩
  rw [State.idFieldsAt]
  congr 1
  · exact field 4 (by decide)
  · exact field 5 (by decide)
  · exact field 6 (by decide)
  · exact field 7 (by decide)

/-- The encoder's data frame starts with a data mark that both modes accept (R155, R178). -/
theorem TrackHas.dataFrame_mark {payload : List Byte} {corrupt : Bool} (h : TrackHas t data)
    (hf : FieldAt data p (dataFrame payload corrupt)) (strict : Bool) :
    t.rd ((p : Int) + 3) = 0xFB ∧ t.dataMarkAt strict p = true := by
  have hmark : FieldAt data p (dataMark Config.typeData) := hf.trans (((FieldAt.refl _).append _).append _)
  have h0 : t.rd p = 0xA1 := h.rd_head hmark (by decide)
  have h1 : t.rd ((p : Int) + 1) = 0xA1 := h.rd hmark (i := 1) (by decide)
  have h2 : t.rd ((p : Int) + 2) = 0xA1 := h.rd hmark (i := 2) (by decide)
  have h3 : t.rd ((p : Int) + 3) = 0xFB := h.rd hmark (i := 3) (by decide)
  have type : typeOk strict 0xFB = true := by cases strict <;> rfl
  refine ⟨h3, ?_⟩
  rw [State.dataMarkAt, h0, h1, h2, h3, type]
  rfl

/-- The data CRC stored is the one computed exactly when it was not inverted (R155). -/
theorem dataCrc_good (payload : List Byte) (corrupt : Bool) :
    (crc16 (dataMark Config.typeData ++ payload) == dataCrc payload corrupt) = !corrupt := by
  cases corrupt with
  | false => exact beq_self_eq_true _
  | true =>
    have inverted (d : Half) : d ≠ d ^^^ 0xFFFF := fun heq => absurd ((BitVec.xor_right_inj d).mp (BitVec.xor_zero.trans heq)) (by decide)
    exact beq_eq_false_iff_ne.mpr (inverted _)

/-- The data CRC test of a data frame (R179). -/
theorem TrackHas.dataFrame_crc {payload : List Byte} {corrupt : Bool} (h : TrackHas t data)
    (hf : FieldAt data p (dataFrame payload corrupt)) :
    (crc16 (t.rdSeq p (4 + payload.length)) == t.rdBe16 ((p : Int) + 4 + payload.length)) = !corrupt := by
  have hlen : (dataMark Config.typeData ++ payload).length = 4 + payload.length := by simp
  have covered : t.rdSeq p (4 + payload.length) = dataMark Config.typeData ++ payload :=
    hlen ▸ h.rdSeq (hf.trans ((FieldAt.refl (dataMark Config.typeData ++ payload)).append _))
  have crc : t.rdBe16 ((p + (4 + payload.length) : Nat) : Int) = dataCrc payload corrupt :=
    h.rdBe16 (hf.trans (FieldAt.last _ _ hlen))
  rw [covered, show (p : Int) + 4 + payload.length = ((p + (4 + payload.length) : Nat) : Int) by omega, crc, dataCrc_good]

/-- No data mark starts in a field that holds no 0xA1, such as a gap or a sync. -/
theorem TrackHas.no_dataMark (h : TrackHas t data) (hf : FieldAt data p f) (clean : ∀ b ∈ f, b ≠ Config.markA1) (strict : Bool) {d : Nat}
    (hd : d < f.length) : t.dataMarkAt strict ((p : Int) + d) = false := by
  have hne : (t.rd ((p : Int) + d) == Config.markA1) = false := by
    rw [h.rd hf hd]
    exact beq_eq_false_iff_ne.mpr (clean _ (List.getElem_mem hd))
  rw [State.dataMarkAt, hne]
  rfl
end

/-- What fills the space between an ID frame and its data frame (R95): no byte of it is 0xA1. -/
theorem gap_sync_clean (n : Nat) : ∀ b ∈ gapRun n ++ syncRun, b ≠ Config.markA1 := by
  intro b hb
  rcases List.mem_append.mp hb with hb | hb
  · rw [List.eq_of_mem_replicate hb]
    decide
  · rw [List.eq_of_mem_replicate hb]
    decide

/-! ## ScanEntry, once its address is good -/

/-- Steps 1 to 4 of ScanEntry pass on a double-density pointer into the track to an ID frame with a good CRC (R173 to R177). -/
theorem scanEntry_of_goodAddress {k : Nat} {strict : Bool} {a : Int} (nonzero : t.pt k ≠ 0) (double : densityOf (t.pt k) = 0b10#2)
    (low : 128 ≤ dmkIdxOf (t.pt k)) (high : dmkIdxOf (t.pt k) < t.trklen.toNat) (ha : addrIdxOf (t.pt k) = a)
    (mark : t.rdSeq a 4 = idMark) (crc : crc16 (t.rdSeq a 8) = t.rdBe16 (a + 8)) :
    t.scanEntry k strict = t.scanDataMark strict (t.pt k) (t.idFieldsAt a) a := by
  rw [State.scanEntry, if_neg nonzero, if_neg (not_not.mpr double), if_neg (not_or.mpr ⟨low.not_gt, high.not_ge⟩), ha, State.scanAddress,
    if_neg (not_not.mpr mark), if_neg (not_not.mpr crc)]

/-- Step 5 with no data mark among the 43 positions (R178). -/
theorem scanDataMark_none {strict : Bool} {e : Half} {id : IdFields} {a : Int} (h : t.findDataMark strict (a + 10) 43 = none) :
    t.scanDataMark strict e id a = .noDataMark e id a := by
  have search : t.findDataMark strict (a + Config.idFrameBytes) Config.dmSearch = none := h
  rw [State.scanDataMark, search]

/-- Steps 5 and 6 with the first data mark at `j` (R178, R179). -/
theorem scanDataMark_some {strict : Bool} {e : Half} {id : IdFields} {a j : Int} (h : t.findDataMark strict (a + 10) 43 = some j) :
    t.scanDataMark strict e id a =
      .record e id a j (t.rd (j + 3)) (crc16 (t.rdSeq j (4 + sectorSize id.n)) == t.rdBe16 (j + 4 + sectorSize id.n)) := by
  have search : t.findDataMark strict (a + Config.idFrameBytes) Config.dmSearch = some j := h
  rw [State.scanDataMark, search]
  rfl

/-- A zero entry ends the table (R173). -/
theorem scanEntry_zero {k : Nat} (hk : t.pt k = 0) (strict : Bool) : t.scanEntry k strict = .endOfTable := if_pos hk

end Sys2Proof.Machine
end

section
/-! Proofs of the statements about scanning an encoded track (42_encoder.md): the pointer table leads the scan to each ID frame (R157), and GAP2 decides
whether the data mark is among the 43 positions searched from there (R159). -/

namespace Sys2Proof.Machine

variable {s t : State} {k : Nat}

/-! ## The sector blocks (R91) -/

/-- The data region is as long as the synthesizer's data: the checks of R152 say so. -/
theorem trackData_length_eq (he : encodable s) : s.trackData.length = s.dataLen := by
  obtain ⟨low, high, _, hgap, hsum⟩ := he
  have hL := State.dataLen_bounds (State.validLen_iff.mpr ⟨low, high⟩)
  rw [trackData_length]
  omega

/-- Each byte of a sector block lies in the data region. -/
theorem blockAt_lt (he : encodable s) (hk : k < s.enc.spt.toNat) {i : Nat} (hi : i < s.encBlockLen) : s.blockAt k + i < s.dataLen :=
  trackData_length_eq he ▸ (trackData_block hk).bound (sectorBlock_length s k ▸ hi)

/-! ## The pointer table (R157) -/

/-- Entry `k` of the table is the pointer of sector `k`, low byte first. -/
theorem pointerTable_entry (hk : k < 64) : FieldAt s.pointerTable (2 * k) (le16Bytes (s.encPointer k)) := by
  intro i hi
  rw [Nat.mul_comm, State.pointerTable]
  exact flatMap_getElem?_const (c := 2) (fun _ => rfl) hk hi

/-- Past the last sector the entries are 0. -/
theorem encPointer_beyond (hk : s.enc.spt.toNat ≤ k) : s.encPointer k = 0 := if_neg (Nat.not_lt.mpr hk)

/-- Bit 15 marks a sector's pointer as double density; the address below it fits in 14 bits (R63, R96). -/
theorem encPointer_toNat (he : encodable s) (hk : k < s.enc.spt.toNat) :
    (s.encPointer k).toNat = 0x8000 + (128 + s.blockAt k + 15) ∧ 128 + s.blockAt k + 15 < s.trklen.toNat := by
  have inside : s.blockAt k + 15 < s.dataLen := blockAt_lt he hk (by rw [State.encBlockLen]; omega)
  obtain ⟨low, high, _⟩ := he
  have hL := State.dataLen_bounds (State.validLen_iff.mpr ⟨low, high⟩)
  have fits : 128 + (s.blockAt k + 15) < 2 ^ 15 := by omega
  have pointer : s.encPointer k = BitVec.ofNat 16 (128 + (s.blockAt k + 15)) ||| 0x8000#16 := if_pos hk
  refine ⟨?_, by omega⟩
  rw [pointer, BitVec.toNat_or, BitVec.toNat_ofNat, Nat.mod_eq_of_lt (by omega), Nat.or_comm]
  exact (Nat.two_pow_add_eq_or_of_lt fits 1).symm.trans (by omega)

/-- What the scanner takes from a sector's pointer: density 10 and the address of its 0xFE byte (R63, R97). -/
theorem encPointer_fields (he : encodable s) (hk : k < s.enc.spt.toNat) :
    densityOf (s.encPointer k) = 0b10#2 ∧ dmkIdxOf (s.encPointer k) = 128 + s.blockAt k + 15 := by
  obtain ⟨value, inside⟩ := encPointer_toNat he hk
  obtain ⟨_, high, _⟩ := he
  rw [densityOf_eq, dmkIdxOf_eq, value]
  omega

section
variable (running : s.running) (he : encodable s) (hx : exec .encTrack s = .next t)

include running he hx

/-! ## The track in TB -/

/-- The state after ENC.TRACK on registers it accepts. -/
theorem encTrack_state : t = State.answered { s with tb := s.tb.write 0 s.encodedTrack } (BitVec.ofNat 32 s.encGap4b.toNat) :=
  State.answer_next.mp ((exec_encTrack_encodable running he).symm.trans hx)

theorem encTrack_trklen : t.trklen = s.trklen := by
  rw [encTrack_state running he hx, State.answered_trklen]

theorem encTrack_dataLen : t.dataLen = s.dataLen := by
  unfold State.dataLen
  rw [encTrack_trklen running he hx]

/-- The data region ENC.TRACK leaves is `trackData`, and it fills the circle. -/
theorem encTrack_trackHas : TrackHas t s.trackData where
  length := (trackData_length_eq he).trans (encTrack_dataLen running he hx).symm
  bytes := encTrack_field running he hx (FieldAt.refl _)

/-- ENC.TRACK writes the pointers of R157. -/
theorem encTrack_pt (hk : k < 64) : t.pt k = s.encPointer k := by
  have entry : FieldAt s.encodedTrack (2 * k) (le16Bytes (s.encPointer k)) := (pointerTable_entry hk).append _
  have read (i : Nat) (hi : i < 2) : t.tbByte (2 * k + i) = (le16Bytes (s.encPointer k))[i] := by
    rw [encTrack_state running he hx, State.answered_tbByte, tbByte_write_zero, dif_pos (entry.bound hi), entry.getElem hi]
  have low : t.tbByte (2 * k) = lo (s.encPointer k) := read 0 Nat.zero_lt_two
  have high : t.tbByte (2 * k + 1) = hi (s.encPointer k) := read 1 Nat.one_lt_two
  rw [State.pt, low, high, hi_append_lo]

/-! ## The scan of a sector (R159) -/

/-- The scan of an encoded sector gets to the search for its data mark, with the fields of its ID frame. -/
theorem encTrack_scanEntry (hk : k < s.enc.spt.toNat) (strict : Bool) :
    t.scanEntry k strict =
      t.scanDataMark strict (t.pt k) ⟨s.enc.idc, s.enc.idh, s.enc.rtab.getD k 0, s.enc.sizecode⟩ (s.blockAt k + 12 : Nat) := by
  have ⟨_, _, hspt, _⟩ := he
  have entry : t.pt k = s.encPointer k := encTrack_pt running he hx (hk.trans_le hspt)
  obtain ⟨value, inside⟩ := encPointer_toNat he hk
  obtain ⟨density, index⟩ := encPointer_fields he hk
  have nonzero : s.encPointer k ≠ 0 := fun h0 => by simp [h0] at value
  obtain ⟨_, frame, _⟩ := sectorBlock_fields s k
  obtain ⟨mark, crc, fields⟩ := (encTrack_trackHas running he hx).idFrame_passes ((trackData_block hk).trans frame)
  rw [← entry] at nonzero density index
  rw [scanEntry_of_goodAddress (a := (s.blockAt k + 12 : Nat)) nonzero density (by omega)
    (by rwa [index, encTrack_trklen running he hx]) (by rw [addrIdxOf, index]; omega) mark crc, fields]
  rfl

/-- From the end of the ID frame on, no data mark starts before the data frame does. -/
theorem encTrack_no_dataMark (hk : k < s.enc.spt.toNat) (strict : Bool) {d : Nat} (hd : d < s.enc.gap2.toNat + 12) :
    t.dataMarkAt strict (((s.blockAt k + 12 : Nat) : Int) + 10 + d) = false := by
  have space : FieldAt (s.sectorBlock k) 22 (gapRun s.enc.gap2.toNat ++ syncRun) := by
    rw [State.sectorBlock, List.append_assoc _ (gapRun _) syncRun]
    exact ((FieldAt.last _ _ (by simp)).append _).append _
  exact (encTrack_trackHas running he hx).no_dataMark ((trackData_block hk).trans space) (gap_sync_clean _) strict (by simpa using hd)

/-- A sector whose gap2 leaves the data mark among the 43 positions is a RECORD (R159 a). -/
theorem encTrack_scanEntry_record (narrow : s.enc.gap2.toNat ≤ 30) (hk : k < s.enc.spt.toNat) (strict : Bool) :
    t.scanEntry k strict =
      .record (t.pt k) ⟨s.enc.idc, s.enc.idh, s.enc.rtab.getD k 0, s.enc.sizecode⟩
        (s.blockAt k + 12 : Nat) (s.blockAt k + 34 + s.enc.gap2.toNat : Nat) 0xFB (!s.corrupts k) := by
  have track := encTrack_trackHas running he hx
  obtain ⟨_, _, _, _, hdata, _⟩ := sectorBlock_fields s k
  have frame := (trackData_block hk).trans hdata
  rw [← Nat.add_assoc] at frame
  obtain ⟨type, mark⟩ := track.dataFrame_mark frame strict
  have crc := track.dataFrame_crc frame
  rw [payload_length] at crc
  have place : ((s.blockAt k + 34 + s.enc.gap2.toNat : Nat) : Int) =
      ((s.blockAt k + 12 : Nat) : Int) + 10 + (s.enc.gap2.toNat + 12 : Nat) := by omega
  have found : t.findDataMark strict (((s.blockAt k + 12 : Nat) : Int) + 10) 43 =
      some ((s.blockAt k + 34 + s.enc.gap2.toNat : Nat) : Int) := by
    rw [place] at mark ⊢
    exact findDataMark_first (by omega) mark fun d hd => encTrack_no_dataMark running he hx hk strict hd
  rw [encTrack_scanEntry running he hx hk, scanDataMark_some found, type]
  exact congrArg _ crc

end

/-! ## The statements -/

/-- Settles O34: the table holds `encPointer`, and the four bytes up to the one it addresses are the mark of ID frame `k`. -/
theorem encodedPointersAddressIdMarks : Obligations.EncodedPointersAddressIdMarks := by
  intro s t running he hx k hk e
  have entry : e = s.encPointer k := encTrack_pt running he hx hk
  refine ⟨fun below => ?_, fun beyond => entry.trans (encPointer_beyond beyond)⟩
  obtain ⟨value, _⟩ := encPointer_toNat he below
  obtain ⟨density, index⟩ := encPointer_fields he below
  obtain ⟨_, frame, _⟩ := sectorBlock_fields s k
  have mark : FieldAt s.trackData (s.blockAt k + 12) idMark :=
    (trackData_block below).trans (frame.trans (((FieldAt.refl _).append _).append _))
  have read (i : Nat) (hi : i < 4) {a : Nat} (ha : a = 128 + (s.blockAt k + 12) + i) : t.tbByte a = idMark[i] :=
    ha ▸ encTrack_field running he hx mark i hi
  rw [entry, index]
  exact ⟨value, density, read 3 (by decide) (by omega), read 0 (by decide) (by omega), read 1 (by decide) (by omega),
    read 2 (by decide) (by omega)⟩

/-- Settles O35: below SPT the frames scan back, and from SPT on the entries are 0. -/
theorem encodeThenScanRoundTrip : Obligations.EncodeThenScanRoundTrip := by
  intro s t strict running he narrow hx
  refine ⟨fun k hk => encTrack_scanEntry_record running he hx narrow hk strict, fun k beyond hk => scanEntry_zero ?_ strict⟩
  rw [encTrack_pt running he hx hk, encPointer_beyond beyond]

/-- Settles O36: the 43 positions of the search all lie in gap2 and the sync after it. -/
theorem wideGap2HidesDataMarks : Obligations.WideGap2HidesDataMarks := by
  intro s t strict k running he wide hx hk
  rw [encTrack_scanEntry running he hx hk, scanDataMark_none]
  exact findDataMark_none.mpr fun d hd => encTrack_no_dataMark running he hx hk strict (by omega)

end Sys2Proof.Machine
end

section
/-! Proofs of the statements about the scanner (43_scanner.md): what each step of ScanEntry reads and decides (R173 to R179), the extent of a RECORD
(R183, R185), and what SCAN.START and SCAN.NEXT write (R171, R172, R181, R182). -/

namespace Sys2Proof.Machine

variable {s : State}

/-! ## The tests of ScanEntry, byte by byte -/

/-- The mark of an ID frame, compared byte by byte (R176). -/
theorem rdSeq_eq_idMark_iff {a : Int} :
    s.rdSeq a 4 = idMark ↔
      s.rd (a + (0 : Nat)) = 0xA1 ∧ s.rd (a + (1 : Nat)) = 0xA1 ∧ s.rd (a + (2 : Nat)) = 0xA1 ∧ s.rd (a + (3 : Nat)) = 0xFE := by
  have bytes : s.rdSeq a 4 = [s.rd (a + (0 : Nat)), s.rd (a + (1 : Nat)), s.rd (a + (2 : Nat)), s.rd (a + (3 : Nat))] := rfl
  rw [bytes, idMark]
  simp only [List.cons.injEq, and_true]

/-- Where a data mark starts, and which type bytes a mode accepts (R178, R182). -/
theorem dataMarkAt_iff {strict : Bool} {q : Int} :
    s.dataMarkAt strict q = true ↔ s.rd q = 0xA1 ∧ s.rd (q + 1) = 0xA1 ∧ s.rd (q + 2) = 0xA1 ∧
      (strict = true → s.rd (q + 3) = 0xFB ∨ s.rd (q + 3) = 0xF8) := by
  have type : typeOk strict (s.rd (q + 3)) = true ↔ (strict = true → s.rd (q + 3) = 0xFB ∨ s.rd (q + 3) = 0xF8) := by
    cases strict <;> simp [typeOk]
  simp only [State.dataMarkAt, Bool.and_eq_true, beq_iff_eq, type, and_assoc]

/-- The big-endian field at `p`, by its two bytes (R66). -/
theorem rdBe16_eq {p q : Int} (hq : q = p + 1) : s.rdBe16 p = s.rd p ++ s.rd q := hq ▸ rfl

/-! ## ScanEntry, step by step -/

section
variable {k : Nat} {strict : Bool} {a : Int}

/-- Step 1 (R174). -/
theorem scanEntry_singleDensity (nonzero : s.pt k ≠ 0) (other : densityOf (s.pt k) ≠ 0b10#2) :
    s.scanEntry k strict = .singleDensity (s.pt k) := by
  rw [State.scanEntry, if_neg nonzero, if_pos other]

/-- Step 2 (R175). -/
theorem scanEntry_badPointer (nonzero : s.pt k ≠ 0) (double : densityOf (s.pt k) = 0b10#2)
    (outside : dmkIdxOf (s.pt k) < 128 ∨ s.trklen.toNat ≤ dmkIdxOf (s.pt k)) : s.scanEntry k strict = .badPointer (s.pt k) := by
  rw [State.scanEntry, if_neg nonzero, if_neg (not_not.mpr double), if_pos outside]

/-- Steps 1 and 2 pass on a double-density pointer into the track (R173 to R175). -/
theorem scanEntry_of_goodPointer (nonzero : s.pt k ≠ 0) (double : densityOf (s.pt k) = 0b10#2) (low : 128 ≤ dmkIdxOf (s.pt k))
    (high : dmkIdxOf (s.pt k) < s.trklen.toNat) : s.scanEntry k strict = s.scanAddress strict (s.pt k) (addrIdxOf (s.pt k)) := by
  rw [State.scanEntry, if_neg nonzero, if_neg (not_not.mpr double), if_neg (not_or.mpr ⟨low.not_gt, high.not_ge⟩)]

/-- Step 3 (R176). -/
theorem scanAddress_notAddrMark {e : Half} (mark : s.rdSeq a 4 ≠ idMark) : s.scanAddress strict e a = .notAddrMark e a := if_pos mark

/-- Step 4 (R177). -/
theorem scanAddress_addrCrcBad {e : Half} (mark : s.rdSeq a 4 = idMark) (crc : crc16 (s.rdSeq a 8) ≠ s.rdBe16 (a + 8)) :
    s.scanAddress strict e a = .addrCrcBad e (s.idFieldsAt a) a := by
  rw [State.scanAddress, if_neg (not_not.mpr mark), if_pos crc]

end

/-- Settles O41: each clause is the step of ScanEntry that returns, its test read byte by byte. -/
theorem scanEntryTriesStepsInOrder : Obligations.ScanEntryTriesStepsInOrder := by
  intro s k strict e dmkIdx a byte id isMark crcOk dataMark inRange
  have index : dmkIdxOf e = dmkIdx := dmkIdxOf_eq e
  have start : addrIdxOf e = a := by rw [addrIdxOf, index]; omega
  have nonzero (double : e.toNat / 0x4000 = 2) : e ≠ 0 := fun h0 => absurd (h0 ▸ double) (by decide)
  have density : densityOf e = 0b10#2 ↔ e.toNat / 0x4000 = 2 := densityOf_eq e
  have mark : s.rdSeq a 4 = idMark ↔ isMark := rdSeq_eq_idMark_iff
  have crc : crc16 (s.rdSeq a 8) = s.rdBe16 (a + 8) ↔ crcOk := by
    rw [rdBe16_eq (q := a + 9) (by omega)]
    exact Iff.rfl
  have pointer (double : e.toNat / 0x4000 = 2) (inside : inRange) : s.scanEntry k strict = s.scanAddress strict e a :=
    start ▸ scanEntry_of_goodPointer (nonzero double) (density.mpr double) (index ▸ inside.1) (index ▸ inside.2)
  have address (double : e.toNat / 0x4000 = 2) (inside : inRange) (hmark : isMark) (hcrc : crcOk) :
      s.scanEntry k strict = s.scanDataMark strict e id a :=
    scanEntry_of_goodAddress (nonzero double) (density.mpr double) (index ▸ inside.1) (index ▸ inside.2) start (mark.mpr hmark)
      (crc.mpr hcrc)
  have noMark {q : Int} (h : ¬ dataMark q) : s.dataMarkAt strict q = false := Bool.eq_false_iff.mpr (mt dataMarkAt_iff.mp h)
  refine ⟨fun zero => scanEntry_zero zero strict, fun h0 other => scanEntry_singleDensity h0 (mt density.mp other), fun double outside => ?_,
    fun double inside hmark => ?_, fun double inside hmark hcrc => ?_, fun double inside hmark hcrc absent => ?_,
    fun double inside hmark hcrc d hd found first => ?_⟩
  · have bounds : dmkIdxOf e < 128 ∨ s.trklen.toNat ≤ dmkIdxOf e := by omega
    exact scanEntry_badPointer (nonzero double) (density.mpr double) bounds
  · rw [pointer double inside, scanAddress_notAddrMark (mt mark.mp hmark)]
  · rw [pointer double inside, scanAddress_addrCrcBad (mark.mpr hmark) (mt crc.mp hcrc)]
    rfl
  · rw [address double inside hmark hcrc, scanDataMark_none (findDataMark_none.mpr fun d hd => noMark (absent d hd))]
  · intro j size
    have position : s.findDataMark strict (a + 10) 43 = some j :=
      findDataMark_first hd (dataMarkAt_iff.mpr found) fun d' hd' => noMark (first d' hd')
    have code : sectorSize id.n = size := sectorSize_eq id.n
    rw [address double inside hmark hcrc, scanDataMark_some position, code, rdBe16_eq (q := j + 5 + size) (by omega)]
    rfl

/-- Settles O42: the data mark is one of the 43 positions after the ID frame of 10 bytes, and the size is at most 16384. -/
theorem recordExtentBounds : Obligations.RecordExtentBounds := by
  intro s k strict e id a j t ok hlen hrec size
  obtain ⟨_, _, _, low, high, start, _, _, _, found, _, _⟩ := scanEntry_record hrec
  obtain ⟨d, hd, hj, _, _⟩ := findDataMark_some found
  have hsize : (sectorSize id.n : Int) = size := by rw [sectorSize_eq]; push_cast; rfl
  have bound := sectorSize_bounds id.n
  refine ⟨⟨a, j + 4 + size + 2⟩, by rw [hrec, ← hsize]; rfl, rfl, rfl, ?_⟩
  rw [addrIdxOf] at start
  dsimp only
  omega

/-! ## SCAN.START and SCAN.NEXT -/

/-- Settles O37: the halt test is the only check of SCAN.START. -/
theorem scanStartClearsScan : Obligations.ScanStartClearsScan := by
  refine ⟨decodeOfEncodeIsTheCommand .scanStart rfl, fun s running => ?_⟩
  rw [exec_scanStart, execScanStart, State.whenRunning_running running]
  rfl

/-- SCAN.NEXT reports what it finds, unless that is fatal in strict mode (R172, R181). -/
theorem exec_scanNext_reports (running : s.running) (low : 128 < s.trklen.toNat) (high : s.trklen.toNat < 0x4000)
    {res : ScanResult} (here : s.scanHere = res) (harmless : ¬ (s.strict = true ∧ res.fatal = true)) :
    exec .scanNext s = .next ((s.scanned res).answered (res.kind.setWidth 32)) := by
  subst here
  rw [exec_scanNext, execScanNext, whenRunning_whenValidLen_good running low high, if_neg harmless, State.answer]

/-- A fatal diagnostic in strict mode is a fault that names the slot (R182). -/
theorem exec_scanNext_fault (running : s.running) (low : 128 < s.trklen.toNat) (high : s.trklen.toNat < 0x4000)
    {res : ScanResult} (here : s.scanHere = res) (strict : s.strict = true) (fatal : res.fatal = true) :
    exec .scanNext s = .next (s.takeFault .malformed (malformedInfo s.slot.toNat res)) := by
  subst here
  rw [exec_scanNext, execScanNext, whenRunning_whenValidLen_good running low high, if_pos ⟨strict, fatal⟩, State.raise]

/-- While a scan is in progress, SCAN.NEXT looks at entry SLOT (R172). -/
theorem scanHere_entry (scanning : s.scandone = false) (hslot : s.slot.toNat < 64) : s.scanHere = s.scanEntry s.slot.toNat s.strict := by
  refine if_neg (not_or.mpr ⟨by simp [scanning], fun h64 => ?_⟩)
  rw [h64] at hslot
  exact absurd hslot (by decide)

/-- The three ways to END (R172, R173). -/
theorem scanHere_end (h : s.scandone = true ∨ s.slot = 64 ∨ s.pt s.slot.toNat = 0) : s.scanHere = .endOfTable := by
  rcases h with done | last | zero
  · exact if_pos (.inl done)
  · exact if_pos (.inr last)
  · rw [State.scanHere, scanEntry_zero zero, ite_self]

/-- Settles O38: END is what SCAN.NEXT finds in all three cases, and END is never fatal. -/
theorem scanNextReportsEnd : Obligations.ScanNextReportsEnd := by
  intro s running low high ended
  have here : s.scanHere = .endOfTable := scanHere_end (ended.imp_right (Or.imp_right fun ⟨hlo, hhi⟩ => by rw [State.pt, hlo, hhi]; rfl))
  exact exec_scanNext_reports running low high here (by simp [ScanResult.fatal])

/-- The length of the data region as an integer, the modulus of circular indices (R61, R64). -/
theorem dataLen_cast (low : 128 < s.trklen.toNat) : (s.dataLen : Int) = (s.trklen.toNat : Int) - 128 := by
  have length : s.dataLen = s.trklen.toNat - 128 := rfl
  omega

/-- A data-region offset as ADDROFF and DATAOFF hold it (R33, R64). -/
theorem ofNat_wrap (low : 128 < s.trklen.toNat) (i : Int) :
    BitVec.ofNat 14 (s.wrap i) = BitVec.ofInt 14 (i % ((s.trklen.toNat : Int) - 128)) := by
  have reduced : ((s.wrap i : Nat) : Int) = i % ((s.trklen.toNat : Int) - 128) := by
    rw [State.wrap, dataLen_cast low, Int.toNat_of_nonneg (Int.emod_nonneg _ (by omega))]
  rw [← reduced, BitVec.ofInt_natCast]

/-- REC_FLAGS of a RECORD as a sum of its fields (R34). -/
theorem recFlags_record (ok : Bool) (t : Byte) :
    recFlags true ok (typeClass t) = BitVec.ofNat 4 (1 + (if ok then 2 else 0) + 4 * (if t = 0xFB then 0 else if t = 0xF8 then 1 else 2)) := by
  unfold typeClass
  cases ok <;> simp only [if_true, Bool.false_eq_true, if_false] <;> split_ifs <;> rfl

/-- Settles O39: what is found is the entry's result, and each kind's registers are those R181 lists. -/
theorem scanNextReportsEntry : Obligations.ScanNextReportsEntry := by
  intro s res running low high scanning hslot hres entry harmless off size
  have hoff (i : Int) : BitVec.ofNat 14 (s.wrap i) = off i := ofNat_wrap low i
  have hsize (n : Byte) : BitVec.ofNat 16 (sectorSize n) = size n := congrArg _ (sectorSize_eq n)
  have here : s.scanHere = res := (scanHere_entry scanning hslot).trans hres.symm
  refine ⟨s.resultRegs s.slot res, ?_, resultRegs_rkind .., resultRegs_rslot .., ?_⟩
  · rw [exec_scanNext_reports running low high here harmless, scanned_entry entry]
    rfl
  cases res with
  | endOfTable => exact entry rfl
  | singleDensity e => rfl
  | badPointer e => rfl
  | notAddrMark e a => simp only [State.resultRegs, hoff]; rfl
  | addrCrcBad e id a => simp only [State.resultRegs, hoff, hsize]; rfl
  | noDataMark e id a => simp only [State.resultRegs, hoff, hsize]; rfl
  | record e id a j t ok => simp only [State.resultRegs, hoff, hsize, recFlags_record]; rfl

/-- Settles O40: the four kinds are the fatal ones, and the fault comes before any write. -/
theorem strictScanFaultsOnDiagnostic : Obligations.StrictScanFaultsOnDiagnostic := by
  intro s res running low high scanning hslot strict hres diagnostic
  have mode : s.strict = true := strict
  have here : s.scanHere = res := by rw [scanHere_entry scanning hslot, mode, hres]
  exact exec_scanNext_fault running low high here mode (fatal_iff.mpr diagnostic)

end Sys2Proof.Machine
end

section
/-! Proofs of the statements about one ADJ.STEP that rest on the strict scan (43_scanner.md R184, 45_adjuster.md): which faults its plan raises (R206,
R207), and what a pass leaves in the registers and in TB (R206 to R211). -/

namespace Sys2Proof.Machine

variable {s : State}

/-! ## The plan of a pass -/

/-- Below the first END, the strict scan faults at the first fatal slot (R182, R184). -/
theorem scanTrack_malformed {k : Nat} (hk : k < 64) (before : ∀ k' < k, s.scanEntry k' true ≠ .endOfTable)
    (harmless : ∀ k' < k, (s.scanEntry k' true).fatal = false) (fatal : (s.scanEntry k true).fatal = true) :
    s.scanTrack true = .error ⟨.malformed, malformedInfo k (s.scanEntry k true)⟩ := by
  cases hscan : s.scanTrack true with
  | ok recs =>
    obtain ⟨_, entries, hend⟩ := scanTrack_iff.mp hscan
    rcases Nat.lt_trichotomy k recs.length with inside | rfl | beyond
    · rw [(entries k inside).2.2] at fatal
      cases fatal
    · rw [hend hk] at fatal
      cases fatal
    · exact absurd (hend (by omega)) (before _ beyond)
  | error f =>
    obtain ⟨_, i, _, hf, hfatal, hbefore⟩ := scanTrackFrom_error hscan
    simp only [Nat.zero_add] at hf hfatal hbefore
    rcases Nat.lt_trichotomy i k with earlier | rfl | later
    · rw [harmless i earlier] at hfatal
      cases hfatal
    · rw [hf]
    · rw [(hbefore k later).2] at fatal
      cases fatal

/-- The first RECORD as long as the track is the one the extents fault at (R206). -/
theorem extentsOf_first_long {len k : Nat} {pre post : List (Nat × ScanResult)} {res : ScanResult} {x : Interval}
    (hx : res.extent? = some x) (long : (len : Int) ≤ x.stop - x.start)
    (short : ∀ p ∈ pre, ∀ y, p.2.extent? = some y → y.stop - y.start < (len : Int)) :
    extentsOf len (pre ++ (k, res) :: post) = .error ⟨.noGap, k⟩ := by
  induction pre with
  | nil => simp only [List.nil_append, extentsOf, hx, if_pos long]
  | cons p pre ih =>
    obtain ⟨hp, hpre⟩ := List.forall_mem_cons.mp short
    rw [List.cons_append, extentsOf, ih hpre]
    cases hy : p.2.extent? with
    | none => rfl
    | some y => exact if_neg (not_le.mpr (hp y hy))

section
variable {recs : List (Nat × ScanResult)} {ivs : List Interval} (hlist : strictScanLists s recs)
  (hivs : ivs = recs.filterMap fun p => p.2.extent?) (short : ∀ x ∈ ivs, x.stop - x.start < (s.dataLen : Int))
include hlist hivs short

/-- The plan fails at the search when the extents leave no index free (R207). -/
theorem adjPlan_noGap (search : findLargestGap s.dataLen ivs = none) : s.adjPlan = .error ⟨.noGap, 0x00FF⟩ := by
  subst hivs
  rw [State.adjPlan, scanTrack_iff.mpr hlist]
  simp only [extentsOf_eq short, search]

/-- The plan is the extents of what the scan lists and the largest gap between them (R206, R207). -/
theorem adjPlan_found {mid size : Nat} (search : findLargestGap s.dataLen ivs = some (mid, size)) : s.adjPlan = .ok ⟨ivs, mid, size⟩ := by
  subst hivs
  rw [State.adjPlan, scanTrack_iff.mpr hlist]
  simp only [extentsOf_eq short, search]

end

/-! ## ADJ.STEP, by its plan -/

/-- An adjustable state passes the checks of ADJ.STEP and ADJ.RUN (R211, R212, R215). -/
theorem whenTarget_adjustable (ready : adjustable s) (k : Unit → Result) : s.whenTarget k = k () := by
  obtain ⟨running, low, high, least, most, _⟩ := ready
  rw [State.whenTarget, whenRunning_whenValidLen_good running low high, if_neg (by omega)]

theorem adjustable_apart (ready : adjustable s) : s.dataLen ≠ s.target.toNat := by
  obtain ⟨_, _, _, _, _, apart⟩ := ready
  exact apart

theorem adjustable_validLen (ready : adjustable s) : s.validLen = true := by
  obtain ⟨_, low, high, _⟩ := ready
  exact State.validLen_iff.mpr ⟨low, high⟩

theorem adjustable_dataLen (ready : adjustable s) : (s.dataLen : Int) = (s.trklen.toNat : Int) - 128 := by
  obtain ⟨_, low, _⟩ := ready
  exact dataLen_cast low

/-- A plan that fails is a fault before the first write (R206, R207). -/
theorem exec_adjStep_fault (ready : adjustable s) {f : Raised} (plan : s.adjPlan = .error f) :
    exec .adjStep s = .next (s.takeFault f.code f.info) := by
  rw [exec_adjStep, execAdjStep, whenTarget_adjustable ready, if_neg (adjustable_apart ready), adjPass_error.mpr plan]
  rfl

/-- A plan made is applied, and the answer is 1 (R211). -/
theorem exec_adjStep_ok (ready : adjustable s) {p : AdjPlan} (plan : s.adjPlan = .ok p) :
    exec .adjStep s = .next ((s.adjApply p).answered 1) := by
  have pass : s.adjPass = .ok (s.adjApply p) := by rw [State.adjPass, plan]
  rw [exec_adjStep, execAdjStep, whenTarget_adjustable ready, if_neg (adjustable_apart ready), pass]
  rfl

/-- Settles O49: the scan, the extents and the search for a gap, each by the fault it raises. -/
theorem adjStepFaults : Obligations.AdjStepFaults := by
  intro s ready raised before
  rw [← adjustable_dataLen ready]
  refine ⟨fun k hk hbefore harmless fatal => ?_, fun recs hlist => ⟨fun pre k res post x hrecs hx long short => ?_,
    fun ivs hivs short search => exec_adjStep_fault ready (adjPlan_noGap hlist hivs short search)⟩⟩
  · have plan : s.adjPlan = .error ⟨.malformed, malformedInfo k (s.scanEntry k true)⟩ := by
      rw [State.adjPlan, scanTrack_malformed hk hbefore harmless fatal]
    exact exec_adjStep_fault ready plan
  · have plan : s.adjPlan = .error ⟨.noGap, k⟩ := by
      rw [State.adjPlan, scanTrack_iff.mpr hlist, hrecs]
      simp only [extentsOf_first_long hx long short]
    exact exec_adjStep_fault ready plan

/-- Settles O50: the pass applies its plan; the registers are those of `adjApply_eq`, the bytes those of `adjApply_tbByte`. -/
theorem adjStepMovesOneByte : Obligations.AdjStepMovesOneByte := by
  intro s recs ivs gapMid gapSize ready hlist hivs short found mid grow
  rw [← adjustable_dataLen ready] at short
  have plan : s.adjPlan = .ok ⟨ivs, gapMid, gapSize⟩ := adjPlan_found hlist hivs short found
  obtain ⟨_, inside, _⟩ := adjPlan_mid (adjustable_validLen ready) plan
  have direction : grow = true ↔ s.dataLen < s.target.toNat := decide_eq_true_iff
  refine ⟨(s.adjApply ⟨ivs, gapMid, gapSize⟩).tb, _, exec_adjStep_ok ready plan, ?_, fun a ha => ?_⟩
  · simp only [direction]
    exact congrArg (State.answered · 1) (adjApply_eq s _)
  · simp only [direction]
    exact adjApply_tbByte s _ inside ha

end Sys2Proof.Machine
end

section
/-! Proofs of the statements about the gap locator (44_gapfinder.md), and the statement about the adjuster that rests on them (45_adjuster.md R207):
the sub-intervals the search works on cover what R191 says, so an index of its runs is a free one and the runs it compares are all there are. -/

namespace Sys2Proof.Machine

variable {s t : State} {len mid size : Nat} {ivs : List Interval}

/-! ## Free indices (R191, R192) -/

/-- The sub-intervals leave an index free when no in-use interval contains it (R191, R192). -/
theorem freeIn_iff_freeAt {x : Nat} (inside : x < len) : freeIn (subIntervals len ivs) x = true ↔ freeAt len ivs x := by
  rw [freeIn_subIntervals]
  exact forall₂_congr fun i _ => not_congr (parts_cover i inside)

/-- A step of less than one turn ahead on the circle either stays on this turn or lands on the next. -/
theorem emod_ahead {a d n : Int} (forward : 0 ≤ d) (short : d < n) :
    (a % n + d < n ∧ (a + d) % n = a % n + d) ∨ (n ≤ a % n + d ∧ (a + d) % n = a % n + d - n) := by
  have low : 0 ≤ a % n := Int.emod_nonneg a (by omega)
  have high : a % n < n := Int.emod_lt_of_pos a (by omega)
  rw [← Int.emod_add_emod]
  rcases lt_or_ge (a % n + d) n with same | next
  · exact .inl ⟨same, Int.emod_eq_of_lt (by omega) same⟩
  · refine .inr ⟨next, ?_⟩
    rw [← Int.sub_emod_right]
    exact Int.emod_eq_of_lt (by omega) (by omega)

/-- An interval shorter than the circle keeps the integers it holds when its ends are reduced (R191), also where it wraps. -/
theorem inUseAt_of_holds {i : Interval} {q : Int} {x : Nat} (short : i.stop - i.start < (len : Int)) (low : i.start ≤ q)
    (high : q < i.stop) (reduced : q % (len : Int) = x) : inUseAt len i x := by
  have index := emod_ahead (a := i.start) (d := q - i.start) (n := len) (by omega) (by omega)
  have stop := emod_ahead (a := i.start) (d := i.stop - i.start) (n := len) (by omega) (by omega)
  rw [add_sub_cancel] at index stop
  unfold inUseAt
  dsimp only
  omega

/-! ## What the search finds (R193 to R195) -/

/-- A result is a run of free indices and its midpoint (R193, R194). -/
theorem findLargestGap_run (pos : 1 ≤ len) (found : findLargestGap len ivs = some (mid, size)) :
    ∃ p, p < len ∧ mid = (p + size / 2) % len ∧ ∀ i, i < size → freeAt len ivs ((p + i) % len) := by
  obtain ⟨p, listed, _, hmid⟩ := findLargestGap_some found
  obtain ⟨start, _, _, run⟩ := gapsOf_mem pos listed
  exact ⟨p, start, hmid, fun i hi => (freeIn_iff_freeAt (Nat.mod_lt _ pos)).mp (run i hi)⟩

/-- The midpoint is an index of the run it halves, so it is free (R194). -/
theorem findLargestGap_mid_free (pos : 1 ≤ len) (found : findLargestGap len ivs = some (mid, size)) : freeAt len ivs mid := by
  obtain ⟨p, _, rfl, run⟩ := findLargestGap_run pos found
  obtain ⟨_, nonempty, _⟩ := findLargestGap_bounds pos found
  exact run (size / 2) (by omega)

/-- No run of free indices on the circle is longer than the one found (R193, R194). -/
theorem findLargestGap_maximal (pos : 1 ≤ len) (found : findLargestGap len ivs = some (mid, size)) {p n : Nat} (fits : n ≤ len)
    (run : ∀ i, i < n → freeAt len ivs ((p + i) % len)) : n ≤ size := by
  obtain ⟨_, _, hsize, _⟩ := findLargestGap_some found
  rcases Nat.eq_zero_or_pos n with rfl | nonempty
  · exact Nat.zero_le _
  · obtain ⟨g, listed, hg⟩ := gapsOf_max pos fits nonempty fun i hi => (freeIn_iff_freeAt (Nat.mod_lt _ pos)).mpr (run i hi)
    calc n ≤ g.2 := hg
      _ ≤ maxLength (gapsOf (freeIn (subIntervals len ivs)) len) := le_maxLength listed
      _ = size := hsize.symm

/-- Settles O46: the run the gap list holds, its midpoint, and the maximum over that list. -/
theorem largestGapIsFreeAndMaximal : Obligations.LargestGapIsFreeAndMaximal := by
  intro len ivs mid size pos found
  obtain ⟨inside, nonempty, fits⟩ := findLargestGap_bounds pos found
  exact ⟨nonempty, fits, inside, findLargestGap_mid_free pos found, findLargestGap_run pos found,
    fun _ _ => findLargestGap_maximal pos found⟩

/-- There is no gap exactly when every index is covered (R195). -/
theorem findLargestGap_none_iff (pos : 1 ≤ len) : findLargestGap len ivs = none ↔ ∀ x, x < len → ¬ freeAt len ivs x := by
  rw [findLargestGap_none]
  constructor
  · intro empty x inside free
    have run : ∀ i < 1, freeIn (subIntervals len ivs) ((x + i) % len) = true := fun i hi => by
      rw [Nat.lt_one_iff.mp hi, Nat.add_zero, Nat.mod_eq_of_lt inside]
      exact (freeIn_iff_freeAt inside).mpr free
    obtain ⟨g, listed, _⟩ := gapsOf_max pos pos (le_refl 1) run
    rw [empty] at listed
    cases listed
  · intro covered
    refine List.eq_nil_iff_forall_not_mem.mpr fun g listed => ?_
    obtain ⟨_, nonempty, _, run⟩ := gapsOf_mem pos listed
    have inside : (g.1 + 0) % len < len := Nat.mod_lt _ pos
    exact covered _ inside ((freeIn_iff_freeAt inside).mp (run 0 nonempty))

/-- When nothing is covered the one gap is the whole circle (R193, R195). -/
theorem findLargestGap_all_free (pos : 1 ≤ len) (free : ∀ x, x < len → freeAt len ivs x) :
    findLargestGap len ivs = some (len / 2, len) := by
  have whole : gapsOf (freeIn (subIntervals len ivs)) len = [(0, len)] :=
    if_pos (List.all_eq_true.mpr fun x hx =>
      have inside := List.mem_range.mp hx
      (freeIn_iff_freeAt inside).mpr (free x inside))
  have largest : largestGaps [(0, len)] = [(0, len)] := by simp [largestGaps, maxLength]
  have half : (0 + len / 2) % len = len / 2 := by
    rw [Nat.zero_add]
    exact Nat.mod_eq_of_lt (by omega)
  rw [findLargestGap, whole, largest, chooseGap, Option.map_some, half]

/-- Settles O47: an empty list of intervals covers nothing, which is the second case. -/
theorem gapBoundaryCases : Obligations.GapBoundaryCases :=
  fun _ _ pos => ⟨findLargestGap_none_iff pos, findLargestGap_all_free pos,
    findLargestGap_all_free pos fun _ _ => List.forall_mem_nil _⟩

/-! ## The byte a pass changes (R207) -/

/-- An ADJ.STEP that takes no fault applied the plan it made (R211). -/
theorem exec_adjStep_next (ready : adjustable s) (next : exec .adjStep s = .next t) (clean : t.faultV = false) :
    ∃ p, s.adjPlan = .ok p ∧ t = (s.adjApply p).answered 1 := by
  cases plan : s.adjPlan with
  | error f =>
    obtain rfl := Host.Outcome.next.inj ((exec_adjStep_fault ready plan).symm.trans next)
    cases clean
  | ok p => exact ⟨p, rfl, (Host.Outcome.next.inj ((exec_adjStep_ok ready plan).symm.trans next)).symm⟩

/-- The byte a plan names is in no extent of the plan: its index is free, and the extents are shorter than the track (R194, R206). -/
theorem adjPlan_mid_not_held (valid : s.validLen = true) {p : AdjPlan} (plan : s.adjPlan = .ok p) {x : Interval} (listed : x ∈ p.ivs)
    {q : Int} (low : x.start ≤ q) (high : q < x.stop) : q % (s.dataLen : Int) ≠ p.gapMid := by
  intro reduced
  obtain ⟨recs, _, extents, found⟩ := adjPlan_ok plan
  have short : x.stop - x.start < (s.dataLen : Int) := (extentsOf_ok extents).2 x listed
  exact findLargestGap_mid_free (State.dataLen_bounds valid).1 found x listed (inUseAt_of_holds short low high reduced)

/-- Settles O52: GAPMID and IV are those of the plan, whose midpoint fits the register. -/
theorem adjStepByteIsInNoExtent : Obligations.AdjStepByteIsInNoExtent := by
  intro s t ready next clean
  obtain ⟨p, plan, rfl⟩ := exec_adjStep_next ready next clean
  have valid := adjustable_validLen ready
  obtain ⟨inside, _⟩ := adjPlan_mid valid plan
  obtain ⟨_, most, _⟩ := State.dataLen_bounds valid
  have gapmid : ((s.adjApply p).answered 1).gap.mid.toNat = p.gapMid := by
    rw [State.answered_gap, adjApply_gap, BitVec.toNat_ofNat]
    exact Nat.mod_eq_of_lt (by omega)
  rw [gapmid, State.answered_iv, adjApply_iv, ← adjustable_dataLen ready]
  exact ⟨inside, fun x listed q => adjPlan_mid_not_held valid plan listed⟩

/-! ## GAP.CLR, GAP.ADD and GAP.FIND -/

/-- Settles O43: the halt test is the only check of GAP.CLR. -/
theorem gapClrEmptiesList : Obligations.GapClrEmptiesList := by
  refine ⟨decodeOfEncodeIsTheCommand .gapClr rfl, fun s running => ?_⟩
  rw [exec_gapClr, execGapClr, State.whenRunning_running running]
  rfl

/-- Settles O44: behind the halt test, GAP.ADD is a case on IVCNT. -/
theorem gapAddAppendsSignedPair : Obligations.GapAddAppendsSignedPair := by
  refine ⟨decodeOfEncodeIsTheCommand .gapAdd rfl, fun s running => ?_⟩
  rw [exec_gapAdd, execGapAdd, State.whenRunning_running running]
  exact ⟨fun room => if_neg room, fun full => if_pos full⟩

/-- A running block with a valid track answers GAP.FIND with what the search found (R199). -/
theorem exec_gapFind_valid (running : s.running) (low : 128 < s.trklen.toNat) (high : s.trklen.toNat < 0x4000)
    {found : Option (Nat × Nat)} (search : findLargestGap s.dataLen s.iv = found) :
    exec .gapFind s = .next { s with gap := gapRegsOf found, resp := some (gapResponse found) } := by
  rw [exec_gapFind, execGapFind, whenRunning_whenValidLen_good running low high, search]
  rfl

/-- Settles O45: the length check R145's, then the two results the search can have. -/
theorem gapFindReportsLargestGap : Obligations.GapFindReportsLargestGap := by
  refine ⟨decodeOfEncodeIsTheCommand .gapFind rfl, fun s running => ⟨fun bad => ?_, fun low high => ⟨?_, fun mid size => ?_⟩⟩⟩
  · exact whenRunning_whenValidLen_bad running bad _
  · exact exec_gapFind_valid running low high
  · exact fun search => exec_gapFind_valid running low high search

end Sys2Proof.Machine
end

section
/-! Proofs of the statements about the pointers and the RECORDs after a pass (45_adjuster.md R210, R214): the bytes the strict scan reads for a
RECORD lie in its extent, which the changed byte is not in, so they move as a whole (`rd_shift`), and its pointer entry moves with them. -/

namespace Sys2Proof.Machine

variable {s t : State}

/-! ## The pointer rewrite (R210) -/

/-- GAPMID holds the midpoint of the plan: it is an index of the data region (R36, R207). -/
theorem adjApply_gapMid_toNat (valid : s.validLen = true) {p : AdjPlan} (plan : s.adjPlan = .ok p) :
    (s.adjApply p).gap.mid.toNat = p.gapMid := by
  obtain ⟨inside, _⟩ := adjPlan_mid valid plan
  rw [adjApply_gap]
  exact gapSize_toNat valid inside.le

/-- Settles O51: an entry above `mid` is `movedPointer_toNat`'s, every other one `movedPointer_same`'s. -/
theorem adjStepRewritesPointers : Obligations.AdjStepRewritesPointers := by
  intro s t ready next clean k hk mid old new offset delta
  obtain ⟨p, plan, rfl⟩ := exec_adjStep_next ready next clean
  have valid := adjustable_validLen ready
  obtain ⟨_, below, _⟩ := adjPlan_mid valid plan
  have hmid : mid = p.gapMid + 128 := congrArg (· + 128) (adjApply_gapMid_toNat valid plan)
  have hnew : new = movedPointer (decide (s.dataLen < s.target.toNat)) mid old := hmid ▸ adjApply_pt s p below hk
  have hdelta : delta = if s.dataLen < s.target.toNat then 1 else -1 := rfl
  refine ⟨fun ⟨nonzero, above⟩ => ?_, fun fixed => hnew.trans (movedPointer_same fixed)⟩
  rw [hnew, movedPointer_toNat nonzero above, hdelta]
  by_cases grow : s.dataLen < s.target.toNat
  · simp only [grow, decide_true, if_true]
    omega
  · simp only [grow, decide_false, Bool.false_eq_true, if_false]
    omega

/-! ## A stretch of the track that moves as a whole -/

/-- Every byte of the data-region indices `[lo, hi)`, read around the circle, stands `d` places further on in `t` than in `s`. -/
def MovedBy (s t : State) (d lo hi : Int) : Prop := ∀ q, lo ≤ q → q < hi → t.rd (q + d) = s.rd q

section
variable {d lo hi : Int}

theorem MovedBy.rd_add (h : MovedBy s t d lo hi) {p : Int} (n : Int) (low : lo ≤ p + n) (high : p + n < hi) :
    t.rd (p + d + n) = s.rd (p + n) := by
  rw [add_right_comm]
  exact h _ low high

theorem MovedBy.rdSeq (h : MovedBy s t d lo hi) {p : Int} {n : Nat} (low : lo ≤ p) (high : p + n ≤ hi) :
    t.rdSeq (p + d) n = s.rdSeq p n := by
  refine List.map_congr_left fun i inside => ?_
  have := List.mem_range.mp inside
  exact h.rd_add i (by omega) (by omega)

theorem MovedBy.rdBe16 (h : MovedBy s t d lo hi) {p : Int} (low : lo ≤ p) (high : p + 2 ≤ hi) : t.rdBe16 (p + d) = s.rdBe16 p :=
  congrArg₂ (fun x y : Byte => x ++ y) (h p low (by omega)) (h.rd_add 1 (by omega) (by omega))

theorem MovedBy.idFieldsAt (h : MovedBy s t d lo hi) {p : Int} (low : lo ≤ p) (high : p + 8 ≤ hi) :
    t.idFieldsAt (p + d) = s.idFieldsAt p := by
  rw [State.idFieldsAt, h.rd_add 4 (by omega) (by omega), h.rd_add 5 (by omega) (by omega), h.rd_add 6 (by omega) (by omega),
    h.rd_add 7 (by omega) (by omega)]
  rfl

theorem MovedBy.dataMarkAt (h : MovedBy s t d lo hi) (strict : Bool) {p : Int} (low : lo ≤ p) (high : p + 4 ≤ hi) :
    t.dataMarkAt strict (p + d) = s.dataMarkAt strict p := by
  rw [State.dataMarkAt, h p low (by omega), h.rd_add 1 (by omega) (by omega), h.rd_add 2 (by omega) (by omega),
    h.rd_add 3 (by omega) (by omega)]
  rfl

/-- The search finds the mark it found before: it reads no byte beyond that mark (R178). -/
theorem MovedBy.findDataMark (h : MovedBy s t d lo hi) {strict : Bool} {p j : Int} {n : Nat}
    (found : s.findDataMark strict p n = some j) (low : lo ≤ p) (high : j + 4 ≤ hi) :
    t.findDataMark strict (p + d) n = some (j + d) := by
  obtain ⟨i, hi, rfl, mark, first⟩ := findDataMark_some found
  have there {i' : Nat} (le : i' ≤ i) : t.dataMarkAt strict (p + d + i') = s.dataMarkAt strict (p + i') := by
    rw [add_right_comm]
    exact h.dataMarkAt strict (by omega) (by omega)
  rw [add_right_comm]
  exact findDataMark_first hi ((there le_rfl).trans mark) fun i' earlier => (there earlier.le).trans (first i' earlier)

/-- A RECORD whose extent and pointer move together is the same RECORD (R176 to R179). -/
theorem MovedBy.scanEntry_record {k : Nat} {strict : Bool} {e : Half} {id : IdFields} {a j : Int} {ty : Byte} {ok : Bool}
    (h : MovedBy s t d a (j + 4 + sectorSize id.n + 2)) (record : s.scanEntry k strict = .record e id a j ty ok)
    (double : densityOf (t.pt k) = 0b10#2) (low : 128 ≤ dmkIdxOf (t.pt k)) (high : dmkIdxOf (t.pt k) < t.trklen.toNat)
    (index : addrIdxOf (t.pt k) = a + d) : t.scanEntry k strict = .record (t.pt k) id (a + d) (j + d) ty ok := by
  obtain ⟨_, _, _, _, _, _, mark, crc, hid, found, hty, hok⟩ := Machine.scanEntry_record record
  obtain ⟨i, _, hj, _, _⟩ := findDataMark_some found
  have nonzero : t.pt k ≠ 0 := fun zero => absurd (zero ▸ double) (by decide)
  have mark' : t.rdSeq (a + d) 4 = idMark := (h.rdSeq (by omega) (by omega)).trans mark
  have crc' : crc16 (t.rdSeq (a + d) 8) = t.rdBe16 (a + d + 8) := by
    rw [h.rdSeq (by omega) (by omega), add_right_comm, h.rdBe16 (by omega) (by omega), crc]
  have found' : t.findDataMark strict (a + d + 10) 43 = some (j + d) := by
    rw [add_right_comm]
    exact h.findDataMark found (by omega) (by omega)
  have dataCrc : t.rdBe16 (j + d + 4 + sectorSize id.n) = s.rdBe16 (j + 4 + sectorSize id.n) := by
    rw [add_right_comm j, add_right_comm (j + 4)]
    exact h.rdBe16 (by omega) (by omega)
  rw [scanEntry_of_record nonzero double low high index mark' crc' found', State.scanRecord, h.idFieldsAt (by omega) (by omega), ← hid,
    h.rd_add 3 (by omega) (by omega), h.rdSeq (by omega) (by push_cast; omega), dataCrc, ← hty, ← hok]

end

/-! ## The pointer of a RECORD -/

/-- An entry whose offset has room below 2^14 keeps its density, and its offset moves by one exactly when it lies above `mid`. -/
theorem movedPointer_fields (grow : Bool) (mid : Nat) {e : Half} (double : densityOf e = 0b10#2) (room : dmkIdxOf e + 1 < 0x4000) :
    densityOf (movedPointer grow mid e) = 0b10#2 ∧
    (dmkIdxOf (movedPointer grow mid e) : Int) = dmkIdxOf e + (if mid < dmkIdxOf e then (if grow then 1 else -1) else 0) := by
  have nonzero : e ≠ 0 := fun zero => absurd (zero ▸ double) (by decide)
  by_cases above : mid < dmkIdxOf e
  · rw [if_pos above]
    rw [densityOf_eq] at double ⊢
    rw [dmkIdxOf_eq] at above room ⊢
    rw [dmkIdxOf_eq, movedPointer_toNat nonzero above]
    cases grow
    · simp only [Bool.false_eq_true, if_false]
      omega
    · simp only [if_true]
      omega
  · rw [if_neg above, add_zero]
    rw [dmkIdxOf_eq, not_lt] at above
    rw [movedPointer_same (.inr above)]
    exact ⟨double, rfl⟩

/-! ## The RECORDs of a pass -/

/-- The extent of a slot before the first END is in the list the pass works with (R184, R206), and is shorter than the track. -/
theorem adjPlan_lists_extent {p : AdjPlan} (plan : s.adjPlan = .ok p) {k : Nat} (hk : k < 64)
    (before : ∀ k' < k, s.scanEntry k' true ≠ .endOfTable) {x : Interval} (extent : (s.scanEntry k true).extent? = some x) :
    x ∈ p.ivs ∧ x.stop - x.start < (s.dataLen : Int) := by
  obtain ⟨recs, scan, extents, _⟩ := adjPlan_ok plan
  obtain ⟨_, entries, atEnd⟩ := scanTrack_iff.mp scan
  obtain ⟨hivs, short⟩ := extentsOf_ok extents
  have inside : k < recs.length := by
    rcases Nat.lt_trichotomy k recs.length with inside | rfl | beyond
    · exact inside
    · rw [atEnd hk] at extent
      cases extent
    · exact absurd (atEnd (by omega)) (before _ beyond)
  have listed : x ∈ p.ivs := by
    rw [hivs]
    exact List.mem_filterMap.mpr ⟨_, List.getElem_mem inside, by rw [(entries k inside).1]; exact extent⟩
  exact ⟨listed, short x listed⟩

/-- How far a pass moves a byte, by the offset of its pointer (R208 to R210). -/
def State.passShift (s : State) (p : AdjPlan) (offset : Nat) : Int :=
  if p.gapMid + 128 < offset then (if s.dataLen < s.target.toNat then 1 else -1) else 0

/-- TRKLEN after a pass, as a number (R208, R209). -/
theorem adjApply_trklen_toNat (ready : adjustable s) (p : AdjPlan) :
    ((s.adjApply p).trklen.toNat : Int) = s.trklen.toNat + (if s.dataLen < s.target.toNat then 1 else -1) := by
  have valid := adjustable_validLen ready
  obtain ⟨_, _, _, least, most, apart⟩ := ready
  obtain ⟨valid', length, _⟩ := adjApply_dataLen valid least most apart p
  obtain ⟨_, _, before⟩ := State.dataLen_bounds valid
  obtain ⟨_, _, after⟩ := State.dataLen_bounds valid'
  split at length <;> omega

/-- A pass moves TRKLEN as far as the bytes above the changed one (R208, R209). -/
theorem passShift_cases (ready : adjustable s) (p : AdjPlan) (offset : Nat) :
    s.passShift p offset = 0 ∨ s.passShift p offset = ((s.adjApply p).trklen.toNat : Int) - s.trklen.toNat := by
  rw [adjApply_trklen_toNat ready, add_sub_cancel_left]
  exact (ite_eq_or_eq _ _ _).symm

/-- The 0xFE byte a RECORD's pointer names is in the data region and in the RECORD's extent (R176, R183). -/
theorem record_mark_in_extent (valid : s.validLen = true) {k : Nat} {strict : Bool} {e : Half} {id : IdFields} {a j : Int} {ty : Byte}
    {ok : Bool} (record : s.scanEntry k strict = .record e id a j ty ok) :
    0 ≤ (dmkIdxOf e : Int) - 128 ∧ (dmkIdxOf e : Int) - 128 < s.dataLen ∧ a ≤ (dmkIdxOf e : Int) - 128 ∧
      (dmkIdxOf e : Int) - 128 < j + 4 + sectorSize id.n + 2 := by
  obtain ⟨_, _, _, low, high, start, _, _, _, found, _, _⟩ := scanEntry_record record
  obtain ⟨i, _, hj, _, _⟩ := findDataMark_some found
  obtain ⟨_, _, length⟩ := State.dataLen_bounds valid
  rw [addrIdxOf] at start
  omega

section
variable {p : AdjPlan} {k : Nat} {e : Half} {id : IdFields} {a j : Int} {ty : Byte} {ok : Bool} (ready : adjustable s)
  (plan : s.adjPlan = .ok p) (hk : k < 64) (before : ∀ k' < k, s.scanEntry k' true ≠ .endOfTable)
  (record : s.scanEntry k true = .record e id a j ty ok)
include ready plan hk before record

/-- The changed byte is in no extent, so the extent of a RECORD moves as a whole, with the 0xFE byte its pointer names (R214). -/
theorem adjApply_movedBy : MovedBy s (s.adjApply p) (s.passShift p (dmkIdxOf e)) a (j + 4 + sectorSize id.n + 2) := by
  have valid := adjustable_validLen ready
  obtain ⟨inside, _⟩ := adjPlan_mid valid plan
  obtain ⟨_, _, _, least, most, apart⟩ := ready
  obtain ⟨listed, short⟩ := adjPlan_lists_extent plan hk before (congrArg ScanResult.extent? record)
  obtain ⟨mark0, markL, markLow, markHigh⟩ := record_mark_in_extent valid record
  have shift := rd_shift valid least most apart inside mark0 markL markLow markHigh short
    fun q => adjPlan_mid_not_held valid plan listed
  have above : (p.gapMid : Int) < (dmkIdxOf e : Int) - 128 ↔ p.gapMid + 128 < dmkIdxOf e := by omega
  simp only [above] at shift
  exact shift

/-- The 0xFE byte of a RECORD is not the changed byte (R210). -/
theorem record_pointer_ne_mid : dmkIdxOf e ≠ p.gapMid + 128 := by
  have valid := adjustable_validLen ready
  obtain ⟨listed, _⟩ := adjPlan_lists_extent plan hk before (congrArg ScanResult.extent? record)
  obtain ⟨mark0, markL, markLow, markHigh⟩ := record_mark_in_extent valid record
  have free := adjPlan_mid_not_held valid plan listed markLow markHigh
  rw [Int.emod_eq_of_lt mark0 markL] at free
  omega

/-- The pointer of a RECORD moves with its extent, and stays in the track: its offset is not that of the changed byte (R210). -/
theorem record_pointer_after :
    densityOf ((s.adjApply p).pt k) = 0b10#2 ∧
    (dmkIdxOf ((s.adjApply p).pt k) : Int) = dmkIdxOf e + s.passShift p (dmkIdxOf e) ∧
    128 ≤ dmkIdxOf ((s.adjApply p).pt k) ∧ dmkIdxOf ((s.adjApply p).pt k) < (s.adjApply p).trklen.toNat := by
  have valid := adjustable_validLen ready
  have apart := record_pointer_ne_mid ready plan hk before record
  obtain ⟨_, mid, _⟩ := adjPlan_mid valid plan
  obtain ⟨_, cap⟩ := State.validLen_iff.mp valid
  obtain ⟨rfl, _, double, low, high, _⟩ := scanEntry_record record
  obtain ⟨double', index⟩ := movedPointer_fields (decide (s.dataLen < s.target.toNat)) (p.gapMid + 128) double (by omega)
  rw [← adjApply_pt s p mid hk] at double' index
  simp only [decide_eq_true_eq] at index
  refine ⟨double', index, ?_⟩
  have length := adjApply_trklen_toNat ready p
  by_cases grow : s.dataLen < s.target.toNat
  · rw [if_pos grow] at index length
    split at index <;> omega
  · rw [if_neg grow] at index length
    split at index <;> omega

end

/-- Settles O53: the extent of the RECORD and its pointer both move by `passShift`. -/
theorem adjStepPreservesRecords : Obligations.AdjStepPreservesRecords := by
  intro s t k e id a j ty ok ready next clean hk before record
  obtain ⟨p, plan, rfl⟩ := exec_adjStep_next ready next clean
  have moved := adjApply_movedBy ready plan hk before record
  obtain ⟨double, index, low, high⟩ := record_pointer_after ready plan hk before record
  obtain ⟨_, _, _, _, _, start, _⟩ := scanEntry_record record
  have start' : addrIdxOf ((s.adjApply p).pt k) = a + s.passShift p (dmkIdxOf e) := by
    rw [addrIdxOf, index, start, addrIdxOf]
    ring
  exact ⟨_, _, (State.answered_scanEntry ..).trans (moved.scanEntry_record record double low high start'), passShift_cases ready p _⟩

end Sys2Proof.Machine
end

section
/-! Proofs of the statements about TARGET (45_adjuster.md R211, R212, R215) and about ADJ.RUN as a chain of ADJ.STEP commands (R212, R213). A pass does
not read RESP, so the answers the commands of the chain write on their way make no difference to the passes. -/

namespace Sys2Proof.Machine

variable {s t : State}

/-! ## The checks before the passes (R215) -/

/-- A running block with a legal track and a legal TARGET, `n` passes away from it (R212, R215). -/
structure PassesToGo (s : State) (target : Half) (n : Nat) : Prop where
  running : s.running
  valid : s.validLen = true
  isTarget : s.target = target
  least : 1 ≤ target.toNat
  most : target.toNat ≤ 16255
  distance : s.adjDistance = n

theorem passesToGo (running : s.running) (low : 128 < s.trklen.toNat) (high : s.trklen.toNat < 0x4000) (least : 1 ≤ s.target.toNat)
    (most : s.target.toNat ≤ 16255) {n : Nat} (hn : n = ((s.target.toNat : Int) - ((s.trklen.toNat : Int) - 128)).natAbs) :
    PassesToGo s s.target n := by
  refine ⟨running, State.validLen_iff.mpr ⟨low, high⟩, rfl, least, most, ?_⟩
  rw [hn, State.adjDistance, dataLen_cast low]

section
variable {target : Half} {n : Nat}

theorem PassesToGo.whenTarget (h : PassesToGo s target n) (k : Unit → Result) : s.whenTarget k = k () := by
  obtain ⟨running, valid, rfl, least, most, _⟩ := h
  rw [State.whenTarget, State.whenRunning_running running, State.whenValidLen_valid valid, if_neg (by omega)]

/-- With no pass to go, L is TARGET. -/
theorem PassesToGo.dataLen_eq (h : PassesToGo s target 0) : s.dataLen = target.toNat := by
  have zero := h.distance
  rw [State.adjDistance, h.isTarget] at zero
  omega

theorem PassesToGo.trklen_eq (h : PassesToGo s target 0) : s.trklen = BitVec.ofNat 16 (target.toNat + 128) := by
  obtain ⟨_, _, length⟩ := State.dataLen_bounds h.valid
  rw [← h.dataLen_eq, length, BitVec.ofNat_toNat, BitVec.setWidth_eq]

theorem PassesToGo.ready (h : PassesToGo s target (n + 1)) : adjustable s := by
  obtain ⟨running, valid, rfl, least, most, distance⟩ := h
  obtain ⟨low, high⟩ := State.validLen_iff.mp valid
  have apart : s.dataLen ≠ s.target.toNat := fun reached => by simp [State.adjDistance, reached] at distance
  exact ⟨running, low, high, least, most, apart⟩

/-- A pass leaves one pass less to go (R205, R213). -/
theorem PassesToGo.adjApply (h : PassesToGo s target (n + 1)) (p : AdjPlan) : PassesToGo (s.adjApply p) target n := by
  have apart := adjustable_apart h.ready
  obtain ⟨running, valid, rfl, least, most, distance⟩ := h
  obtain ⟨valid', _, less⟩ := adjApply_dataLen valid least most apart p
  exact ⟨(adjApply_faultV s p).trans running, valid', adjApply_target s p, least, most, by omega⟩

theorem PassesToGo.answered (h : PassesToGo s target n) (r : Word) : PassesToGo (s.answered r) target n := { h with }

end

/-- Outside 1 to 16255, TARGET faults before anything else but the length check (R215). -/
theorem whenTarget_range (running : s.running) (low : 128 < s.trklen.toNat) (high : s.trklen.toNat < 0x4000)
    (illegal : s.target.toNat < 1 ∨ 16255 < s.target.toNat) (k : Unit → Result) :
    s.whenTarget k = .next { s with faultV := true, faultCode := 3, finfo := s.target, resp := some 0x80000003 } := by
  rw [State.whenTarget, whenRunning_whenValidLen_good running low high, if_pos illegal, State.raise, State.takeFault, BitVec.ofNat_toNat,
    BitVec.setWidth_eq]
  rfl

/-! ## RESP is not read -/

theorem answered_scanTrackFrom (s : State) (r : Word) (strict : Bool) (k n : Nat) :
    (s.answered r).scanTrackFrom strict k n = s.scanTrackFrom strict k n := by
  induction n generalizing k with
  | zero => rfl
  | succ n ih => rw [State.scanTrackFrom, State.scanTrackFrom, State.answered_scanEntry, ih]

theorem answered_adjPlan (s : State) (r : Word) : (s.answered r).adjPlan = s.adjPlan := by
  simp only [State.adjPlan, State.scanTrack, answered_scanTrackFrom, State.answered_dataLen]

theorem answered_rewritePointer (s : State) (r : Word) (grow : Bool) (mid k : Nat) :
    (s.answered r).rewritePointer grow mid k = (s.rewritePointer grow mid k).answered r := by
  unfold State.rewritePointer
  rw [State.answered_pt]
  split <;> rfl

theorem answered_rewritePointers (s : State) (r : Word) (grow : Bool) (mid : Nat) :
    (s.answered r).rewritePointers grow mid = (s.rewritePointers grow mid).answered r :=
  List.foldl_hom (State.answered · r) fun t k => answered_rewritePointer t r grow mid k

/-- A pass before it rewrites the pointers and TRKLEN (R207 to R209). -/
def State.adjMoved (s : State) (p : AdjPlan) : State :=
  { s with iv := p.ivs, ivcnt := BitVec.ofNat 7 p.ivs.length, gap := gapRegsOf (some (p.gapMid, p.gapSize)),
           tb := s.movedBytes (decide (s.dataLen < s.target.toNat)) (p.gapMid + Config.ptabBytes) }

theorem adjApply_eq_rewritten (s : State) (p : AdjPlan) :
    s.adjApply p =
      { (s.adjMoved p).rewritePointers (decide (s.dataLen < s.target.toNat)) (p.gapMid + Config.ptabBytes) with
        trklen := (s.adjApply p).trklen } := rfl

theorem answered_adjMoved (s : State) (r : Word) (p : AdjPlan) : (s.answered r).adjMoved p = (s.adjMoved p).answered r := rfl

theorem answered_adjApply (s : State) (r : Word) (p : AdjPlan) : (s.answered r).adjApply p = (s.adjApply p).answered r := by
  have length : ((s.answered r).adjApply p).trklen = (s.adjApply p).trklen :=
    (adjApply_trklen _ p).trans (adjApply_trklen s p).symm
  rw [adjApply_eq_rewritten (s.answered r), adjApply_eq_rewritten s, length, answered_adjMoved, answered_rewritePointers]
  rfl

/-! ## The passes of a run, one at a time (R212) -/

theorem adjPasses_succ {p : AdjPlan} (plan : s.adjPlan = .ok p) (n : Nat) : s.adjPasses (n + 1) = (s.adjApply p).adjPasses n := by
  rw [State.adjPasses, State.adjPass, plan]

theorem adjPasses_succ_error {f : Raised} (plan : s.adjPlan = .error f) (n : Nat) : s.adjPasses (n + 1) = (s, some f) := by
  rw [State.adjPasses, State.adjPass, plan]

theorem answered_adjPasses (s : State) (r : Word) (n : Nat) :
    (s.answered r).adjPasses n = ((s.adjPasses n).1.answered r, (s.adjPasses n).2) := by
  induction n generalizing s with
  | zero => rfl
  | succ n ih =>
    cases plan : s.adjPlan with
    | error f => rw [adjPasses_succ_error plan, adjPasses_succ_error ((answered_adjPlan s r).trans plan)]
    | ok p => rw [adjPasses_succ plan, adjPasses_succ ((answered_adjPlan s r).trans plan), answered_adjApply, ih]

/-! ## ADJ.RUN, by its passes -/

section
variable {target : Half} {n : Nat} {u : State}

theorem PassesToGo.exec_adjRun_completes (h : PassesToGo s target n) (passes : s.adjPasses n = (u, none)) :
    exec .adjRun s = .next (u.answered (BitVec.ofNat 32 n)) := by
  rw [exec_adjRun, execAdjRun, h.whenTarget, h.distance, passes]
  rfl

theorem PassesToGo.exec_adjRun_faults (h : PassesToGo s target n) {f : Raised} (passes : s.adjPasses n = (u, some f)) :
    exec .adjRun s = .next (u.takeFault f.code f.info) := by
  rw [exec_adjRun, execAdjRun, h.whenTarget, h.distance, passes]
  rfl

theorem PassesToGo.exec_adjRun_answered (h : PassesToGo s target n) (r : Word) : exec .adjRun (s.answered r) = exec .adjRun s := by
  rcases passes : s.adjPasses n with ⟨u, _ | f⟩
  · have passes' : (s.answered r).adjPasses n = (u.answered r, none) := by rw [answered_adjPasses, passes]
    rw [(h.answered r).exec_adjRun_completes passes', h.exec_adjRun_completes passes]
    rfl
  · have passes' : (s.answered r).adjPasses n = (u.answered r, some f) := by rw [answered_adjPasses, passes]
    rw [(h.answered r).exec_adjRun_faults passes', h.exec_adjRun_faults passes]
    rfl

end

/-- Settles O48: both commands begin with `whenTarget`; at the target ADJ.STEP tests for it and ADJ.RUN has no pass to make. -/
theorem adjusterChecksTargetFirst : Obligations.AdjusterChecksTargetFirst := by
  intro i s hi running low high
  refine ⟨fun illegal => ?_, fun least most reached => ?_⟩
  · rcases hi with rfl | rfl
    · rw [exec_adjStep, execAdjStep, whenTarget_range running low high illegal]
    · rw [exec_adjRun, execAdjRun, whenTarget_range running low high illegal]
  · have togo : PassesToGo s s.target 0 := passesToGo running low high least most (by omega)
    rcases hi with rfl | rfl
    · rw [exec_adjStep, execAdjStep, togo.whenTarget, if_pos togo.dataLen_eq]
      rfl
    · exact togo.exec_adjRun_completes rfl

/-! ## A chain of ADJ.STEP commands -/

section
variable {target : Half} {n m : Nat}

/-- The first `n` commands of a chain of ADJ.STEP commands succeed. -/
def StepsSucceed (chain : Nat → State) (n : Nat) : Prop :=
  ∀ k < n, exec .adjStep (chain k) = .next (chain (k + 1)) ∧ (chain (k + 1)).faultV = false

/-- The commands of the chain are the first passes of the run; RESP apart, since each command writes its own (R212). -/
theorem StepsSucceed.adjPasses {chain : Nat → State} (steps : StepsSucceed chain n) (h : PassesToGo (chain 0) target (n + m)) (r : Word) :
    PassesToGo (chain n) target m ∧ ((chain 0).answered r).adjPasses (n + m) = ((chain n).answered r).adjPasses m := by
  induction n generalizing chain with
  | zero =>
    rw [Nat.zero_add] at h ⊢
    exact ⟨h, rfl⟩
  | succ n ih =>
    rw [Nat.add_right_comm] at h ⊢
    obtain ⟨next, clean⟩ := steps 0 (Nat.succ_pos n)
    obtain ⟨p, plan, first⟩ := exec_adjStep_next h.ready next clean
    have tail : StepsSucceed (fun k => chain (k + 1)) n := fun k hk => steps (k + 1) (Nat.succ_lt_succ hk)
    have togo : PassesToGo (chain 1) target (n + m) := first ▸ (h.adjApply p).answered 1
    obtain ⟨last, passes⟩ := ih tail togo
    refine ⟨last, ?_⟩
    rw [← passes, adjPasses_succ ((answered_adjPlan _ r).trans plan), answered_adjApply, first]
    rfl

end

/-- Settles O54: the whole run is the chain's passes. -/
theorem adjRunIsRepeatedAdjStep : Obligations.AdjRunIsRepeatedAdjStep := by
  rintro n s chain running low high least most hn rfl steps
  have togo : PassesToGo (chain 0) (chain 0).target (n + 0) := passesToGo running low high least most hn
  obtain ⟨last, passes⟩ := StepsSucceed.adjPasses steps togo 0
  refine ⟨?_, last.dataLen_eq⟩
  rw [← togo.exec_adjRun_answered 0, (togo.answered 0).exec_adjRun_completes passes]
  rfl

/-- An ADJ.STEP that faults is one whose plan failed (R206, R207). -/
theorem exec_adjStep_faulted (ready : adjustable s) (next : exec .adjStep s = .next t) (faulted : t.faultV = true) :
    ∃ f, s.adjPlan = .error f ∧ t = s.takeFault f.code f.info := by
  cases plan : s.adjPlan with
  | error f => exact ⟨f, rfl, (Host.Outcome.next.inj ((exec_adjStep_fault ready plan).symm.trans next)).symm⟩
  | ok p =>
    obtain rfl := Host.Outcome.next.inj ((exec_adjStep_ok ready plan).symm.trans next)
    obtain ⟨running, _⟩ := ready
    rw [State.answered_faultV, adjApply_faultV, running] at faulted
    cases faulted

/-- Settles O55: the chain's passes come first, and the plan that fails the next ADJ.STEP fails the next pass. -/
theorem adjRunKeepsCompletedPasses : Obligations.AdjRunKeepsCompletedPasses := by
  rintro i s t chain running low high least most hi rfl steps next faulted
  obtain ⟨m, hm⟩ := Nat.exists_eq_add_of_lt hi
  have togo : PassesToGo (chain 0) (chain 0).target (i + (m + 1)) := passesToGo running low high least most hm.symm
  obtain ⟨left, passes⟩ := StepsSucceed.adjPasses steps togo 0
  obtain ⟨f, plan, rfl⟩ := exec_adjStep_faulted left.ready next faulted
  rw [adjPasses_succ_error ((answered_adjPlan _ 0).trans plan)] at passes
  rw [← togo.exec_adjRun_answered 0, (togo.answered 0).exec_adjRun_faults passes]
  rfl

/-! ## A track whose table is empty (R195, R207) -/

/-- With the end of the table in slot 0 the pass works with no interval, and its gap is the whole circle. -/
theorem adjPlan_emptyTable (valid : s.validLen = true) (empty : s.pt 0 = 0) : s.adjPlan = .ok ⟨[], s.dataLen / 2, s.dataLen⟩ := by
  obtain ⟨pos, _, _⟩ := State.dataLen_bounds valid
  have list : strictScanLists s [] := ⟨Nat.zero_le _, nofun, fun _ => scanEntry_zero empty true⟩
  exact adjPlan_found list rfl nofun (findLargestGap_all_free pos fun _ _ => List.forall_mem_nil _)

/-- `L` before the last pass towards TARGET (R205). -/
def State.lastPassLen (s : State) : Nat := if s.dataLen < s.target.toNat then s.target.toNat - 1 else s.target.toNat + 1

theorem PassesToGo.lastPassLen_zero {target : Half} (h : PassesToGo s target 1) : s.lastPassLen = s.dataLen := by
  have one := h.distance
  rw [State.adjDistance] at one
  rw [State.lastPassLen]
  split <;> omega

/-- A pass that is not the last one keeps the direction, so the last one stays where it is (R213). -/
theorem PassesToGo.lastPassLen_succ {target : Half} {n : Nat} (h : PassesToGo s target (n + 2)) (p : AdjPlan) :
    (s.adjApply p).lastPassLen = s.lastPassLen := by
  have apart := adjustable_apart h.ready
  obtain ⟨_, valid, rfl, least, most, distance⟩ := h
  obtain ⟨_, length, _⟩ := adjApply_dataLen valid least most apart p
  rw [State.adjDistance] at distance
  rw [State.lastPassLen, State.lastPassLen, adjApply_target, length]
  split <;> split <;> omega

/-- The passes of a run on such a track: the last one leaves the gap registers with the circle it worked on. -/
theorem adjPasses_emptyTable {target : Half} {n : Nat} (h : PassesToGo s target (n + 1)) (empty : s.pt 0 = 0) :
    ∃ m : Memory, s.adjPasses (n + 1) =
      ({ s with tb := m, trklen := BitVec.ofNat 16 (target.toNat + 128), iv := [], ivcnt := 0,
                gap := ⟨true, BitVec.ofNat 14 (s.lastPassLen / 2), BitVec.ofNat 14 s.lastPassLen⟩ }, none) := by
  induction n generalizing s with
  | zero =>
    have plan := adjPlan_emptyTable h.valid empty
    have length := (h.adjApply ⟨[], s.dataLen / 2, s.dataLen⟩).trklen_eq
    rw [adjApply_trklen] at length
    refine ⟨(s.adjApply ⟨[], s.dataLen / 2, s.dataLen⟩).tb, ?_⟩
    rw [adjPasses_succ plan, h.lastPassLen_zero, ← length]
    exact congrArg (·, none) (adjApply_eq s _)
  | succ n ih =>
    have plan := adjPlan_emptyTable h.valid empty
    obtain ⟨_, inside, _⟩ := adjPlan_mid h.valid plan
    have empty' : (s.adjApply ⟨[], s.dataLen / 2, s.dataLen⟩).pt 0 = 0 := by
      rw [adjApply_pt s _ inside (by decide), empty, movedPointer_same (.inl rfl)]
    obtain ⟨m, passes⟩ := ih (h.adjApply _) empty'
    refine ⟨m, ?_⟩
    rw [adjPasses_succ plan, passes, h.lastPassLen_succ, adjApply_eq]

/-- Settles O56: no pass, or the passes of `adjPasses_emptyTable`. -/
theorem adjRunReachesTargetWithoutSectors : Obligations.AdjRunReachesTargetWithoutSectors := by
  intro s running low high least most byte0 byte1 n last
  have togo : PassesToGo s s.target n := passesToGo running low high least most rfl
  have empty : s.pt 0 = 0 := congrArg₂ (fun x y : Byte => x ++ y) byte1 byte0
  clear_value n
  cases n with
  | zero =>
    refine ⟨s.tb, (togo.exec_adjRun_completes rfl).trans ?_⟩
    rw [← togo.trklen_eq]
    rfl
  | succ n =>
    obtain ⟨m, passes⟩ := adjPasses_emptyTable togo empty
    exact ⟨m, togo.exec_adjRun_completes passes⟩

end Sys2Proof.Machine
end

section
/-! Proofs of the statements about the system commands (47_system.md): NOP (R235), REG.RD (R236) and REG.WR (R237). Which numbers are
assigned and which are writable is read off the register list of R21; what a write leaves in the register file is `readReg_writeReg`. -/

namespace Sys2Proof.Machine

variable {s : State} {g : Reg} {r : BitVec 8} {v : Half}

/-! ## NOP -/

/-- Settles O16: the two branches of NOP. -/
theorem nopAnswersHaltState : Obligations.NopAnswersHaltState :=
  ⟨decodeOfEncodeIsTheCommand .nop rfl, fun _ => ⟨fun running => if_neg (Bool.eq_false_iff.mp running), fun halted => if_pos halted⟩⟩

/-! ## Which numbers are assigned, and which can be written (R21) -/

theorem not_unassignedNumber_num (g : Reg) : ¬ unassignedNumber g.num := by
  cases g with
  | rtab i => revert i; decide
  | _ => decide

theorem Reg.ofNum_unassigned (h : unassignedNumber r) : Reg.ofNum r = none := by
  cases hg : Reg.ofNum r with
  | none => rfl
  | some g => exact absurd (Reg.num_of_ofNum hg ▸ h) (not_unassignedNumber_num g)

theorem writableNumber_num_iff (g : Reg) : writableNumber g.num ↔ g.writable = true := by
  cases g with
  | rtab i => revert i; decide
  | _ => decide

/-! ## REG.RD -/

theorem wordHigh_encode_regRd (r : BitVec 8) : wordHigh (encode (.regRd r)) = BitVec.ofNat 16 (0x0100 + r.toNat) := by
  refine field_eq (encode_regRd_toNat r) ?_
  rw [BitVec.toNat_ofNat]
  omega

theorem exec_regRd_unassigned (h : unassignedNumber r) (s : State) :
    exec (.regRd r) s = s.illegalWord (BitVec.ofNat 16 (0x0100 + r.toNat)) := by
  rw [exec_regRd, execRegRd, Reg.ofNum_unassigned h, wordHigh_encode_regRd]

/-- Settles O17: a register's number is found, an unassigned one is not and makes the word an illegal one. -/
theorem regRdAnswersRegister : Obligations.RegRdAnswersRegister := by
  refine fun s => ⟨fun r => decode_of_encode_toNat rfl (encode_regRd_toNat r), exec_regRd_num s, fun r unassigned running => ?_,
    fun r unassigned halted => ?_⟩
  · rw [exec_regRd_unassigned unassigned, illegalWord_running running]
  · rw [exec_regRd_unassigned unassigned]
    exact State.whenRunning_halted halted _

/-! ## What a register write leaves in the register file (R22) -/

/-- The low `n` bits of a value, as a mask. -/
theorem setWidth_setWidth_eq_and (v : Half) {n : Nat} (hn : n ≤ 16) : (v.setWidth n).setWidth 16 = v &&& BitVec.ofNat 16 (2 ^ n - 1) := by
  have mask : 2 ^ n - 1 < 2 ^ 16 := by
    have := Nat.pow_le_pow_right Nat.two_pos hn
    omega
  apply BitVec.eq_of_toNat_eq
  rw [BitVec.toNat_setWidth_of_le hn, BitVec.toNat_setWidth, BitVec.toNat_and, BitVec.toNat_ofNat, Nat.mod_eq_of_lt mask,
    Nat.and_two_pow_sub_one_eq_mod]

/-- A written RW register reads as the low implemented bits of the value. -/
theorem readReg_writeReg_same (hw : g.writable = true) (s : State) (v : Half) :
    (s.writeReg g v).readReg g = v &&& BitVec.ofNat 16 (2 ^ g.bits - 1) := by
  cases g with
  | mode | sizecode | idc | idh => exact setWidth_setWidth_eq_and v (by decide)
  | rtab i => exact (congrArg (BitVec.setWidth 16) (Vector.getElem_set_self _)).trans (setWidth_setWidth_eq_and v (by decide))
  | trklen | crc | target | gap1 | gap2 | gap3 | gap4a | gap4b | spt | corr0 | corr1 | corr2 | corr3 | ivs | ive =>
    exact BitVec.and_allOnes.symm
  | _ => exact absurd hw Bool.false_ne_true

/-- A register write reaches the register it names alone: any other reads a field of its own, or an entry of its own of RTAB. Said with
an `if`, so that the register itself is no exception among the pairs; `readReg_writeReg_of_ne` is the fact for the others. -/
theorem readReg_writeReg (s : State) (g g' : Reg) (v : Half) :
    (s.writeReg g v).readReg g' = if g' = g then (s.writeReg g v).readReg g else s.readReg g' := by
  cases g with
  | rtab i =>
    cases g' with
    | rtab j =>
      split
      · next h => rw [h]
      · next h =>
        have hij : i.val ≠ j.val := fun hij => h (congrArg Reg.rtab (Fin.ext hij.symm))
        exact congrArg (BitVec.setWidth 16) (Vector.getElem_set_ne i.isLt j.isLt hij)
    | _ => rfl
  | _ => cases g' <;> rfl

theorem readReg_writeReg_of_ne {g' : Reg} (h : g' ≠ g) (s : State) (v : Half) : (s.writeReg g v).readReg g' = s.readReg g' :=
  (readReg_writeReg s g g' v).trans (if_neg h)

/-! ## REG.WR -/

theorem wordHigh_encode_regWr (r : BitVec 8) (v : Half) :
    wordHigh (encode (.regWr r v)) = BitVec.ofNat 16 (0x0200 + r.toNat) := by
  refine field_eq (encode_regWr_toNat r v) ?_
  rw [BitVec.toNat_ofNat]
  omega

theorem exec_regWr_num (running : s.running) (hw : g.writable = true) (v : Half) :
    exec (.regWr g.num v) s = .next ((s.writeReg g v).answered 0) := by
  simp only [exec_regWr, execRegWr, State.whenRunning_running running, Reg.ofNum_num, hw, if_true, State.answer]

/-- The two ways not to name an RW register: an unassigned number, and the number of an RO register. -/
theorem exec_regWr_notWritable (running : s.running) (h : ¬ writableNumber r) (v : Half) :
    exec (.regWr r v) s = s.illegalWord (BitVec.ofNat 16 (0x0200 + r.toNat)) := by
  rw [exec_regWr, execRegWr, State.whenRunning_running running, wordHigh_encode_regWr]
  cases hg : Reg.ofNum r with
  | none => rfl
  | some g =>
    rw [← Reg.num_of_ofNum hg, writableNumber_num_iff] at h
    exact if_neg h

/-- Settles O19: a write to an RW register is `writeReg`, and any other number makes the word an illegal one. -/
theorem regWrStoresLowBits : Obligations.RegWrStoresLowBits := by
  refine fun v s running => ⟨fun r => decode_of_encode_toNat rfl (encode_regWr_toNat r v), fun g writable => ?_,
    fun r notWritable => ?_⟩
  · have hw := (writableNumber_num_iff g).mp writable
    refine ⟨_, exec_regWr_num running hw v, rfl, ?_, fun g' other => ?_, ?_⟩
    · rw [State.answered_readReg, readReg_writeReg_same hw]
    · rw [State.answered_readReg, readReg_writeReg_of_ne other]
    · obtain ⟨_, _, _, _, _, _, _, fields⟩ := writeReg_eq s g v
      rw [fields]
      exact ⟨rfl, rfl, rfl, rfl, rfl⟩
  · rw [exec_regWr_notWritable running notWritable, illegalWord_running running]

end Sys2Proof.Machine
end

section
/-! Proofs of the statements about faults and the halt (60_exceptions.md). `exec_faultsOnly` says once, command by command along its checks, which
fault a running block can end with (R254) and in which state it is taken (R256); the halted block is `exec_halted` and `runWord_halted` (R257). -/

namespace Sys2Proof.Machine

variable {s t u : State} {i : Instr} {c : FaultCode} {k : Unit → Result}

/-! ## The faults of a command (R254, R256) -/

/-- The row of R254 for a command: the codes it can raise. -/
def State.mayRaise (s : State) (i : Instr) (c : FaultCode) : Prop :=
  match i with
  | .regRd _ | .regWr _ _ => c = .illegal
  | .tbRd _ | .tbWr _ _ => c = .badLen ∨ c = .range
  | .trkRd _ | .gapFind => c = .badLen
  | .encTrack => c = .badLen ∨ c = .tableFull ∨ c = .gap4b ∨ c = .layout
  | .scanNext => c = .badLen ∨ (c = .malformed ∧ s.strict = true)
  | .gapAdd => c = .ivFull
  | .adjStep | .adjRun => c = .badLen ∨ c = .range ∨ c = .malformed ∨ c = .noGap
  | .nop | .crcSeed | .crcUpd _ | .pbRd _ | .pbWr _ _ | .scanStart | .gapClr => False

/-- If the outcome `o` of command `i` on `s` has FAULT.V set, it is a state with a fault of the command taken; the fault finds `s` itself,
unless the command is ADJ.RUN, whose completed passes stay (R212, R256). -/
def FaultsOnly (s : State) (i : Instr) (o : Result) : Prop :=
  ∀ t, o = .next t → t.faultV = true → ∃ u c info, t = u.takeFault c info ∧ s.mayRaise i c ∧ (i ≠ .adjRun → u = s)

/-! ### Along the checks of a command -/

theorem FaultsOnly.answer {r : Word} (running : u.faultV = false) : FaultsOnly s i (u.answer r) := by
  intro t next faulted
  obtain rfl := State.answer_next.mp next
  exact absurd faulted (Bool.eq_false_iff.mp running)

theorem FaultsOnly.raise {info : Nat} (may : s.mayRaise i c) (kept : i ≠ .adjRun → u = s) : FaultsOnly s i (u.raise c info) :=
  fun _ next _ => ⟨u, c, info, State.raise_next.mp next, may, kept⟩

theorem FaultsOnly.raiseHere {info : Nat} (may : s.mayRaise i c) : FaultsOnly s i (s.raise c info) := .raise may fun _ => rfl

theorem FaultsOnly.whenRunning (running : s.running) (h : FaultsOnly s i (k ())) : FaultsOnly s i (s.whenRunning k) :=
  (State.whenRunning_running running k).symm ▸ h

theorem FaultsOnly.illegalWord {high : Half} (running : s.running) (may : s.mayRaise i .illegal) : FaultsOnly s i (s.illegalWord high) :=
  .whenRunning running (.raiseHere may)

theorem FaultsOnly.whenValidLen (running : s.running) (may : s.mayRaise i .badLen) (h : FaultsOnly s i (k ())) :
    FaultsOnly s i (s.whenRunning fun _ => s.whenValidLen k) := by
  refine .whenRunning running ?_
  unfold State.whenValidLen
  split
  · exact h
  · exact .raiseHere may

theorem FaultsOnly.whenTrackAddr {addr : BitVec 14} (running : s.running) (badLen : s.mayRaise i .badLen) (range : s.mayRaise i .range)
    (h : FaultsOnly s i (k ())) : FaultsOnly s i (s.whenTrackAddr addr k) := by
  refine .whenValidLen running badLen ?_
  split
  · exact .raiseHere range
  · exact h

theorem FaultsOnly.whenTarget (running : s.running) (badLen : s.mayRaise i .badLen) (range : s.mayRaise i .range)
    (h : FaultsOnly s i (k ())) : FaultsOnly s i (s.whenTarget k) := by
  refine .whenValidLen running badLen ?_
  split
  · exact .raiseHere range
  · exact h

/-! ### The commands -/

/-- The checks of ENC.TRACK after ValidLen raise E_TABLEFULL, E_GAP4B or E_LAYOUT (R152). -/
theorem encChecks_mayRaise {f : Raised} (h : s.encChecks = some f) : s.mayRaise .encTrack f.code := by
  rcases State.encChecks_some h with ⟨_, rfl⟩ | ⟨_, _, rfl⟩ | ⟨_, _, _, rfl⟩
  · exact .inr (.inl rfl)
  · exact .inr (.inr (.inl rfl))
  · exact .inr (.inr (.inr rfl))

theorem adjPasses_faultV (s : State) (n : Nat) : (s.adjPasses n).1.faultV = s.faultV :=
  adjPasses_induct (P := fun t => t.faultV = s.faultV) (fun t p kept _ => (adjApply_faultV t p).trans kept) n rfl

/-- Which fault each command can end with on a running block, and in which state. -/
theorem exec_faultsOnly (running : s.running) (i : Instr) : FaultsOnly s i (exec i s) := by
  unfold exec
  cases i with
  | nop =>
    show FaultsOnly s .nop (execNop s)
    rw [execNop, running]
    exact .answer running
  | regRd r =>
    show FaultsOnly s (.regRd r) (execRegRd r s)
    unfold execRegRd
    split
    · exact .answer running
    · exact .illegalWord running rfl
  | regWr r v =>
    refine .whenRunning running ?_
    split
    next g _ =>
      split
      · exact .answer ((Writes.regWr g v).fault_kept.1.trans running)
      · exact .illegalWord running rfl
    · exact .illegalWord running rfl
  | crcSeed | crcUpd _ | pbRd _ | pbWr _ _ | scanStart | gapClr => exact .whenRunning running (.answer running)
  | tbRd _ | tbWr _ _ => exact .whenTrackAddr running (.inl rfl) (.inr rfl) (.answer running)
  | trkRd _ | gapFind => exact .whenValidLen running rfl (.answer running)
  | encTrack =>
    refine .whenValidLen running (.inl rfl) ?_
    split
    next f failed => exact .raiseHere (encChecks_mayRaise failed)
    · exact .answer running
  | scanNext =>
    refine .whenValidLen running (.inl rfl) ?_
    split
    next h => exact .raiseHere (.inr ⟨rfl, h.1⟩)
    · exact .answer (Writes.scanNext.fault_kept.1.trans running)
  | gapAdd =>
    refine .whenRunning running ?_
    split
    · exact .raiseHere rfl
    · exact .answer running
  | adjStep =>
    refine .whenTarget running (.inl rfl) (.inr (.inl rfl)) ?_
    split
    · exact .answer running
    split
    next f failed => exact .raiseHere (.inr (.inr (adjPlan_error_code (adjPass_error.mp failed))))
    next s' passed =>
      obtain ⟨p, _, rfl⟩ := adjPass_cases passed
      exact .answer ((adjApply_faultV s p).trans running)
  | adjRun =>
    refine .whenTarget running (.inl rfl) (.inr (.inl rfl)) ?_
    have kept := (adjPasses_faultV s s.adjDistance).trans running
    split
    next passes =>
      rw [passes] at kept
      exact .answer kept
    next passes => exact .raise (.inr (.inr (adjPasses_error_code passes))) fun other => absurd rfl other

/-- Settles O10: a command other than ADJ.RUN takes its fault in the state it started from. -/
theorem faultsArePrecise : Obligations.FaultsArePrecise := by
  intro i s t running other next faulted
  obtain ⟨u, c, info, rfl, _, kept⟩ := exec_faultsOnly running i t next faulted
  obtain rfl := kept other
  rfl

/-- Settles O11: the codes of R254, by their numbers (R251). -/
theorem commandsRaiseOnlyTheirFaults : Obligations.CommandsRaiseOnlyTheirFaults := by
  intro i s t running next faulted
  obtain ⟨u, c, info, rfl, may, _⟩ := exec_faultsOnly running i t next faulted
  have number {d : FaultCode} : c = d → c.num = d.num := congrArg FaultCode.num
  cases i with
  | regRd _ | regWr _ _ | trkRd _ | gapFind | gapAdd => exact number may
  | tbRd _ | tbWr _ _ => exact may.imp number number
  | encTrack | adjStep | adjRun => exact may.imp number (.imp number (.imp number number))
  | scanNext => exact may.imp number (.imp_left number)
  | nop | crcSeed | crcUpd _ | pbRd _ | pbWr _ _ | scanStart | gapClr => exact may

/-! ## The halted block (R257) -/

theorem encode_regRd (r : BitVec 8) : encode (.regRd r) = BitVec.ofNat 32 (0x01000000 + r.toNat * 0x10000) := by
  rw [← encode_regRd_toNat, BitVec.ofNat_toNat, BitVec.setWidth_eq]

theorem readReg_status_halt (s : State) : (s.readReg .status).getLsbD 0 = s.faultV := by
  have bit (v d g : Bool) : ((BitVec.ofBool g ++ BitVec.ofBool d ++ BitVec.ofBool v).setWidth 16).getLsbD 0 = v := by
    revert v d g
    decide
  exact bit s.faultV s.scandone s.gap.valid

/-- Taking the host's next event reads nothing of the register file. -/
theorem readReg_input (s : State) (rest : List HostEvent) (g : Reg) : State.readReg { s with input := rest } g = s.readReg g := by
  cases g <;> rfl

theorem whenTrackAddr_halted {addr : BitVec 14} (halted : s.faultV = true) : s.whenTrackAddr addr k = .next s.refused :=
  State.whenRunning_halted halted _

theorem whenTarget_halted (halted : s.faultV = true) : s.whenTarget k = .next s.refused := State.whenRunning_halted halted _

/-- A halted block refuses every command but a read of an assigned register; what NOP answers is the refusal too (R235, R257). -/
theorem exec_halted (halted : s.faultV = true) (notRead : ∀ g : Reg, i ≠ .regRd g.num) : exec i s = .next s.refused := by
  unfold exec
  cases i with
  | nop => exact if_pos halted
  | regRd r =>
    cases found : Reg.ofNum r with
    | some g => exact absurd (congrArg Instr.regRd (Reg.num_of_ofNum found).symm) (notRead g)
    | none =>
      show execRegRd r s = _
      rw [execRegRd, found]
      exact State.whenRunning_halted halted _
  | tbRd _ | tbWr _ _ => exact whenTrackAddr_halted halted
  | adjStep | adjRun => exact whenTarget_halted halted
  | _ => exact State.whenRunning_halted halted _

/-- A halted block refuses every word but that of a read of an assigned register, legal or not (R107, R257). -/
theorem runWord_halted {w : Word} (halted : s.faultV = true) (notRead : ∀ g : Reg, w ≠ encode (.regRd g.num)) :
    runWord w s = .next s.refused := by
  cases decoded : decode w with
  | ok i =>
    rw [runWord_of_decode_ok decoded]
    exact exec_halted halted fun g read => notRead g (read ▸ (encode_of_decode decoded).symm)
  | error r =>
    rw [runWord_of_decode_error decoded]
    exact State.whenRunning_halted halted _

/-- Settles O12: REG.RD of an assigned register is executed, halted or not; every other word is refused. -/
theorem haltedBlockRefuses : Obligations.HaltedBlockRefuses := by
  intro s w rest halted hin
  refine ⟨(readReg_status_halt s).trans halted, fun g read => ?_, fun notRead => ?_⟩
  · have decoded : decode w = .ok (.regRd g.num) := read ▸ decode_of_encode_toNat rfl (encode_regRd_toNat g.num)
    rw [stepRunsDecodedCommand s w rest _ hin decoded, exec_regRd_num, readReg_input]
    rfl
  · rw [step_command hin]
    exact runWord_halted halted fun g => encode_regRd g.num ▸ notRead g

/-! ## Leaving the halt (R258) -/

/-- Whatever the word, a halted block takes it and writes RESP alone (R257). -/
theorem step_halted_command {w : Word} {rest : List HostEvent} (halted : s.faultV = true) (hin : s.input = .command w :: rest) :
    ∃ r, step s = .next { s with input := rest, resp := r } := by
  obtain ⟨_, read, refused⟩ := haltedBlockRefuses s w rest halted hin
  by_cases isRead : ∃ g : Reg, w = BitVec.ofNat 32 (0x01000000 + g.num.toNat * 0x10000)
  · obtain ⟨g, hw⟩ := isRead
    exact ⟨_, read g hw⟩
  · exact ⟨_, refused (not_exists.mp isRead)⟩

/-- Settles O13: by the next event, none, a command word or a reset. -/
theorem onlyResetLeavesHalt : Obligations.OnlyResetLeavesHalt := by
  refine ⟨fun s t halted noReset next => ?_, fun s rest _ hin => ⟨_, step_reset hin, rfl, rfl, rfl, rfl⟩⟩
  cases hin : s.input with
  | nil =>
    rw [step_idle hin] at next
    cases next
    rw [List.tail_nil, ← hin]
  | cons event rest =>
    cases event with
    | reset => exact absurd (congrArg List.head? hin) noReset
    | command w =>
      obtain ⟨r, hstep⟩ := step_halted_command halted hin
      rw [hstep] at next
      cases next
      rfl

end Sys2Proof.Machine
end

section
/-! Proof of the statement that every command completes (70_reset_and_hazards.md). The only outcomes a meaning makes itself are an answer and a
fault taken, both next states; every check on the way to one either makes such an outcome or hands on to the rest of the command (R145, R256,
R257). `exec_goesOn` follows each command along its checks. -/

namespace Sys2Proof.Machine

variable {s : State} {k : Unit → Result}

/-! ## Along the checks of a command -/

theorem answer_goesOn (s : State) (r : Word) : goesOn (s.answer r) := ⟨_, rfl⟩

theorem raise_goesOn (s : State) (c : FaultCode) (info : Nat) : goesOn (s.raise c info) := ⟨_, rfl⟩

theorem whenRunning_goesOn (rest : goesOn (k ())) : goesOn (s.whenRunning k) := by
  cases halt : s.faultV with
  | true => exact ⟨_, State.whenRunning_halted halt k⟩
  | false => exact (State.whenRunning_running halt k).symm ▸ rest

theorem illegalWord_goesOn (s : State) (high : Half) : goesOn (s.illegalWord high) := whenRunning_goesOn (raise_goesOn ..)

theorem whenValidLen_goesOn (rest : goesOn (k ())) : goesOn (s.whenRunning fun _ => s.whenValidLen k) := by
  refine whenRunning_goesOn ?_
  cases valid : s.validLen with
  | true => exact (State.whenValidLen_valid valid k).symm ▸ rest
  | false => exact (State.whenValidLen_bad valid k).symm ▸ raise_goesOn ..

theorem whenTrackAddr_goesOn {addr : BitVec 14} (rest : goesOn (k ())) : goesOn (s.whenTrackAddr addr k) := by
  refine whenValidLen_goesOn ?_
  split
  · exact raise_goesOn ..
  · exact rest

theorem whenTarget_goesOn (rest : goesOn (k ())) : goesOn (s.whenTarget k) := by
  refine whenValidLen_goesOn ?_
  split
  · exact raise_goesOn ..
  · exact rest

/-! ## The commands, the words, the steps -/

/-- Every command, from every state, in any of its branches. -/
theorem exec_goesOn (i : Instr) (s : State) : goesOn (exec i s) := by
  unfold exec
  cases i with
  | nop =>
    show goesOn (execNop s)
    unfold execNop
    split <;> exact answer_goesOn ..
  | regRd r =>
    show goesOn (execRegRd r s)
    unfold execRegRd
    split
    · exact answer_goesOn ..
    · exact illegalWord_goesOn ..
  | regWr r v =>
    refine whenRunning_goesOn ?_
    split
    · split
      · exact answer_goesOn ..
      · exact illegalWord_goesOn ..
    · exact illegalWord_goesOn ..
  | crcSeed | crcUpd _ | pbRd _ | pbWr _ _ | scanStart | gapClr => exact whenRunning_goesOn (answer_goesOn ..)
  | tbRd _ | tbWr _ _ => exact whenTrackAddr_goesOn (answer_goesOn ..)
  | trkRd _ | gapFind => exact whenValidLen_goesOn (answer_goesOn ..)
  | encTrack | scanNext =>
    refine whenValidLen_goesOn ?_
    split
    · exact raise_goesOn ..
    · exact answer_goesOn ..
  | gapAdd =>
    refine whenRunning_goesOn ?_
    split
    · exact raise_goesOn ..
    · exact answer_goesOn ..
  | adjStep =>
    refine whenTarget_goesOn ?_
    split
    · exact answer_goesOn ..
    split
    · exact raise_goesOn ..
    · exact answer_goesOn ..
  | adjRun =>
    refine whenTarget_goesOn ?_
    split
    · exact answer_goesOn ..
    · exact raise_goesOn ..

/-- Every word, a command or not (R107). -/
theorem runWord_goesOn (w : Word) (s : State) : goesOn (runWord w s) := by
  cases decoded : decode w with
  | ok i => exact runWord_of_decode_ok decoded s ▸ exec_goesOn i s
  | error r => exact runWord_of_decode_error decoded s ▸ illegalWord_goesOn ..

/-- Every step, by the next event: none, a reset or a command word. -/
theorem step_goesOn (s : State) : goesOn (step s) := by
  cases hin : s.input with
  | nil => exact ⟨_, step_idle hin⟩
  | cons event rest =>
    cases event with
    | reset => exact ⟨_, step_reset hin⟩
    | command w => exact step_command hin ▸ runWord_goesOn w _

/-- Settles O9: by `exec_goesOn` and `step_goesOn`. -/
theorem everyCommandCompletes : Obligations.EveryCommandCompletes := ⟨exec_goesOn, step_goesOn⟩

end Sys2Proof.Machine
end
